-- ==== Sys2Proof/Word.lean ====
section
/-! DEFINITION. The words of the block and their widths: bytes, register addresses, command words and operand
latches (00_scope.md R5, 20_memory.md R50, 30_encoding.md R70, 10_state.md R27). -/

namespace Sys2Proof

/-- A peripheral register, a status byte, a data byte, a wire byte (00_scope.md R5). -/
abbrev Byte := BitVec 8

/-- A byte address of the register space (20_memory.md R50). -/
abbrev Addr := BitVec 16

/-- A command word (30_encoding.md R70). -/
abbrev CmdWord := BitVec 32

/-- An operand latch or a result (10_state.md R27). -/
abbrev Latch := BitVec 64

end Sys2Proof
end

