-- ==== Sys2Proof/Config.lean ====
section
/-! DEFINITION. The implementation parameters of 00_scope.md R5 to R8 and the enumeration tables of
40_bit_accessor.md R98, as plain data, and the free values (constants with no body). -/

namespace Sys2Proof

/-- One pair of an enumeration table: table `etab` maps `pattern` to `case` (40_bit_accessor.md R98). -/
structure EnumEntry where
  etab : BitVec 5
  pattern : BitVec 64
  case : Latch
  deriving DecidableEq, Repr, Inhabited

/-- The parameters of the block. Every one is open: no rule depends on a value (00_scope.md section 2). -/
structure Config where
  /-- `POLL_OUTER`, R6: the number of poll reads before `Timeout`. -/
  pollOuter : Nat
  /-- `POLL_INNER`, R6: the length of the inner spin, "no rule depends on it" (70_reset_and_hazards.md R223). -/
  pollInner : Nat
  /-- `ST_START`, R7. -/
  stStart : Byte
  /-- `ST_RSTART`, R7. -/
  stRstart : Byte
  /-- `ST_SLAW_ACK`, R7. -/
  stSlawAck : Byte
  /-- `ST_SLAR_ACK`, R7. -/
  stSlarAck : Byte
  /-- `ST_TXDATA_ACK`, R7. -/
  stTxdataAck : Byte
  /-- `ST_RXDATA_ACK`, R7. -/
  stRxdataAck : Byte
  /-- `ST_RXDATA_NACK`, R7. -/
  stRxdataNack : Byte
  /-- `TWCTL_ADDR`, R8: the control register. -/
  twctlAddr : Addr
  /-- `TWDAT_ADDR`, R8: the data register. -/
  twdatAddr : Addr
  /-- `TWSTAT_ADDR`, R8: the status register. -/
  twstatAddr : Addr
  /-- `TWBR_ADDR`, R8: the bit-rate register. -/
  twbrAddr : Addr
  /-- `START_BIT`, R8. -/
  startBit : Fin 8
  /-- `STOP_BIT`, R8. -/
  stopBit : Fin 8
  /-- `INT_BIT`, R8. -/
  intBit : Fin 8
  /-- `EN_BIT`, R8. -/
  enBit : Fin 8
  /-- `ACKEN_BIT`, R8. -/
  ackenBit : Fin 8
  /-- `RDY_BIT`, R8; it may equal `INT_BIT` (10_state.md R31). -/
  rdyBit : Fin 8
  /-- `STATUS_MASK`, R8; `0xFF` is HB's bit-exact comparison (10_state.md R33). -/
  statusMask : Byte
  /-- `ENUM[0..31]`: the pairs of all tables; a table with no pair is the empty map (40_bit_accessor.md R98). -/
  enums : List EnumEntry
  deriving DecidableEq, Repr, Inhabited

/-- What the spec demands of a configuration: `POLL_OUTER >= 1` (00_scope.md R6), the five written flags at
pairwise distinct positions (R8), and each enumeration table a map (40_bit_accessor.md R98). -/
abbrev Config.Valid (c : Config) : Prop :=
  1 ≤ c.pollOuter ∧ [c.startBit, c.stopBit, c.intBit, c.enBit, c.ackenBit].Nodup ∧
    c.enums.Pairwise (fun a b => a.etab ≠ b.etab ∨ a.pattern ≠ b.pattern)

/-- The configuration of the target the block is built for. No body: the spec leaves every parameter open
(00_scope.md R7, R8), so nothing can be proved of a value of it. DESIGN CHOICE (log 3), safe. -/
opaque Config.target : Config

/-- The reference parameter set `AVR328` (00_scope.md R9), "used only by `95_test_vectors.md` and never by a rule", with no
enumeration table, of which R9 says nothing. The model's tests use it; no other definition and no statement does.
PRESUMED (log 19): the addresses, the bit positions, the mask and the codes are general knowledge, as R9 says itself. -/
def Config.avr328 : Config where
  twbrAddr := 0xB8
  twstatAddr := 0xB9
  twdatAddr := 0xBB
  twctlAddr := 0xBC
  intBit := 7
  ackenBit := 6
  startBit := 5
  stopBit := 4
  enBit := 2
  rdyBit := 7
  statusMask := 0xF8
  stStart := 0x08
  stRstart := 0x10
  stSlawAck := 0x18
  stTxdataAck := 0x28
  stSlarAck := 0x40
  stRxdataAck := 0x50
  stRxdataNack := 0x58
  pollOuter := 500000
  pollInner := 1000
  enums := []

/-- FREE VALUE. The peripheral's answer to the `n`-th MemRead when the state lists no pending answer: "the value of
every `MemRead` of a peripheral register is the peripheral's choice, under no law" (10_state.md R21). Log 1, safe. -/
opaque Config.envAnswer : Nat → Byte

/-- FREE VALUE. The content of a latch the host did not give: "a latch not given is unspecified"
(30_encoding.md R81, 93_implementation_defined.md U14). Log 5, safe. -/
opaque Config.freeLatch : Nat → Latch

end Sys2Proof
end

