-- ==== Sys2Proof/Syntax.lean ====
section
/-! DEFINITION. The 23 commands of 30_encoding.md R74, one constructor per row of spec/opcode_table.json, with the
fields of R71 to R73 and R75. -/

namespace Sys2Proof

/-- The width selector `wsel` of a format B command: 8, 16, 32 or 64 bits (30_encoding.md R71). -/
inductive Width where
  | w8
  | w16
  | w32
  | w64
  deriving DecidableEq, Repr

/-- The commands. `lo`, `hi` and `etab` are plain unsigned numbers (R75), `lo` is also the bit index of a
single-bit command (R71); `addr7` is the 7-bit slave address (R73); `ack` is HB's `acknowledge` argument. -/
inductive Instr where
  /-- BITMASK -/
  | bitmask (w : Width) (lo hi : Nat)
  /-- HASBIT -/
  | hasbit (w : Width) (lo : Nat)
  /-- GETBIT -/
  | getbit (w : Width) (lo : Nat)
  /-- GETBITS -/
  | getbits (w : Width) (lo hi : Nat)
  /-- GETENUM -/
  | getenum (w : Width) (hasdef : Bool) (etab lo hi : Nat)
  /-- SETBIT -/
  | setbit (w : Width) (lo : Nat)
  /-- SETBITS -/
  | setbits (w : Width) (lo hi : Nat)
  /-- TOGBIT -/
  | togbit (w : Width) (lo : Nat)
  /-- REG.RD -/
  | regRd (addr : Addr)
  /-- REG.WR -/
  | regWr (addr : Addr)
  /-- TW.WAIT -/
  | twWait
  /-- TW.START -/
  | twStart
  /-- TW.RSTART -/
  | twRstart
  /-- TW.STOP -/
  | twStop
  /-- TW.SLAW -/
  | twSlaw (addr7 : BitVec 7)
  /-- TW.SLAR -/
  | twSlar (addr7 : BitVec 7)
  /-- TW.SENDB -/
  | twSendb (imm8 : Byte)
  /-- TW.RECVB -/
  | twRecvb (ack : Bool)
  /-- TW.CFGM -/
  | twCfgm
  /-- TXN.BEGIN -/
  | txnBegin
  /-- TXN.END -/
  | txnEnd
  /-- TXN.XMIT -/
  | txnXmit (addr7 : BitVec 7)
  /-- TXN.RECV -/
  | txnRecv (addr7 : BitVec 7)
  deriving DecidableEq, Repr

end Sys2Proof
end

