-- ==== Sys2Proof/WellFormed.lean ====
section
/-! DEFINITION. Which terms of `Instr` a command word can hold: `lo` and `hi` are 6-bit numbers and `etab` is a
5-bit number (30_encoding.md R71). A range that does not fit the selected width, or with its bounds reversed, IS
well formed: it is "not a decode error but the `BitRange` fault" (R71). -/

namespace Sys2Proof

/-- A bit index or range bound fits its 6-bit field (30_encoding.md R71). -/
def indexFits (i : Nat) : Bool := decide (i < 64)

/-- A table number fits its 5-bit field (30_encoding.md R71). -/
def tableFits (t : Nat) : Bool := decide (t < 32)

/-- Every field of the command fits its place in the word. -/
def WellFormed : Instr → Bool
  | .bitmask _ lo hi => indexFits lo && indexFits hi
  | .hasbit _ lo => indexFits lo
  | .getbit _ lo => indexFits lo
  | .getbits _ lo hi => indexFits lo && indexFits hi
  | .getenum _ _ etab lo hi => tableFits etab && indexFits lo && indexFits hi
  | .setbit _ lo => indexFits lo
  | .setbits _ lo hi => indexFits lo && indexFits hi
  | .togbit _ lo => indexFits lo
  | .regRd _ => true
  | .regWr _ => true
  | .twWait => true
  | .twStart => true
  | .twRstart => true
  | .twStop => true
  | .twSlaw _ => true
  | .twSlar _ => true
  | .twSendb _ => true
  | .twRecvb _ => true
  | .twCfgm => true
  | .txnBegin => true
  | .txnEnd => true
  | .txnXmit _ => true
  | .txnRecv _ => true

end Sys2Proof
end

