-- ==== Sys2Proof/Decode.lean ====
section
/-! DEFINITION. The decoder of 30_encoding.md R74, R79 and R80, total on 32-bit words, rejecting by name; the
encoder, written from the formats of R70 to R73; and the host's `decodeTableWord`. -/

namespace Sys2Proof

/-! ## Fields (R71 to R73, R75) -/

/-- The field `cmd[hi:lo]` as an unsigned number (30_encoding.md R75, 00_scope.md R10). -/
def field (w : CmdWord) (hi lo : Nat) : Nat := (w.extractLsb hi lo).toNat

/-- `wsel = cmd[23:22]`: "0 for 8 bits, 1 for 16, 2 for 32, 3 for 64" (30_encoding.md R71). -/
def Width.ofCode (c : BitVec 2) : Width :=
  if c = 0#2 then .w8 else if c = 1#2 then .w16 else if c = 2#2 then .w32 else .w64

/-- The two bits of `wsel` (30_encoding.md R71). -/
def Width.code : Width → BitVec 2
  | .w8 => 0#2
  | .w16 => 1#2
  | .w32 => 2#2
  | .w64 => 3#2

def fieldWsel (w : CmdWord) : Width := .ofCode (w.extractLsb 23 22)
def fieldHasdef (w : CmdWord) : Bool := w.getLsbD 21
def fieldEtab (w : CmdWord) : Nat := field w 20 16
def fieldHi (w : CmdWord) : Nat := field w 13 8
def fieldLo (w : CmdWord) : Nat := field w 5 0
def fieldAddr (w : CmdWord) : Addr := w.extractLsb 15 0
def fieldAddr7 (w : CmdWord) : BitVec 7 := w.extractLsb 6 0
def fieldImm8 (w : CmdWord) : Byte := w.extractLsb 7 0
def fieldAck (w : CmdWord) : Bool := w.getLsbD 0

/-! ## The opcode map (R74) -/

/-- One row of the table of 30_encoding.md R74: a word `w` selects it when `w & mask = pattern`. -/
structure Row where
  mnemonic : String
  pattern : CmdWord
  mask : CmdWord
  build : CmdWord → Instr

def Row.selects (r : Row) (w : CmdWord) : Bool := w &&& r.mask == r.pattern

/-- The format B rows of R74. -/
def tableB : List Row :=
  [⟨"BITMASK", 0x10000000, 0xFF3FC0C0, fun w => .bitmask (fieldWsel w) (fieldLo w) (fieldHi w)⟩,
   ⟨"HASBIT", 0x11000000, 0xFF3FFFC0, fun w => .hasbit (fieldWsel w) (fieldLo w)⟩,
   ⟨"GETBIT", 0x12000000, 0xFF3FFFC0, fun w => .getbit (fieldWsel w) (fieldLo w)⟩,
   ⟨"GETBITS", 0x13000000, 0xFF3FC0C0, fun w => .getbits (fieldWsel w) (fieldLo w) (fieldHi w)⟩,
   ⟨"GETENUM", 0x14000000, 0xFF00C0C0,
    fun w => .getenum (fieldWsel w) (fieldHasdef w) (fieldEtab w) (fieldLo w) (fieldHi w)⟩,
   ⟨"SETBIT", 0x15000000, 0xFF3FFFC0, fun w => .setbit (fieldWsel w) (fieldLo w)⟩,
   ⟨"SETBITS", 0x16000000, 0xFF3FC0C0, fun w => .setbits (fieldWsel w) (fieldLo w) (fieldHi w)⟩,
   ⟨"TOGBIT", 0x17000000, 0xFF3FFFC0, fun w => .togbit (fieldWsel w) (fieldLo w)⟩]

/-- The format R rows of R74. -/
def tableR : List Row :=
  [⟨"REG.RD", 0x20000000, 0xFFFF0000, fun w => .regRd (fieldAddr w)⟩,
   ⟨"REG.WR", 0x21000000, 0xFFFF0000, fun w => .regWr (fieldAddr w)⟩]

/-- The format T rows of R74 for the driver. -/
def tableTw : List Row :=
  [⟨"TW.WAIT", 0x40000000, 0xFFFFFFFF, fun _ => .twWait⟩,
   ⟨"TW.START", 0x41000000, 0xFFFFFFFF, fun _ => .twStart⟩,
   ⟨"TW.RSTART", 0x42000000, 0xFFFFFFFF, fun _ => .twRstart⟩,
   ⟨"TW.STOP", 0x43000000, 0xFFFFFFFF, fun _ => .twStop⟩,
   ⟨"TW.SLAW", 0x44000000, 0xFFFFFF80, fun w => .twSlaw (fieldAddr7 w)⟩,
   ⟨"TW.SLAR", 0x45000000, 0xFFFFFF80, fun w => .twSlar (fieldAddr7 w)⟩,
   ⟨"TW.SENDB", 0x46000000, 0xFFFFFF00, fun w => .twSendb (fieldImm8 w)⟩,
   ⟨"TW.RECVB", 0x47000000, 0xFFFFFFFE, fun w => .twRecvb (fieldAck w)⟩,
   ⟨"TW.CFGM", 0x48000000, 0xFFFFFFFF, fun _ => .twCfgm⟩]

/-- The format T rows of R74 for transactions. -/
def tableTxn : List Row :=
  [⟨"TXN.BEGIN", 0x50000000, 0xFFFFFFFF, fun _ => .txnBegin⟩,
   ⟨"TXN.END", 0x51000000, 0xFFFFFFFF, fun _ => .txnEnd⟩,
   ⟨"TXN.XMIT", 0x52000000, 0xFFFFFF80, fun w => .txnXmit (fieldAddr7 w)⟩,
   ⟨"TXN.RECV", 0x53000000, 0xFFFFFF80, fun w => .txnRecv (fieldAddr7 w)⟩]

/-- The 23 rows of 30_encoding.md R74. -/
def table : List Row := tableB ++ tableR ++ tableTw ++ tableTxn

/-! ## Decoding (R79, R80) -/

/-- Why a word is illegal (30_encoding.md R80). Both kinds raise `IllegalCommand`. -/
inductive DecodeReject where
  /-- `op` is not one of the 23 listed. -/
  | unlistedOpcode (op : BitVec 8)
  /-- a listed `op` with a nonzero must-be-zero bit. -/
  | reservedBits (op : BitVec 8)
  deriving DecidableEq, Repr

/-- `op = cmd[31:24]` (30_encoding.md R70). -/
def opcode (w : CmdWord) : BitVec 8 := w.extractLsb 31 24

/-- "It tries the 23 rows of rule R74 ... if none matches the word is illegal" (30_encoding.md R79). -/
def decode (w : CmdWord) : Except DecodeReject Instr :=
  match table.find? (fun r => r.selects w) with
  | some r => .ok (r.build w)
  | none =>
    if table.any (fun r => opcode r.pattern == opcode w) then .error (.reservedBits (opcode w))
    else .error (.unlistedOpcode (opcode w))

/-! ## Encoding (R70 to R73) -/

/-- Format B: `op wsel hasdef etab 00 hi 00 lo` (30_encoding.md R71). -/
def formatB (op : BitVec 8) (w : Width) (hasdef : Bool) (etab hi lo : Nat) : CmdWord :=
  op ++ w.code ++ BitVec.ofBool hasdef ++ BitVec.ofNat 5 etab ++ 0#2 ++ BitVec.ofNat 6 hi ++ 0#2 ++
    BitVec.ofNat 6 lo

/-- Format R: `op 00000000 addr` (30_encoding.md R72). -/
def formatR (op : BitVec 8) (addr : Addr) : CmdWord := op ++ 0#8 ++ addr

/-- Format T: `op 0000000000000000 imm8` (30_encoding.md R73). -/
def formatT (op : BitVec 8) (imm8 : Byte) : CmdWord := op ++ 0#16 ++ imm8

/-- The command word of a well-formed instruction. -/
def encode : Instr → CmdWord
  | .bitmask w lo hi => formatB 0x10 w false 0 hi lo
  | .hasbit w lo => formatB 0x11 w false 0 0 lo
  | .getbit w lo => formatB 0x12 w false 0 0 lo
  | .getbits w lo hi => formatB 0x13 w false 0 hi lo
  | .getenum w hasdef etab lo hi => formatB 0x14 w hasdef etab hi lo
  | .setbit w lo => formatB 0x15 w false 0 0 lo
  | .setbits w lo hi => formatB 0x16 w false 0 hi lo
  | .togbit w lo => formatB 0x17 w false 0 0 lo
  | .regRd addr => formatR 0x20 addr
  | .regWr addr => formatR 0x21 addr
  | .twWait => formatT 0x40 0
  | .twStart => formatT 0x41 0
  | .twRstart => formatT 0x42 0
  | .twStop => formatT 0x43 0
  | .twSlaw addr7 => formatT 0x44 (0#1 ++ addr7)
  | .twSlar addr7 => formatT 0x45 (0#1 ++ addr7)
  | .twSendb imm8 => formatT 0x46 imm8
  | .twRecvb ack => formatT 0x47 (0#7 ++ BitVec.ofBool ack)
  | .twCfgm => formatT 0x48 0
  | .txnBegin => formatT 0x50 0
  | .txnEnd => formatT 0x51 0
  | .txnXmit addr7 => formatT 0x52 (0#1 ++ addr7)
  | .txnRecv addr7 => formatT 0x53 (0#1 ++ addr7)

/-! ## The host's question -/

/-- What the decoder reads from a command word given as a number, its bits above `nbits` being 0. A command is one
32-bit word presented whole (30_encoding.md R70), so there is no byte order to choose (log 16). -/
def decodeTableWord (nbits w : Nat) : Option Instr :=
  if nbits ≤ 32 then (decode (BitVec.ofNat 32 (w % 2 ^ nbits))).toOption else none

end Sys2Proof
end

