-- ==== Sys2Proof/Machine/State.lean ====
section
/-! DEFINITION. The state of the block as plain data (10_state.md), the reasons a step can stop, and the state after
reset (10_state.md R38, 70_reset_and_hazards.md R210). -/

namespace Sys2Proof.Machine

/-- The protocol state (10_state.md R22). -/
inductive Phase where
  | idle
  | startSent
  | addressSent
  | dataTransferring
  | stopPending
  deriving DecidableEq, Repr

/-- The direction of the last acknowledged address phase (10_state.md R23). -/
inductive Dir where
  | dirNone
  | dirW
  | dirR
  deriving DecidableEq, Repr

/-- A TWI Failure: "exactly two failure kinds", or none (00_scope.md R13, 60_exceptions.md R191). -/
inductive Failure where
  | none
  | unexpectedStatus (s : Byte)
  | timeout
  deriving DecidableEq, Repr

/-- The fault causes (60_exceptions.md R192). They are answers of the block in its response, not stops of the model:
the block "accepts the next command" (R194). -/
inductive FaultCause where
  | noFault
  | enumFatal
  | bitRange
  | illegalSequence
  | illegalCommand
  | configRange
  | halted
  deriving DecidableEq, Repr

/-- The response to a command (10_state.md R28). `failure` holds the pair (`fkind`, `fstatus`), `result` holds
(`resValid`, `res`): there is a value exactly when `resValid = 1` (log 6, log 15). -/
structure Response where
  fault : FaultCause
  skipped : Bool
  failure : Failure
  result : Option Latch
  deriving DecidableEq, Repr

/-- One register access, as the trace of 00_scope.md R15 writes it: `R(addr) = v` or `W(addr, v)`. -/
inductive Access where
  | read (addr : Addr) (v : Byte)
  | write (addr : Addr) (v : Byte)
  deriving DecidableEq, Repr

/-- What the host presents on the command port: the command word and the two latches loaded with it
(30_encoding.md R70, 10_state.md R27); `none` is "a latch not given" (30_encoding.md R81). -/
structure Command where
  word : CmdWord
  opA : Option Latch
  opB : Option Latch
  deriving DecidableEq, Repr

/-- What the host can do to the block: present a command (10_state.md R20) or assert the reset input
(70_reset_and_hazards.md R210). -/
inductive Input where
  | command (c : Command)
  | reset
  deriving DecidableEq, Repr

/-- The register space (20_memory.md R50) as the last byte handed to the platform at each address, strictly rising
addresses; an address not listed was never written (log 2). -/
abbrev Memory := List Host.Cell

/-- The state of the block, of what the outside world has pending for it, and of what has been observed. -/
structure State where
  /-- The parameters, written by nothing (10_state.md R38). -/
  cfg : Config
  /-- `phase` (10_state.md R22). -/
  phase : Phase
  /-- `dir` (10_state.md R23). -/
  dir : Dir
  /-- `txnOpen` (10_state.md R24). -/
  txnOpen : Bool
  /-- `txnStarted` (10_state.md R24). -/
  txnStarted : Bool
  /-- `firstFail` (10_state.md R25). -/
  firstFail : Failure
  /-- `FLT`, bit `c-1` for cause code `c` (10_state.md R26). -/
  flt : BitVec 6
  /-- `halted` (10_state.md R26). -/
  halted : Bool
  /-- `opA`, `x[0]` (10_state.md R27). -/
  opA : Latch
  /-- `opB`, `x[1]` (10_state.md R27). -/
  opB : Latch
  /-- The response, "held until the next command completes" (10_state.md R28). -/
  response : Response
  /-- `cp`, the command position (10_state.md R29). -/
  cp : Nat
  /-- What the host presents next, first at the head (30_encoding.md R85; log 7). -/
  inputs : List Input
  /-- The register space as handed to the platform (20_memory.md R50; log 2). -/
  mem : Memory
  /-- The accesses performed so far, in order (00_scope.md R15, 20_memory.md R56; log 9). -/
  trace : List Access
  /-- What the peripheral answers next (00_scope.md R16; log 1). -/
  answers : List Byte
  /-- The model's own counter: MemReads answered so far, the argument of `Config.envAnswer` (log 1). -/
  draws : Nat
  /-- The model's own counter: latches not given so far, the argument of `Config.freeLatch` (log 5). -/
  latchDraws : Nat
  deriving DecidableEq, Repr

/-- The reasons the machine stops with a fault. There is none: every abnormal outcome of the spec is an answer after
which the block goes on (60_exceptions.md R190, R194) or is halted, and a halted block still answers (R196). Log 20,
safe and unsafe alike do not arise: no constructor can be raised. -/
inductive Fault
  deriving DecidableEq, Repr

/-- The reasons a step is refused. -/
inductive Refusal where
  /-- No meaning for the instruction yet. Raised by `exec` only, in the arms that have none; at present no arm
  raises it. Safe: nothing is claimed of such a step. -/
  | notModelled (mnemonic : String)
  deriving DecidableEq, Repr

/-- The response after reset (10_state.md R38): every field 0. -/
def Response.cleared : Response := ⟨.noFault, false, .none, .none⟩

/-- The block right after reset (10_state.md R38, 70_reset_and_hazards.md R210, R211). `cfg` is the opaque
configuration of the target (log 3); `opA` and `opB`, which R38 leaves unspecified, hold 0 (DESIGN CHOICE, log 4,
unsafe); the two counters are the model's own and start at 0 (DESIGN CHOICE, log 1 and log 5). -/
def State.reset : State where
  cfg := Config.target
  phase := .idle
  dir := .dirNone
  txnOpen := false
  txnStarted := false
  firstFail := .none
  flt := 0
  halted := false
  opA := 0
  opB := 0
  response := .cleared
  cp := 0
  inputs := []
  mem := []
  trace := []
  answers := []
  draws := 0
  latchDraws := 0

end Sys2Proof.Machine
end

