-- ==== Sys2Proof/Machine/Flags.lean ====
section
/-! DEFINITION. The flags of 10_state.md R35: the `TWCTL` flags (R31), the sticky fault record (R26), the predicates on
`phase` (R22), and the response codes (R28, 60_exceptions.md R191, R192). There are no arithmetic condition codes. -/

namespace Sys2Proof.Machine

/-! ## Control register flags -/

/-- The flags of `TWCTL` that the engine writes (10_state.md R31). -/
inductive CtlFlag where
  | start
  | stop
  | int
  | en
  | acken
  deriving DecidableEq, Repr

/-- The flag's bit position in `TWCTL` (00_scope.md R8). -/
def flagBit (c : Config) : CtlFlag → Fin 8
  | .start => c.startBit
  | .stop => c.stopBit
  | .int => c.intBit
  | .en => c.enBit
  | .acken => c.ackenBit

/-- The freshly built control value: "the named flags 1, every other bit 0" (42_twi_driver.md R122). -/
def controlByte (c : Config) (flags : List CtlFlag) : Byte :=
  flags.foldl (fun b f => b ||| (1#8 <<< (flagBit c f).val)) 0#8

/-- The readiness flag of a poll answer, `c[RDY_BIT]` (42_twi_driver.md R121). -/
def readyIn (c : Config) (answer : Byte) : Bool := answer.getLsbD c.rdyBit.val

/-- "The comparison is `(value & STATUS_MASK) = expected`" (10_state.md R33, 42_twi_driver.md R123). -/
def statusMatches (c : Config) (s expected : Byte) : Bool := (s &&& c.statusMask) == expected

/-! ## Phase predicates -/

/-- `MidTransaction` (10_state.md R22). -/
def midTransaction : Phase → Bool
  | .startSent => true
  | .addressSent => true
  | .dataTransferring => true
  | .idle => false
  | .stopPending => false

/-- `BusFree` (10_state.md R22): "a precondition that asks for `Idle` is met by either". -/
def busFree : Phase → Bool
  | .idle => true
  | .stopPending => true
  | .startSent => false
  | .addressSent => false
  | .dataTransferring => false

/-- "after address phase": `phase in {AddressSent, DataTransferring}` (42_twi_driver.md R134, R136). -/
def afterAddress : Phase → Bool
  | .addressSent => true
  | .dataTransferring => true
  | .idle => false
  | .startSent => false
  | .stopPending => false

/-! ## Fault record -/

/-- The cause codes 0 to 6 (60_exceptions.md R192); "Code 7 is never produced". -/
def faultCode : FaultCause → BitVec 3
  | .noFault => 0
  | .enumFatal => 1
  | .bitRange => 2
  | .illegalSequence => 3
  | .illegalCommand => 4
  | .configRange => 5
  | .halted => 6

/-- The bit of `FLT` a cause sets: bit `code - 1` (10_state.md R26, 60_exceptions.md R193). -/
def faultBit : FaultCause → BitVec 6
  | .noFault => 0b000000
  | .enumFatal => 0b000001
  | .bitRange => 0b000010
  | .illegalSequence => 0b000100
  | .illegalCommand => 0b001000
  | .configRange => 0b010000
  | .halted => 0b100000

/-! ## Response codes -/

/-- `fkind`: 0 `None`, 1 `UnexpectedStatus`, 2 `Timeout` (10_state.md R28, 60_exceptions.md R191). -/
def Failure.fkind : Failure → BitVec 2
  | .none => 0
  | .unexpectedStatus _ => 1
  | .timeout => 2

/-- `fstatus`: "the status byte when `fkind = 1`, else 0" (10_state.md R28). -/
def Failure.fstatus : Failure → Byte
  | .none => 0
  | .unexpectedStatus s => s
  | .timeout => 0

/-- `resValid` (10_state.md R28). -/
def Response.resValid (r : Response) : Bool := r.result.isSome

/-- The response of a fault: the code, "with `skipped = 0`, `fkind = 0`, `fstatus = 0`, `resValid = 0`"
(60_exceptions.md R193). -/
def Response.ofFault (c : FaultCause) : Response := ⟨c, false, .none, .none⟩

/-- The response of a command that executed: its failure and its result (42_twi_driver.md R125,
40_bit_accessor.md R90). -/
def Response.ofFailure (f : Failure) (result : Option Latch) : Response := ⟨.noFault, false, f, result⟩

/-- The response of a skipped command: "(fkind, fstatus) = firstFail" (43_twi_transaction.md R151). -/
def Response.ofSkip (f : Failure) : Response := ⟨.noFault, true, f, .none⟩

end Sys2Proof.Machine
end

