-- ==== Sys2Proof/Machine/Operands.lean ====
section
/-! DEFINITION. Operand assembly (30_encoding.md R76, R77) and the bit accessor's W-bit arithmetic
(40_bit_accessor.md R92 to R99), for every width. All shifts are logical and act within `W` bits (00_scope.md R11). -/

namespace Sys2Proof.Machine

/-- `W = 8 << wsel` (30_encoding.md R71). -/
def widthBits : Width → Nat
  | .w8 => 8
  | .w16 => 16
  | .w32 => 32
  | .w64 => 64

/-- "A command that uses a `W`-bit operand reads the low `W` bits of the latch and ignores the rest"
(10_state.md R27): `v = opA[W-1:0]`, `x = opB[W-1:0]` (30_encoding.md R76). -/
def operand (w : Nat) (latch : Latch) : BitVec w := latch.setWidth w

/-- "a `W`-bit result is zero-extended into `res`" (10_state.md R27). -/
def zext64 {w : Nat} (v : BitVec w) : Latch := v.setWidth 64

/-- A single index is valid when `i <= W-1` (40_bit_accessor.md R91). -/
def indexValid (w i : Nat) : Bool := decide (i ≤ w - 1)

/-- A range is valid when `lo <= hi` and `hi <= W-1` (40_bit_accessor.md R91). -/
def rangeValid (w lo hi : Nat) : Bool := decide (lo ≤ hi) && decide (hi ≤ w - 1)

/-- `mask(lo, hi) = (~0 << lo) & (~0 >> (W-1-hi))` (40_bit_accessor.md R92). -/
def bitMask (w lo hi : Nat) : BitVec w := (BitVec.allOnes w <<< lo) &&& (BitVec.allOnes w >>> (w - 1 - hi))

/-- `(v >> i) & 1` (40_bit_accessor.md R93, R94). -/
def bitAt {w : Nat} (v : BitVec w) (i : Nat) : BitVec w := (v >>> i) &&& BitVec.ofNat w 1

/-- `(v & mask(lo, hi)) >> lo` (40_bit_accessor.md R95, R98). -/
def bitsAt {w : Nat} (v : BitVec w) (lo hi : Nat) : BitVec w := (v &&& bitMask w lo hi) >>> lo

/-- `(v & ~(1 << i)) | (b << i)` with `b` the lowest bit of the supplied value (40_bit_accessor.md R96). -/
def withBit {w : Nat} (v : BitVec w) (i : Nat) (b : Bool) : BitVec w :=
  (v &&& ~~~(BitVec.ofNat w 1 <<< i)) ||| ((BitVec.ofBool b).setWidth w <<< i)

/-- `(v & ~m) | ((x << lo) & m)` (40_bit_accessor.md R97). -/
def withBits {w : Nat} (v : BitVec w) (lo hi : Nat) (x : BitVec w) : BitVec w :=
  (v &&& ~~~bitMask w lo hi) ||| ((x <<< lo) &&& bitMask w lo hi)

/-- `v ^ (1 << i)` (40_bit_accessor.md R99). -/
def toggledBit {w : Nat} (v : BitVec w) (i : Nat) : BitVec w := v ^^^ (BitVec.ofNat w 1 <<< i)

/-- `ENUM[etab](e)`, absent when `e` is not in the table's domain (40_bit_accessor.md R98). A table that lists a
pattern twice is no map and is excluded by `Config.Valid`; the first entry would be taken (log 10). -/
def enumCase (c : Config) (etab : Nat) (e : Latch) : Option Latch :=
  (c.enums.find? (fun x => x.etab == BitVec.ofNat 5 etab && x.pattern == e)).map (fun x => x.case)

/-- The wire byte `sla(addr7, rw) = (addr7 << 1) | rw` (30_encoding.md R77, 20_memory.md R61). -/
def slaByte (addr7 : BitVec 7) (rw : Bool) : Byte := (addr7.setWidth 8 <<< 1) ||| (BitVec.ofBool rw).setWidth 8

/-- `bitRate = ((clockHz / 1_000_000) - 16) / 2`, absent outside its range (42_twi_driver.md R140). -/
def bitRate (clockHz : Nat) : Option Byte :=
  let q := clockHz / 1000000
  if q < 16 then none
  else if (q - 16) / 2 > 255 then none
  else some (BitVec.ofNat 8 ((q - 16) / 2))

end Sys2Proof.Machine
end

