-- ==== Sys2Proof/Machine/Ops.lean ====
section
/-! DEFINITION. The shared operations: the register space and its two volatile primitives (20_memory.md), the latches,
the response, raising a fault (60_exceptions.md R193, R194), the reset input (70_reset_and_hazards.md R210), and the
checks every command makes before it executes (60_exceptions.md R198). -/

namespace Sys2Proof.Machine

/-! ## The register space (20_memory.md R50) -/

/-- The byte last handed to the platform at an address; none where nothing was written. -/
def Memory.read : Memory → Nat → Option Byte
  | [], _ => none
  | c :: rest, a => if a = c.1 then some c.2 else if a < c.1 then none else Memory.read rest a

/-- The register space after the byte `v` is handed to the platform at `a`; keeps the canonical form. -/
def Memory.write : Memory → Nat → Byte → Memory
  | [], a, v => [(a, v)]
  | c :: rest, a, v =>
    if a = c.1 then (a, v) :: rest
    else if a < c.1 then (a, v) :: c :: rest
    else c :: Memory.write rest a v

/-- The canonical form: addresses strictly rising and inside the 16-bit space (20_memory.md R50). No listed entry
can equal what an unlisted address reads as, since an unlisted address reads as no value. -/
abbrev Memory.wf (m : Memory) : Prop := m.Pairwise (fun a b => a.1 < b.1) ∧ ∀ c ∈ m, c.1 < 65536

/-- The byte last handed to the platform at an address of the register space. -/
def State.handed (s : State) (a : Addr) : Option Byte := Memory.read s.mem a.toNat

/-! ## The two volatile primitives (20_memory.md R51) -/

/-- The peripheral's next answer: the first pending one, else the free value of this draw (10_state.md R21, log 1). -/
def State.nextAnswer (s : State) : Byte :=
  match s.answers with
  | b :: _ => b
  | [] => Config.envAnswer s.draws

/-- `MemRead(addr, 1)`: one access, recorded, answered by the peripheral (20_memory.md R51, 10_state.md R21). -/
def memRead (a : Addr) (s : State) : Byte × State :=
  (s.nextAnswer,
    { s with answers := s.answers.tail, draws := s.draws + 1, trace := s.trace ++ [.read a s.nextAnswer] })

/-- `MemWrite(addr, 1, v)`: one access, recorded and handed to the platform (20_memory.md R51). -/
def memWrite (a : Addr) (v : Byte) (s : State) : State :=
  { s with mem := Memory.write s.mem a.toNat v, trace := s.trace ++ [.write a v] }

/-! ## Presenting a command (10_state.md R27, R29; 30_encoding.md R70, R81) -/

/-- A latch as the host loads it: the value given, else the free value of this draw (30_encoding.md R81, log 5). -/
def latchValue (given : Option Latch) (draw : Nat) : Latch :=
  match given with
  | some v => v
  | none => Config.freeLatch draw

/-- The host presents a command: both latches are loaded with the word (10_state.md R27) and `cp` advances by
exactly 1, whatever becomes of the command (10_state.md R29). -/
def present (c : Command) (s : State) : State :=
  { s with
    opA := latchValue c.opA s.latchDraws
    opB := latchValue c.opB (s.latchDraws + 1)
    latchDraws := s.latchDraws + 2
    cp := s.cp + 1 }

/-- The command leaves the head of the host's list. -/
def withInputs (is : List Input) (s : State) : State := { s with inputs := is }

/-! ## Protocol and transaction state (10_state.md R22 to R25) -/

/-- `phase <- p ; dir <- d`. -/
def moveTo (p : Phase) (d : Dir) (s : State) : State := { s with phase := p, dir := d }

/-- `txnOpen <- o ; txnStarted <- st ; firstFail <- f`. -/
def setTxn (o st : Bool) (f : Failure) (s : State) : State :=
  { s with txnOpen := o, txnStarted := st, firstFail := f }

/-! ## The response and the faults -/

/-- The response is produced "once per command and held until the next command completes" (10_state.md R28). -/
def respond (r : Response) (s : State) : State := { s with response := r }

/-- TAKING A FAULT (60_exceptions.md R193, R194, R196): the response carries the cause, the cause's bit of `FLT` is
set, `EnumFatal` halts the block, and nothing else changes: nothing is vectored and no state is saved (R190). -/
def raiseFault (c : FaultCause) (s : State) : State :=
  { s with
    flt := s.flt ||| faultBit c
    halted := s.halted || c == .enumFatal
    response := .ofFault c }

/-- THE ONLY WAY OUT OF THE HALT, since no instruction returns from a fault (60_exceptions.md R200): the reset input
puts every engine state element to its reset value, performs no access, and leaves the configuration, the peripheral
and what was observed as they are (70_reset_and_hazards.md R210, R212; log 8). -/
def resetEngine (s : State) : State :=
  { s with
    phase := .idle
    dir := .dirNone
    txnOpen := false
    txnStarted := false
    firstFail := .none
    flt := 0
    halted := false
    opA := 0
    opB := 0
    response := .cleared
    cp := 0 }

/-- A failure inside an open transaction is its first failure, since a later one is never produced
(43_twi_transaction.md R151, 60_exceptions.md R200). -/
def recordFailure (f : Failure) (s : State) : State :=
  { s with firstFail := if s.txnOpen && f != .none then f else s.firstFail }

/-- The end of a command that executed: the failure is recorded when a transaction is open, and the response carries
it (43_twi_transaction.md R151, 42_twi_driver.md R125). -/
def finish (f : Failure) (result : Option Latch) (s : State) : State :=
  respond (.ofFailure f result) (recordFailure f s)

/-! ## The checks before execution, in the order of 60_exceptions.md R198 -/

/-- A command of the block. "(1) `halted = 1`: fault `Halted`" (60_exceptions.md R196, R198). -/
def command (body : State → State) (s : State) : Host.Outcome State Fault Refusal :=
  .next (if s.halted then raiseFault .halted s else body s)

/-- The skip condition: an open transaction that has failed (43_twi_transaction.md R151). -/
def State.skipping (s : State) : Bool := s.txnOpen && s.firstFail != .none

/-- A skippable command. "(3) the skip rule ... a skipped command makes no further check" (60_exceptions.md R198,
43_twi_transaction.md R151). -/
def skippable (body : State → State) (s : State) : Host.Outcome State Fault Refusal :=
  command (fun s => if s.skipping then respond (.ofSkip s.firstFail) s else body s) s

/-- "(4) preconditions": a false one raises `IllegalSequence` before any access or change (42_twi_driver.md R125,
60_exceptions.md R194). -/
def require (holds : Bool) (body : State → State) (s : State) : State :=
  if holds then body s else raiseFault .illegalSequence s

/-- "(5) operand checks: `BitRange`" (40_bit_accessor.md R91): made "before anything is computed". -/
def inRange (valid : Bool) (body : State → State) (s : State) : State :=
  if valid then body s else raiseFault .bitRange s

/-- A command that completes with a result and no failure (40_bit_accessor.md R90). -/
def deliver (v : Latch) (s : State) : State := respond (.ofFailure .none (some v)) s

/-- An illegal word: "(1) `halted` ... (2) decode: fault `IllegalCommand`" (60_exceptions.md R198,
30_encoding.md R80). -/
def rejectWord (s : State) : Host.Outcome State Fault Refusal := command (raiseFault .illegalCommand) s

end Sys2Proof.Machine
end

