-- ==== Sys2Proof/Machine/BitAccessor.lean ====
section
/-! DEFINITION. The bit accessor commands (40_bit_accessor.md). They perform no access, are never skipped, and change
nothing but the response, and on a fault `FLT` and `halted` (R90). -/

namespace Sys2Proof.Machine

/-- BITMASK (40_bit_accessor.md R92). -/
def execBitmask (w : Width) (lo hi : Nat) (s : State) : Host.Outcome State Fault Refusal :=
  command (fun s => inRange (rangeValid (widthBits w) lo hi)
    (deliver (zext64 (bitMask (widthBits w) lo hi))) s) s

/-- HASBIT (40_bit_accessor.md R93): 1 for true, 0 for false. -/
def execHasbit (w : Width) (lo : Nat) (s : State) : Host.Outcome State Fault Refusal :=
  command (fun s => inRange (indexValid (widthBits w) lo)
    (deliver (zext64 (bitAt (operand (widthBits w) s.opA) lo))) s) s

/-- GETBIT (40_bit_accessor.md R94). -/
def execGetbit (w : Width) (lo : Nat) (s : State) : Host.Outcome State Fault Refusal :=
  command (fun s => inRange (indexValid (widthBits w) lo)
    (deliver (zext64 (bitAt (operand (widthBits w) s.opA) lo))) s) s

/-- GETBITS (40_bit_accessor.md R95). -/
def execGetbits (w : Width) (lo hi : Nat) (s : State) : Host.Outcome State Fault Refusal :=
  command (fun s => inRange (rangeValid (widthBits w) lo hi)
    (deliver (zext64 (bitsAt (operand (widthBits w) s.opA) lo hi))) s) s

/-- The decode of an extracted pattern: the table's case, else the supplied default, else the fatal fault
(40_bit_accessor.md R98). -/
def decodeEnum (hasdef : Bool) (etab : Nat) (e : Latch) (s : State) : State :=
  match enumCase s.cfg etab e with
  | some case => deliver case s
  | none => if hasdef then deliver s.opB s else raiseFault .enumFatal s

/-- GETENUM (40_bit_accessor.md R98). -/
def execGetenum (w : Width) (hasdef : Bool) (etab lo hi : Nat) (s : State) : Host.Outcome State Fault Refusal :=
  command (fun s => inRange (rangeValid (widthBits w) lo hi)
    (decodeEnum hasdef etab (zext64 (bitsAt (operand (widthBits w) s.opA) lo hi))) s) s

/-- SETBIT (40_bit_accessor.md R96): the inserted bit is `opB[0]`. -/
def execSetbit (w : Width) (lo : Nat) (s : State) : Host.Outcome State Fault Refusal :=
  command (fun s => inRange (indexValid (widthBits w) lo)
    (deliver (zext64 (withBit (operand (widthBits w) s.opA) lo (s.opB.getLsbD 0)))) s) s

/-- SETBITS (40_bit_accessor.md R97). -/
def execSetbits (w : Width) (lo hi : Nat) (s : State) : Host.Outcome State Fault Refusal :=
  command (fun s => inRange (rangeValid (widthBits w) lo hi)
    (deliver (zext64 (withBits (operand (widthBits w) s.opA) lo hi (operand (widthBits w) s.opB)))) s) s

/-- TOGBIT (40_bit_accessor.md R99). -/
def execTogbit (w : Width) (lo : Nat) (s : State) : Host.Outcome State Fault Refusal :=
  command (fun s => inRange (indexValid (widthBits w) lo)
    (deliver (zext64 (toggledBit (operand (widthBits w) s.opA) lo))) s) s

end Sys2Proof.Machine
end

