-- ==== Sys2Proof/Machine/RegAccess.lean ====
section
/-! DEFINITION. The register access commands (41_register_access.md): absolute addressing, one byte, never skipped, no
contact with `phase`, `dir` or the transaction state (R110). -/

namespace Sys2Proof.Machine

/-- The body of REG.RD: `b <- MemRead(addr, 1) ; res <- zext_64(b)` (41_register_access.md R111). -/
def readRegister (addr : Addr) (s : State) : State :=
  match memRead addr s with
  | (b, t) => deliver (zext64 b) t

/-- REG.RD (41_register_access.md R111). -/
def execRegRd (addr : Addr) (s : State) : Host.Outcome State Fault Refusal :=
  command (readRegister addr) s

/-- REG.WR: `MemWrite(addr, 1, opA[7:0])`, no result (41_register_access.md R112). -/
def execRegWr (addr : Addr) (s : State) : Host.Outcome State Fault Refusal :=
  command (fun s => respond (.ofFailure .none none) (memWrite addr (operand 8 s.opA) s)) s

end Sys2Proof.Machine
end

