-- ==== Sys2Proof/Machine/TwiDriver.lean ====
section
/-! DEFINITION. The TWI peripheral driver (42_twi_driver.md): the poll, the trigger and the synchronize phase, the seven
primitives as rows of HB's operation table, and the nine commands. -/

namespace Sys2Proof.Machine

/-! ## The seven primitives (R120, 00_scope.md R15) -/

/-- A bus event, "the trigger access of one primitive operation" (00_scope.md R15): `S`, `Sr`, `P`, `A+W(a)`,
`A+R(a)`, `TX(b)`, `RX(ack)` and `RX(nack)`. -/
inductive BusEvent where
  | start
  | rstart
  | stop
  | addressW (addr7 : BitVec 7)
  | addressR (addr7 : BitVec 7)
  | tx (b : Byte)
  | rx (ack : Bool)
  deriving DecidableEq, Repr

/-- What the primitive writes to the data register first, if anything (42_twi_driver.md R124, R132 to R134). -/
def eventData : BusEvent → Option Byte
  | .start => none
  | .rstart => none
  | .stop => none
  | .addressW a => some (slaByte a false)
  | .addressR a => some (slaByte a true)
  | .tx b => some b
  | .rx _ => none

/-- The flags the primitive's trigger sets (42_twi_driver.md R127 to R136). -/
def eventFlags : BusEvent → List CtlFlag
  | .start => [.start, .int, .en]
  | .rstart => [.start, .int, .en]
  | .stop => [.stop, .int, .en]
  | .addressW _ => [.int, .en]
  | .addressR _ => [.int, .en]
  | .tx _ => [.int, .en]
  | .rx true => [.int, .en, .acken]
  | .rx false => [.int, .en]

/-- The one status code the primitive expects; the stop condition has no status check (42_twi_driver.md R127 to
R136, 90_conflicts.md C2). -/
def eventStatus (c : Config) : BusEvent → Option Byte
  | .start => some c.stStart
  | .rstart => some c.stRstart
  | .stop => none
  | .addressW _ => some c.stSlawAck
  | .addressR _ => some c.stSlarAck
  | .tx _ => some c.stTxdataAck
  | .rx true => some c.stRxdataAck
  | .rx false => some c.stRxdataNack

/-! ## The common mechanism -/

/-- The inner spin: "no access, no state change" (42_twi_driver.md R121; log 12). -/
def spin (_iterations : Nat) (s : State) : State := s

/-- The poll with `n` outer iterations left (42_twi_driver.md R121). -/
def pollLoop : Nat → State → Failure × State
  | 0, s => (.timeout, s)
  | n + 1, s =>
    match memRead s.cfg.twctlAddr s with
    | (c, t) => if readyIn s.cfg c then (.none, t) else pollLoop n (spin s.cfg.pollInner t)

/-- `WaitUntilReady()` (42_twi_driver.md R121): at most `POLL_OUTER` poll reads. -/
def waitUntilReady (s : State) : Failure × State := pollLoop s.cfg.pollOuter s

/-- `Trigger(F)`: one write of a freshly built control value (42_twi_driver.md R122). -/
def trigger (flags : List CtlFlag) (s : State) : State := memWrite s.cfg.twctlAddr (controlByte s.cfg flags) s

/-- The trigger phase of a primitive: the data register first, if it is written, then the control register
(42_twi_driver.md R124). -/
def triggerEvent (ev : BusEvent) (s : State) : State :=
  match eventData ev with
  | some b => trigger (eventFlags ev) (memWrite s.cfg.twdatAddr b s)
  | none => trigger (eventFlags ev) s

/-- The status check: one read of the status register, the raw byte carried on a mismatch (42_twi_driver.md R123). -/
def checkStatus (expected : Byte) (s : State) : Failure × State :=
  match memRead s.cfg.twstatAddr s with
  | (v, t) => (if statusMatches s.cfg v expected then .none else .unexpectedStatus v, t)

/-- The synchronize phase: `Sync(expected)`, or the wait alone where no status is expected (42_twi_driver.md R123,
R129). On a timeout "the status register is not read". -/
def synchronize (expected : Option Byte) (s : State) : Failure × State :=
  match waitUntilReady s with
  | (.none, t) =>
    match expected with
    | some code => checkStatus code t
    | none => (.none, t)
  | (f, t) => (f, t)

/-- The two-phase pattern: trigger, then synchronize (42_twi_driver.md R120). -/
def primitive (ev : BusEvent) (s : State) : Failure × State :=
  synchronize (eventStatus s.cfg ev) (triggerEvent ev s)

/-- "On success (`None`) the primitive moves `phase` as its rule says. On failure ... `phase` and `dir` keep the value
they had" (42_twi_driver.md R125). -/
def onSuccess (move : State → State) (r : Failure × State) : Failure × State :=
  match r with
  | (.none, t) => (.none, move t)
  | (f, t) => (f, t)

/-! ## The procedure bodies, called by the commands and by the transaction layer (00_scope.md R14) -/

/-- The body of TW.START (42_twi_driver.md R127). Its precondition, `BusFree or MidTransaction`, holds in every phase
(10_state.md R22), so nothing is checked (log 11; `busFree_or_midTransaction` in Laws). -/
def startProc (s : State) : Failure × State := onSuccess (moveTo .startSent .dirNone) (primitive .start s)

/-- The body of TW.RSTART after its precondition (42_twi_driver.md R128). -/
def rstartProc (s : State) : Failure × State := onSuccess (moveTo .startSent .dirNone) (primitive .rstart s)

/-- The body of TW.STOP (42_twi_driver.md R129): `StopPending` before the trigger, `Idle` on readiness. -/
def stopProc (s : State) : Failure × State :=
  onSuccess (moveTo .idle .dirNone) (primitive .stop (moveTo .stopPending .dirNone s))

/-- The body of TW.SLAW after its precondition (42_twi_driver.md R132). -/
def slawProc (addr7 : BitVec 7) (s : State) : Failure × State :=
  onSuccess (moveTo .addressSent .dirW) (primitive (.addressW addr7) s)

/-- The body of TW.SLAR after its precondition (42_twi_driver.md R133). -/
def slarProc (addr7 : BitVec 7) (s : State) : Failure × State :=
  onSuccess (moveTo .addressSent .dirR) (primitive (.addressR addr7) s)

/-- The body of TW.SENDB after its precondition; `dir` unchanged (42_twi_driver.md R134). -/
def sendbProc (b : Byte) (s : State) : Failure × State :=
  onSuccess (fun t => moveTo .dataTransferring t.dir t) (primitive (.tx b) s)

/-- The end of a command whose body returns a failure and no result. -/
def runProc (proc : State → Failure × State) (s : State) : State :=
  match proc s with
  | (f, t) => finish f none t

/-- The body of TW.RECVB after its precondition: on success the byte is read from the data register, once, after the
status matched; on failure `TWDAT` is not read and no byte is delivered (42_twi_driver.md R136). -/
def receiveByte (ack : Bool) (s : State) : State :=
  match primitive (.rx ack) s with
  | (.none, t) =>
    match memRead t.cfg.twdatAddr t with
    | (b, u) => finish .none (some (zext64 b)) (moveTo .dataTransferring u.dir u)
  | (f, t) => finish f none t

/-! ## The commands -/

/-- TW.WAIT (42_twi_driver.md R126). -/
def execTwWait (s : State) : Host.Outcome State Fault Refusal := skippable (runProc waitUntilReady) s

/-- TW.START (42_twi_driver.md R127). -/
def execTwStart (s : State) : Host.Outcome State Fault Refusal := skippable (runProc startProc) s

/-- TW.RSTART (42_twi_driver.md R128). -/
def execTwRstart (s : State) : Host.Outcome State Fault Refusal :=
  skippable (fun s => require (midTransaction s.phase) (runProc rstartProc) s) s

/-- TW.STOP (42_twi_driver.md R129). -/
def execTwStop (s : State) : Host.Outcome State Fault Refusal := skippable (runProc stopProc) s

/-- TW.SLAW (42_twi_driver.md R132). -/
def execTwSlaw (addr7 : BitVec 7) (s : State) : Host.Outcome State Fault Refusal :=
  skippable (fun s => require (s.phase == .startSent) (runProc (slawProc addr7)) s) s

/-- TW.SLAR (42_twi_driver.md R133). -/
def execTwSlar (addr7 : BitVec 7) (s : State) : Host.Outcome State Fault Refusal :=
  skippable (fun s => require (s.phase == .startSent) (runProc (slarProc addr7)) s) s

/-- TW.SENDB (42_twi_driver.md R134). -/
def execTwSendb (imm8 : Byte) (s : State) : Host.Outcome State Fault Refusal :=
  skippable (fun s => require (afterAddress s.phase) (runProc (sendbProc imm8)) s) s

/-- TW.RECVB (42_twi_driver.md R136). -/
def execTwRecvb (ack : Bool) (s : State) : Host.Outcome State Fault Refusal :=
  skippable (fun s => require (afterAddress s.phase && s.dir == .dirR) (receiveByte ack) s) s

/-- The body of TW.CFGM: the bit rate is written, or the clock is out of range (42_twi_driver.md R140). -/
def configureMaster (clockHz : Nat) (s : State) : State :=
  match bitRate clockHz with
  | some r => respond (.ofFailure .none none) (memWrite s.cfg.twbrAddr r s)
  | none => raiseFault .configRange s

/-- TW.CFGM (42_twi_driver.md R140): never skipped (43_twi_transaction.md R151); `clockHz = opA[63:0]`. -/
def execTwCfgm (s : State) : Host.Outcome State Fault Refusal :=
  command (fun s => configureMaster s.opA.toNat s) s

end Sys2Proof.Machine
end

