-- ==== Sys2Proof/Machine/Transaction.lean ====
section
/-! DEFINITION. The transaction commands (43_twi_transaction.md R150 to R155). -/

namespace Sys2Proof.Machine

/-- The body of TXN.BEGIN after its precondition: the transaction is opened, the start condition is issued, and its
failure is the first failure (43_twi_transaction.md R150). -/
def beginTxn (s : State) : State :=
  match startProc (setTxn true false .none s) with
  | (f, t) => respond (.ofFailure f none) (setTxn true false f t)

/-- TXN.BEGIN (43_twi_transaction.md R150). Not skippable (R151). -/
def execTxnBegin (s : State) : Host.Outcome State Fault Refusal :=
  command (fun s => require (!s.txnOpen) beginTxn s) s

/-- The failure TXN.END returns: "the first failure of the transaction, or, if there was none, the stop's own
`Timeout`" (43_twi_transaction.md R153). -/
def firstOf (first later : Failure) : Failure := if first != .none then first else later

/-- The body of TXN.END after its precondition: the stop is unconditional, the transaction is closed, the first
failure is returned (43_twi_transaction.md R153). -/
def endTxn (s : State) : State :=
  match stopProc s with
  | (f, t) => respond (.ofFailure (firstOf s.firstFail f) none) (setTxn false false .none t)

/-- TXN.END (43_twi_transaction.md R153): "It is never skipped". -/
def execTxnEnd (s : State) : Host.Outcome State Fault Refusal :=
  command (fun s => require s.txnOpen endTxn s) s

/-- The precondition of TXN.XMIT and TXN.RECV (43_twi_transaction.md R154, R155). -/
def State.linkLegal (s : State) : Bool :=
  s.txnOpen && (if s.txnStarted then midTransaction s.phase else s.phase == .startSent)

/-- The common body of TXN.XMIT and TXN.RECV: a repeated start if the flag is set, else the flag is set; then the
address phase, unless the repeated start failed (43_twi_transaction.md R154, R155). -/
def linkProc (address : State → Failure × State) (s : State) : Failure × State :=
  if s.txnStarted then
    match rstartProc s with
    | (.none, t) => address t
    | (f, t) => (f, t)
  else address (setTxn s.txnOpen true s.firstFail s)

/-- TXN.XMIT (43_twi_transaction.md R154). -/
def execTxnXmit (addr7 : BitVec 7) (s : State) : Host.Outcome State Fault Refusal :=
  skippable (fun s => require s.linkLegal (runProc (linkProc (slawProc addr7))) s) s

/-- TXN.RECV (43_twi_transaction.md R155). -/
def execTxnRecv (addr7 : BitVec 7) (s : State) : Host.Outcome State Fault Refusal :=
  skippable (fun s => require s.linkLegal (runProc (linkProc (slarProc addr7))) s) s

end Sys2Proof.Machine
end

