-- ==== Sys2Proof/Machine/Dispatch.lean ====
section
/-! DEFINITION. The dispatch: one arm per constructor of Instr. -/

namespace Sys2Proof.Machine

def exec (i : Instr) (s : State) : Host.Outcome State Fault Refusal :=
  match i with
  | .bitmask w lo hi => Sys2Proof.Machine.execBitmask w lo hi s
  | .hasbit w lo => Sys2Proof.Machine.execHasbit w lo s
  | .getbit w lo => Sys2Proof.Machine.execGetbit w lo s
  | .getbits w lo hi => Sys2Proof.Machine.execGetbits w lo hi s
  | .getenum w hasdef etab lo hi => Sys2Proof.Machine.execGetenum w hasdef etab lo hi s
  | .setbit w lo => Sys2Proof.Machine.execSetbit w lo s
  | .setbits w lo hi => Sys2Proof.Machine.execSetbits w lo hi s
  | .togbit w lo => Sys2Proof.Machine.execTogbit w lo s
  | .regRd addr => Sys2Proof.Machine.execRegRd addr s
  | .regWr addr => Sys2Proof.Machine.execRegWr addr s
  | .twWait => Sys2Proof.Machine.execTwWait s
  | .twStart => Sys2Proof.Machine.execTwStart s
  | .twRstart => Sys2Proof.Machine.execTwRstart s
  | .twStop => Sys2Proof.Machine.execTwStop s
  | .twSlaw addr7 => Sys2Proof.Machine.execTwSlaw addr7 s
  | .twSlar addr7 => Sys2Proof.Machine.execTwSlar addr7 s
  | .twSendb imm8 => Sys2Proof.Machine.execTwSendb imm8 s
  | .twRecvb ack => Sys2Proof.Machine.execTwRecvb ack s
  | .twCfgm => Sys2Proof.Machine.execTwCfgm s
  | .txnBegin => Sys2Proof.Machine.execTxnBegin s
  | .txnEnd => Sys2Proof.Machine.execTxnEnd s
  | .txnXmit addr7 => Sys2Proof.Machine.execTxnXmit addr7 s
  | .txnRecv addr7 => Sys2Proof.Machine.execTxnRecv addr7 s

end Sys2Proof.Machine
end

