-- ==== Sys2Proof/Machine/CommandPort.lean ====
section
/-! DEFINITION. The command port: a presented word is decoded and executed or rejected (60_exceptions.md R198), and the
host's question about one word. -/

namespace Sys2Proof.Machine

/-- A word on the command port: decoded and executed, or rejected as illegal (30_encoding.md R79, R80). -/
def runWord (w : CmdWord) (s : State) : Host.Outcome State Fault Refusal :=
  match decode w with
  | .ok i => exec i s
  | .error _ => rejectWord s

/-- One command, presented and executed to completion (10_state.md R20). -/
def runCommand (c : Command) (s : State) : Host.Outcome State Fault Refusal := runWord c.word (present c s)

/-- What the block does with the host's next input (10_state.md R20, 70_reset_and_hazards.md R210, R211): with none it
"waits for the first command" and nothing changes (log 7). -/
def takeInput (s : State) : Host.Outcome State Fault Refusal :=
  match s.inputs with
  | [] => .next s
  | .reset :: rest => .next (resetEngine (withInputs rest s))
  | .command c :: rest => runCommand c (withInputs rest s)

/-- The word as the next command the host presents, in the place of the one that stood there, with the latches as
they are (log 7). -/
def placeWord (w : CmdWord) (s : State) : State :=
  withInputs (.command ⟨w, some s.opA, some s.opB⟩ :: s.inputs.drop 1) s

end Sys2Proof.Machine
end

