-- ==== Sys2Proof/Machine/Step.lean ====
section
/-! DEFINITION. One step: the block takes the host's next input. -/

namespace Sys2Proof.Machine

/-- One step of the block (10_state.md R20): one command executed to completion, or a reset, or a wait. -/
def step (s : State) : Host.Outcome State Fault Refusal := takeInput s

/-- The state with one command word, its bits above `nbits` being 0, presented next. The block fetches nothing
(10_state.md R29), so this stands for the host's presenting it (log 7). -/
def State.withFetchWord (s : State) (nbits w : Nat) : State := placeWord (BitVec.ofNat 32 (w % 2 ^ nbits)) s

end Sys2Proof.Machine
end

