-- ==== Sys2Proof/Machine/Pseudo.lean ====
section
/-! DEFINITION. The pseudo-instructions of 30_encoding.md R86 and what the host makes of their responses:
43_twi_transaction.md R156 to R168, 44_twi_slave_node.md R181, 41_register_access.md R113. They add no word, no state and
no access; each expands to commands before the program runs. -/

namespace Sys2Proof.Machine

/-! ## Commands as the assembler writes them -/

/-- A command that reads no latch. -/
def plain (i : Instr) : Command := ⟨encode i, none, none⟩

/-- A command given both latches. -/
def withLatches (i : Instr) (a b : Latch) : Command := ⟨encode i, some a, some b⟩

/-! ## Byte split and join (43_twi_transaction.md R162, 20_memory.md R58) -/

/-- `byte_k(v, N) = v[8(N-k)-1 : 8(N-1-k)]`: `byte_0` is the most significant byte. -/
def byteOf (v n k : Nat) : Byte := BitVec.ofNat 8 (v >>> (8 * (n - 1 - k)))

/-- `byte_0 .. byte_(N-1)`, in wire order and in ascending register order. -/
def splitBytes (v n : Nat) : List Byte := (List.range n).map (byteOf v n)

/-- `join(b_0 .. b_(N-1))`: the first byte is the most significant. -/
def joinBytes (bs : List Byte) : Nat := bs.foldl (fun acc b => acc * 256 + b.toNat) 0

/-! ## The helpers (43_twi_transaction.md R160 to R167) -/

/-- The six register helpers. `n` is the number of value bytes, `rlo` and `rhi` bound a register range. -/
inductive Helper where
  | wrreg (a : BitVec 7) (r : Byte) (n v : Nat)
  | wrrange (a : BitVec 7) (rlo rhi v : Nat)
  | rdreg (a : BitVec 7) (r : Byte) (n : Nat)
  | rdrange (a : BitVec 7) (rlo rhi : Nat)
  | rdbuf (a : BitVec 7) (rlo rhi cap : Nat)
  | wrbuf (a : BitVec 7) (rlo rhi : Nat) (bytes : List Byte)
  deriving DecidableEq, Repr

/-- A write as one complete transaction: the register byte, then the value bytes (R160). -/
def writeExpansion (a : BitVec 7) (r : Byte) (bytes : List Byte) : List Command :=
  [plain .txnBegin, plain (.txnXmit a), plain (.twSendb r)] ++ bytes.map (fun b => plain (.twSendb b)) ++
    [plain .txnEnd]

/-- A read as one complete transaction: the register byte, a repeated start, `n` receives of which only the last is
NACKed (R163). -/
def readExpansion (a : BitVec 7) (r : Byte) (n : Nat) : List Command :=
  [plain .txnBegin, plain (.txnXmit a), plain (.twSendb r), plain (.txnRecv a)] ++
    List.replicate (n - 1) (plain (.twRecvb true)) ++ [plain (.twRecvb false), plain .txnEnd]

/-- "The assembler rejects `rlo > rhi`, `rhi > 255`" (R161). R161 says so of WRRANGE alone; DESIGN CHOICE (log 18): the
model rejects such a range of RDRANGE, RDBUF and WRBUF too, of which R164, R166 and R167 do not speak. -/
def rangeLegal (rlo rhi : Nat) : Bool := decide (rlo ≤ rhi) && decide (rhi ≤ 255)

/-- The expansion of a helper; none where the assembler rejects it (R160, R161, R167; DESIGN CHOICE, log 18: also
`n = 0` of a read, and a range of RDRANGE, RDBUF or WRBUF that is reversed or ends above 255). -/
def Helper.expand : Helper → Option (List Command)
  | .wrreg a r n v => if n = 0 ∨ 2 ^ (8 * n) ≤ v then none else some (writeExpansion a r (splitBytes v n))
  | .wrrange a rlo rhi v =>
    if rangeLegal rlo rhi = true ∧ v < 2 ^ (8 * (rhi - rlo + 1)) then
      some (writeExpansion a (BitVec.ofNat 8 rlo) (splitBytes v (rhi - rlo + 1)))
    else none
  | .rdreg a r n => if n = 0 then none else some (readExpansion a r n)
  | .rdrange a rlo rhi =>
    if rangeLegal rlo rhi then some (readExpansion a (BitVec.ofNat 8 rlo) (rhi - rlo + 1)) else none
  | .rdbuf a rlo rhi _ =>
    if rangeLegal rlo rhi then some (readExpansion a (BitVec.ofNat 8 rlo) (rhi - rlo + 1)) else none
  | .wrbuf a rlo rhi bytes =>
    if rangeLegal rlo rhi = true ∧ rhi - rlo + 1 ≤ bytes.length then
      some (writeExpansion a (BitVec.ofNat 8 rlo) (bytes.take (rhi - rlo + 1)))
    else none

/-- The six node forms (44_twi_slave_node.md R181): a helper without its address. -/
inductive NodeHelper where
  | wrreg (r : Byte) (n v : Nat)
  | wrrange (rlo rhi v : Nat)
  | rdreg (r : Byte) (n : Nat)
  | rdrange (rlo rhi : Nat)
  | rdbuf (rlo rhi cap : Nat)
  | wrbuf (rlo rhi : Nat) (bytes : List Byte)
  deriving DecidableEq, Repr

/-- "Each node pseudo-instruction is the pseudo-instruction of the same name with `a` supplied" (R181). -/
def NodeHelper.bind (a : BitVec 7) : NodeHelper → Helper
  | .wrreg r n v => .wrreg a r n v
  | .wrrange rlo rhi v => .wrrange a rlo rhi v
  | .rdreg r n => .rdreg a r n
  | .rdrange rlo rhi => .rdrange a rlo rhi
  | .rdbuf rlo rhi cap => .rdbuf a rlo rhi cap
  | .wrbuf rlo rhi bytes => .wrbuf a rlo rhi bytes

/-! ## Programs of statements -/

/-- What a read-modify-write does to the byte it has read: SETBITS, or, for "the single-bit forms", "SETBIT or TOGBIT in
the middle" (41_register_access.md R113). -/
inductive Edit where
  | setbits (lo hi : Nat) (x : Latch)
  | setbit (i : Nat) (x : Latch)
  | togbit (i : Nat)
  deriving DecidableEq, Repr

/-- The middle command of a read-modify-write, with `opA` the byte read (R113). -/
def Edit.command (v : Latch) : Edit → Command
  | .setbits lo hi x => withLatches (.setbits .w8 lo hi) v x
  | .setbit i x => withLatches (.setbit .w8 i) v x
  | .togbit i => ⟨encode (.togbit .w8 i), some v, none⟩

/-- A statement that may stand anywhere: a command, or REG.RMW (41_register_access.md R113). -/
inductive Simple where
  | command (c : Command)
  | rmw (addr : Addr) (e : Edit)
  deriving DecidableEq, Repr

/-- A statement that opens no block. -/
inductive Stmt where
  | simple (s : Simple)
  | helper (h : Helper)
  | node (a : BitVec 7)
  | nodeHelper (h : NodeHelper)
  deriving DecidableEq, Repr

/-- What may stand before a body in braces (30_encoding.md R86). -/
inductive Block where
  | txn
  | xmit (a : BitVec 7)
  | recv (a : BitVec 7)
  deriving DecidableEq, Repr

/-- The command a block begins with: TXN.BEGIN (43_twi_transaction.md R156), TXN.XMIT or TXN.RECV (R157). -/
def Block.opening : Block → Command
  | .txn => plain .txnBegin
  | .xmit a => plain (.txnXmit a)
  | .recv a => plain (.txnRecv a)

/-- The commands after a block's body: TXN.END (R156), and none after XMIT and RECV (R157). -/
def Block.closing : Block → List Command
  | .txn => [plain .txnEnd]
  | .xmit _ => []
  | .recv _ => []

/-- A program, or the body of a block: statements and blocks in order. DESIGN CHOICE (log 17): a block may stand in the
body of any block. R157 asks of XMIT and RECV only that they stand inside `TXN`, and no rule limits where a TXN stands;
TXN.BEGIN inside an open transaction is rejected when it runs (43_twi_transaction.md R150), not by the assembler. -/
inductive Program where
  | done
  | stmt (s : Stmt) (rest : Program)
  | block (b : Block) (body rest : Program)
  deriving DecidableEq, Repr

/-- One program after another. -/
def Program.append : Program → Program → Program
  | .done, q => q
  | .stmt s rest, q => .stmt s (rest.append q)
  | .block b body rest, q => .block b body (rest.append q)

/-- What a helper expands to in a place: "the assembler therefore rejects a helper written inside `TXN`"
(43_twi_transaction.md R168). -/
def Helper.expandIn (inTxn : Bool) (h : Helper) : Option (List Simple) :=
  if inTxn then none else h.expand.map (List.map Simple.command)

/-- What a statement expands to, and the address bound after it (44_twi_slave_node.md R181). A node form is its equal
form, and before every NODE it is rejected. DESIGN CHOICE (log 17): NODE may stand inside `TXN` too, since it "generates
no command" and R181 does not limit its place; R168 rejects helpers, and with them their node forms. -/
def Stmt.expand (inTxn : Bool) (node : Option (BitVec 7)) : Stmt → Option (List Simple × Option (BitVec 7))
  | .simple s => some ([s], node)
  | .helper h => (h.expandIn inTxn).map (fun cs => (cs, node))
  | .node a => some ([], some a)
  | .nodeHelper h =>
    match node with
    | none => none
    | some a => ((h.bind a).expandIn inTxn).map (fun cs => (cs, node))

/-- The expansion of a program, and the address bound after it; none where the assembler rejects a statement or the place
of a block. XMIT and RECV "may appear only inside `TXN`" (43_twi_transaction.md R157). -/
def Program.expand : Program → Bool → Option (BitVec 7) → Option (List Simple × Option (BitVec 7))
  | .done, _, node => some ([], node)
  | .stmt s rest, inTxn, node =>
    match s.expand inTxn node with
    | none => none
    | some (cs, node) => (rest.expand inTxn node).map (fun r => (cs ++ r.1, r.2))
  | .block b body rest, inTxn, node =>
    if b = .txn ∨ inTxn = true then
      match body.expand true node with
      | none => none
      | some (cs, node) =>
        (rest.expand inTxn node).map
          (fun r => (.command b.opening :: cs ++ b.closing.map Simple.command ++ r.1, r.2))
    else none

/-! ## The host's side (30_encoding.md R85) -/

/-- The host presents one command and reads the response. The engine always answers; the other arms only make the
function total. -/
def issue (c : Command) (s : State) : Response × State :=
  match runCommand c s with
  | .next t => (t.response, t)
  | .fault _ => (s.response, s)
  | .refused _ => (s.response, s)

/-- The host presents a list of commands: the responses and the final state (30_encoding.md R85). -/
def issueAll : List Command → State → List Response × State
  | [], s => ([], s)
  | c :: cs, s =>
    match issue c s with
    | (r, t) =>
      match issueAll cs t with
      | (rs, u) => (r :: rs, u)

/-- A read-modify-write: REG.RD, the command in the middle with `opA` the byte read, REG.WR with `opA` its result. "If
the SETBITS faults (`BitRange`) the expansion stops there" (41_register_access.md R113), and so it does with SETBIT and
TOGBIT; so does a REG.RD that delivers nothing (DESIGN CHOICE, log 18). -/
def issueEdit (addr : Addr) (e : Edit) (s : State) : List Response × State :=
  match issue (plain (.regRd addr)) s with
  | (r1, s1) =>
    match r1.result with
    | none => ([r1], s1)
    | some v =>
      match issue (e.command v) s1 with
      | (r2, s2) =>
        match r2.result with
        | none => ([r1, r2], s2)
        | some v' =>
          match issue ⟨encode (.regWr addr), some v', none⟩ s2 with
          | (r3, s3) => ([r1, r2, r3], s3)

/-- `REG.RMW addr, [lo,hi], x` (R113). -/
def issueRmw (addr : Addr) (lo hi : Nat) (x : Latch) (s : State) : List Response × State :=
  issueEdit addr (.setbits lo hi x) s

/-- A statement run by the host. -/
def runSimple : Simple → State → List Response × State
  | .command c, s => match issue c s with | (r, t) => ([r], t)
  | .rmw addr e, s => issueEdit addr e s

/-- A program run by the host from `cp = 0`: "Its result is the list of responses, the trace ... and the final engine
state" (30_encoding.md R85). -/
def runSimples : List Simple → State → List Response × State
  | [], s => ([], s)
  | p :: ps, s =>
    match runSimple p s with
    | (rs, t) =>
      match runSimples ps t with
      | (more, u) => (rs ++ more, u)

/-- A response that reports neither a fault nor a failure. -/
def Response.ok (r : Response) : Bool := r.fault == .noFault && r.failure == .none

/-- "Result: the response of TXN.END" (43_twi_transaction.md R160, R163): the last response of the expansion. -/
def helperOk (rs : List Response) : Bool :=
  match rs.getLast? with
  | some r => r.ok
  | none => false

/-- The bytes delivered by the receives of an expansion, in order. -/
def receivedBytes (rs : List Response) : List Byte := rs.filterMap (fun r => r.result.map (BitVec.setWidth 8))

/-- The value of RDREG and RDRANGE: "when it is a failure, no value" (43_twi_transaction.md R163, R164). -/
def readValue (rs : List Response) : Option Nat :=
  if helperOk rs then some (joinBytes (receivedBytes rs)) else none

/-- The buffer after RDBUF: `buf[k] <- b_k` for `k < min(N, cap)`, the rest as before; "a model gives the buffer no
value after a failed RDBUF" (43_twi_transaction.md R166). -/
def bufferAfter (buf : List Byte) (rs : List Response) : Option (List Byte) :=
  if helperOk rs then
    some ((receivedBytes rs).take buf.length ++ buf.drop (receivedBytes rs).length)
  else none

end Sys2Proof.Machine
end

