-- ==== Sys2Proof/Safety.lean ====
section
/-! DEFINITION. The terms claims use: when a command executes, what the environment answers next, the accesses a
command makes, the invariants of the block, and what counts as a safe run. -/

namespace Sys2Proof.Machine

/-! ## When a command executes (60_exceptions.md R198) -/

/-- The block answers commands other than with `Halted` (60_exceptions.md R196). -/
abbrev State.Live (s : State) : Prop := s.halted = false

/-- A skippable command executes: the block is not halted and no open transaction has failed (43_twi_transaction.md
R151). -/
abbrev State.Ready (s : State) : Prop := s.halted = false ∧ (s.txnOpen = false ∨ s.firstFail = .none)

/-- A skippable command is skipped (43_twi_transaction.md R151). -/
abbrev State.Skips (s : State) : Prop := s.halted = false ∧ s.txnOpen = true ∧ s.firstFail ≠ .none

/-- The skippable commands: "opcodes `0x40` to `0x47`, `0x52`, `0x53`" (43_twi_transaction.md R151). -/
def Skippable : Instr → Bool
  | .twWait => true
  | .twStart => true
  | .twRstart => true
  | .twStop => true
  | .twSlaw _ => true
  | .twSlar _ => true
  | .twSendb _ => true
  | .twRecvb _ => true
  | .txnXmit _ => true
  | .txnRecv _ => true
  | .bitmask _ _ _ => false
  | .hasbit _ _ => false
  | .getbit _ _ => false
  | .getbits _ _ _ => false
  | .getenum _ _ _ _ _ => false
  | .setbit _ _ => false
  | .setbits _ _ _ => false
  | .togbit _ _ => false
  | .regRd _ => false
  | .regWr _ => false
  | .twCfgm => false
  | .txnBegin => false
  | .txnEnd => false

/-- The commands that have nothing to do with `phase`, `dir` or the transaction state: the bit accessor (40_bit_accessor.md
R90), the register access commands (41_register_access.md R110) and TW.CFGM (43_twi_transaction.md R151). -/
def OffBus : Instr → Bool
  | .bitmask _ _ _ => true
  | .hasbit _ _ => true
  | .getbit _ _ => true
  | .getbits _ _ _ => true
  | .getenum _ _ _ _ _ => true
  | .setbit _ _ => true
  | .setbits _ _ _ => true
  | .togbit _ _ => true
  | .regRd _ => true
  | .regWr _ => true
  | .twCfgm => true
  | .twWait => false
  | .twStart => false
  | .twRstart => false
  | .twStop => false
  | .twSlaw _ => false
  | .twSlar _ => false
  | .twSendb _ => false
  | .twRecvb _ => false
  | .txnBegin => false
  | .txnEnd => false
  | .txnXmit _ => false
  | .txnRecv _ => false

/-! ## What the environment answers next (10_state.md R21) -/

/-- The answer to the `k`-th MemRead from this state on, counted from 0, whatever the addresses. -/
def State.upcoming (s : State) (k : Nat) : Byte := (s.answers[k]?).getD (Config.envAnswer (s.draws + k))

/-- The readiness flag of the `k`-th answer from this state on (42_twi_driver.md R121). -/
def State.readyAnswer (s : State) (k : Nat) : Bool := (s.upcoming k).getLsbD s.cfg.rdyBit.val

/-- A poll that starts here sees the readiness flag first in its `k`-th answer, within the budget (R121). -/
abbrev State.ReadyAfter (s : State) (k : Nat) : Prop :=
  k < s.cfg.pollOuter ∧ (∀ j < k, s.readyAnswer j = false) ∧ s.readyAnswer k = true

/-- A poll that starts here never sees the readiness flag: "`POLL_OUTER` answers in a row had it clear" (R121). -/
abbrev State.NeverReady (s : State) : Prop := ∀ j < s.cfg.pollOuter, s.readyAnswer j = false

/-- The status byte `v` is the expected code under the mask (42_twi_driver.md R123). -/
abbrev StatusIs (c : Config) (v expected : Byte) : Prop := v &&& c.statusMask = expected

/-! ## The accesses of a command (00_scope.md R15) -/

/-- The state after the writes `ws` and then the reads of the addresses `rs`, with everything else unchanged. -/
def State.afterAccesses (s : State) (ws : List (Addr × Byte)) (rs : List Addr) : State :=
  { s with
    mem := ws.foldl (fun m w => Memory.write m w.1.toNat w.2) s.mem
    trace := s.trace ++ ws.map (fun w => Access.write w.1 w.2) ++
      rs.zipIdx.map (fun r => Access.read r.1 (s.upcoming r.2))
    answers := s.answers.drop rs.length
    draws := s.draws + rs.length }

/-- `n` poll reads of the control register. -/
def State.polls (s : State) (n : Nat) : List Addr := List.replicate n s.cfg.twctlAddr

/-- `firstFail` after a command that executed and returned the failure `f` (43_twi_transaction.md R151). -/
def State.failRecord (s : State) (f : Failure) : Failure := if s.txnOpen then f else s.firstFail

/-- The addresses a command may read, in the configuration `c` (20_memory.md R52, 42_twi_driver.md R121, R123, R136). -/
def readsFrom (c : Config) : Instr → List Addr
  | .bitmask _ _ _ => []
  | .hasbit _ _ => []
  | .getbit _ _ => []
  | .getbits _ _ _ => []
  | .getenum _ _ _ _ _ => []
  | .setbit _ _ => []
  | .setbits _ _ _ => []
  | .togbit _ _ => []
  | .regRd a => [a]
  | .regWr _ => []
  | .twWait => [c.twctlAddr]
  | .twStart => [c.twctlAddr, c.twstatAddr]
  | .twRstart => [c.twctlAddr, c.twstatAddr]
  | .twStop => [c.twctlAddr]
  | .twSlaw _ => [c.twctlAddr, c.twstatAddr]
  | .twSlar _ => [c.twctlAddr, c.twstatAddr]
  | .twSendb _ => [c.twctlAddr, c.twstatAddr]
  | .twRecvb _ => [c.twctlAddr, c.twstatAddr, c.twdatAddr]
  | .twCfgm => []
  | .txnBegin => [c.twctlAddr, c.twstatAddr]
  | .txnEnd => [c.twctlAddr]
  | .txnXmit _ => [c.twctlAddr, c.twstatAddr]
  | .txnRecv _ => [c.twctlAddr, c.twstatAddr]

/-- The addresses a command may write (20_memory.md R52, 42_twi_driver.md R122, R124, R140). -/
def writesTo (c : Config) : Instr → List Addr
  | .bitmask _ _ _ => []
  | .hasbit _ _ => []
  | .getbit _ _ => []
  | .getbits _ _ _ => []
  | .getenum _ _ _ _ _ => []
  | .setbit _ _ => []
  | .setbits _ _ _ => []
  | .togbit _ _ => []
  | .regRd _ => []
  | .regWr a => [a]
  | .twWait => []
  | .twStart => [c.twctlAddr]
  | .twRstart => [c.twctlAddr]
  | .twStop => [c.twctlAddr]
  | .twSlaw _ => [c.twdatAddr, c.twctlAddr]
  | .twSlar _ => [c.twdatAddr, c.twctlAddr]
  | .twSendb _ => [c.twdatAddr, c.twctlAddr]
  | .twRecvb _ => [c.twctlAddr]
  | .twCfgm => [c.twbrAddr]
  | .txnBegin => [c.twctlAddr]
  | .txnEnd => [c.twctlAddr]
  | .txnXmit _ => [c.twdatAddr, c.twctlAddr]
  | .txnRecv _ => [c.twdatAddr, c.twctlAddr]

/-- An access that reads one of the addresses `rs` or writes one of the addresses `ws`. -/
def Access.Within (rs ws : List Addr) : Access → Prop
  | .read a _ => a ∈ rs
  | .write a _ => a ∈ ws

/-- A read access. -/
def Access.isRead : Access → Bool
  | .read _ _ => true
  | .write _ _ => false

/-- The byte last written to an address in a trace, starting from what was there before. -/
def lastWritten (a : Addr) : Option Byte → List Access → Option Byte
  | v, [] => v
  | v, .read _ _ :: rest => lastWritten a v rest
  | v, .write b x :: rest => lastWritten a (if b = a then some x else v) rest

/-- The accesses recorded by a trace as writes of the control register with a given bit set. -/
def controlWrites (c : Config) (bit : Fin 8) (t : List Access) : Nat :=
  t.countP (fun
    | .read _ _ => false
    | .write a v => a == c.twctlAddr && v.getLsbD bit.val)

/-! ## Answers -/

/-- The state in which a command rejected with a cause leaves the block: the cause's bit of `FLT`, bit `code - 1`, is
set, the response carries the code with every other field 0, and nothing else changes (60_exceptions.md R193, R194). -/
def State.rejected (s : State) (code : Nat) (cause : FaultCause) : State :=
  { s with flt := s.flt ||| (1#6 <<< (code - 1)), response := ⟨cause, false, .none, none⟩ }

/-- If the answer is a fault, it is precise: the response carries the cause with every other field 0, the cause's bit of
`FLT` is set, the halt is set by `EnumFatal` alone, and nothing else has changed (60_exceptions.md R193, R194). -/
def PreciseFault (s t : State) : Prop :=
  t.response.fault ≠ .noFault →
    t = { s.rejected (faultCode t.response.fault).toNat t.response.fault with
      halted := s.halted || decide (t.response.fault = .enumFatal) }

/-- The response of a command that succeeded with a result, or without one (42_twi_driver.md R125,
40_bit_accessor.md R90). -/
abbrev Response.success (v : Option Latch) : Response := ⟨.noFault, false, .none, v⟩

/-- The response of a command that failed: no result (42_twi_driver.md R125). -/
abbrev Response.failed (f : Failure) : Response := ⟨.noFault, false, f, none⟩

/-- What a command that ends in one checked primitive does (42_twi_driver.md R120, R123, R125): from `base`, the state
its earlier effects leave, it makes the writes `ws`, polls, and, if the readiness flag comes, reads the status once.
The expected status moves `phase` and `dir` to `p` and `d`; any other status is returned raw; without the flag the
status register is not read. A failure leaves `phase` and `dir` and is the first failure of an open transaction
(43_twi_transaction.md R151). -/
def CheckedPrimitive (i : Instr) (s base : State) (ws : List (Addr × Byte)) (expected : Byte) (p : Phase) (d : Dir) :
    Prop :=
  (∀ k, base.ReadyAfter k → StatusIs base.cfg (base.upcoming (k + 1)) expected →
    exec i s = .next { base.afterAccesses ws (base.polls (k + 1) ++ [base.cfg.twstatAddr]) with
      phase := p, dir := d, response := .success none }) ∧
  (∀ k, base.ReadyAfter k → ¬ StatusIs base.cfg (base.upcoming (k + 1)) expected →
    exec i s = .next { base.afterAccesses ws (base.polls (k + 1) ++ [base.cfg.twstatAddr]) with
      firstFail := base.failRecord (.unexpectedStatus (base.upcoming (k + 1)))
      response := .failed (.unexpectedStatus (base.upcoming (k + 1))) }) ∧
  (base.NeverReady →
    exec i s = .next { base.afterAccesses ws (base.polls base.cfg.pollOuter) with
      firstFail := base.failRecord .timeout, response := .failed .timeout })

/-- The failure of the first response that carries one, in command order, or none. -/
def firstFailureOf (rs : List Response) : Failure :=
  match rs.find? (fun r => r.failure != .none) with
  | some r => r.failure
  | none => .none

/-! ## Invariants -/

/-- The engine state is consistent: `txnStarted` and `firstFail` are clear while no transaction is open (10_state.md R24,
R25), `dir` names a direction exactly after an address phase (R22, R23), and the block is halted exactly when the
`EnumFatal` bit of `FLT` is set (R26, 60_exceptions.md R196). -/
abbrev State.EngineOk (s : State) : Prop :=
  (s.txnOpen = false → s.txnStarted = false ∧ s.firstFail = .none) ∧
  (s.dir ≠ .dirNone ↔ (s.phase = .addressSent ∨ s.phase = .dataTransferring)) ∧
  (s.halted = true ↔ s.flt.getLsbD 0 = true)

/-- The response is one the spec allows (10_state.md R28, 60_exceptions.md R193, 43_twi_transaction.md R151): a fault
comes with every other field 0, a skipped response carries a failure, and a result comes only with success. -/
abbrev Response.Ok (r : Response) : Prop :=
  (r.fault ≠ .noFault → r.skipped = false ∧ r.failure = .none ∧ r.result = none) ∧
  (r.skipped = true → r.failure ≠ .none ∧ r.result = none) ∧
  (r.result.isSome = true → r.failure = .none)

/-- The register space is canonical and holds at each address the last byte the trace wrote there, and the answers
drawn are the reads of the trace (20_memory.md R51, R62; log 2, log 1). -/
def State.SpaceOk (s : State) : Prop :=
  Memory.wf s.mem ∧ (∀ a, s.handed a = lastWritten a none s.trace) ∧ s.draws = s.trace.countP Access.isRead

/-! ## Safe runs -/

/-- A state a run may end in with success: not halted, since "no claim of success holds of a run that reaches it"
(60_exceptions.md R196). -/
abbrev State.MayEnd (s : State) : Prop := s.halted = false

/-- A run that raised no fault: the sticky record is clear. "A model should treat a run that raises it as a failed run" is
said of `IllegalSequence` alone (70_reset_and_hazards.md R220). DESIGN CHOICE (log 22): a run that raised any other fault
is not clean either, and a run begins at the last reset. No rule speaks of a reset inside a run; since the reset input
clears `FLT`, what raised a fault before a reset does not count against what follows it. -/
abbrev State.CleanRun (s : State) : Prop := s.flt = 0

end Sys2Proof.Machine
end

