-- ==== Sys2Proof/Certificates/Slice0/Obligations.lean ====
section
/-! DEFINITION. The statements for the provers. Each docstring names the rule of the spec it formalises. -/

open Sys2Proof Sys2Proof.Machine

/-! ## Encoding (30_encoding.md) -/

/-- Decoding the word of any well-formed command gives the command back, every field at every value (R70 to R75). -/
def Obligations.DecodeOfEncodeIsTheCommand : Prop :=
  ∀ i : Instr, WellFormed i = true → decode (encode i) = .ok i

/-- Each word has one meaning: the word of a decoded command is the word itself, so no bit is dropped (R70 to R75). -/
def Obligations.EncodeOfDecodeIsTheWord : Prop :=
  ∀ (w : CmdWord) (i : Instr), decode w = .ok i → encode i = w ∧ WellFormed i = true

/-- R79: the decoder is total; a word that one row selects decodes by that row, no word selects two rows, and a word
that no row selects is illegal. -/
def Obligations.DecoderFollowsTheOneSelectedRow : Prop :=
  ∀ w : CmdWord,
    (∀ r ∈ table, w &&& r.mask = r.pattern → decode w = .ok (r.build w)) ∧
    (∀ r ∈ table, ∀ r' ∈ table, w &&& r.mask = r.pattern → w &&& r'.mask = r'.pattern → r.mnemonic = r'.mnemonic) ∧
    ((∀ r ∈ table, w &&& r.mask ≠ r.pattern) → ∃ e, decode w = .error e)

/-- Words written out from the formats of R71 to R73, one of every family, and the commands they stand for; and
words with a reserved bit set or an unlisted opcode, which are illegal (R80). -/
def Obligations.WordsOfTheSpecDecodeAsTheSpecSays : Prop :=
  decode 0x10400B04 = .ok (.bitmask .w16 4 11) ∧
  decode 0x14FF3F3F = .ok (.getenum .w64 true 31 63 63) ∧
  decode 0x2000FFFF = .ok (.regRd 0xFFFF) ∧
  decode 0x4400007F = .ok (.twSlaw 0x7F) ∧
  decode 0x47000001 = .ok (.twRecvb true) ∧
  decode 0x53000050 = .ok (.txnRecv 0x50) ∧
  decode 0x10200502 = .error (.reservedBits 0x10) ∧
  decode 0x204000B9 = .error (.reservedBits 0x20) ∧
  decode 0x00000000 = .error (.unlistedOpcode 0x00)

/-! ## One step (10_state.md, 60_exceptions.md R196, R198, 70_reset_and_hazards.md R210) -/

/-- When the word the host presents decodes to a command, the step is that command on the state in which both latches
are loaded, the input is taken and `cp` is one more (R27, R29). A latch not given holds a value the statement leaves
open. -/
def Obligations.StepRunsThePresentedCommand : Prop :=
  ∀ (s : State) (c : Command) (rest : List Input) (i : Instr),
    s.inputs = .command c :: rest → decode c.word = .ok i →
    ∃ (a b : Latch) (n : Nat), (∀ v, c.opA = some v → a = v) ∧ (∀ v, c.opB = some v → b = v) ∧
      step s = exec i { s with inputs := rest, opA := a, opB := b, cp := s.cp + 1, latchDraws := n }

/-- R80: an illegal word raises `IllegalCommand` with no other effect; the latches are loaded and `cp` advances as for
every presented word (R27, R29). -/
def Obligations.IllegalWordRaisesIllegalCommand : Prop :=
  ∀ (s : State) (c : Command) (rest : List Input) (e : DecodeReject),
    s.inputs = .command c :: rest → decode c.word = .error e → s.Live →
    ∃ (a b : Latch) (n : Nat), (∀ v, c.opA = some v → a = v) ∧ (∀ v, c.opB = some v → b = v) ∧
      step s = .next (State.rejected { s with inputs := rest, opA := a, opB := b, cp := s.cp + 1, latchDraws := n }
        4 .illegalCommand)

/-- R196: while the block is halted every word, legal or not, is answered with fault `Halted`, performs no access and
changes no state but the `FLT` bit; and every command executed in a halted state is answered so. -/
def Obligations.HaltedBlockAnswersHalted : Prop :=
  (∀ (s : State) (c : Command) (rest : List Input), s.inputs = .command c :: rest → s.halted = true →
    ∃ (a b : Latch) (n : Nat), (∀ v, c.opA = some v → a = v) ∧ (∀ v, c.opB = some v → b = v) ∧
      step s = .next (State.rejected { s with inputs := rest, opA := a, opB := b, cp := s.cp + 1, latchDraws := n }
        6 .halted)) ∧
  (∀ (s : State) (i : Instr), s.halted = true → exec i s = .next (s.rejected 6 .halted))

/-- R210, R211: the reset input puts every engine state element to its reset value, performs no access and leaves the
configuration, the register space and what is pending as they are. Of the latches, which R210 leaves unspecified,
nothing is said (log 4, log 8). -/
def Obligations.ResetInputRestoresTheEngine : Prop :=
  ∀ (s : State) (rest : List Input), s.inputs = .reset :: rest →
    ∃ a b : Latch, step s = .next { s with
      inputs := rest, phase := .idle, dir := .dirNone, txnOpen := false, txnStarted := false, firstFail := .none
      flt := 0, halted := false, opA := a, opB := b, response := ⟨.noFault, false, .none, none⟩, cp := 0 }

/-- R38: the engine state after reset, as the spec gives it. The last two clauses are the model's choice, not R38's: it
keeps the bytes handed to the platform and the trace in the state, and both are empty at reset (log 2, log 9). Nothing is
said of the latches, of the configuration or of the counters, which the model names (log 1, log 3, log 4, log 5). -/
def Obligations.ResetStateIsAsTheSpecGives : Prop :=
  State.reset.phase = .idle ∧ State.reset.dir = .dirNone ∧ State.reset.txnOpen = false ∧
  State.reset.txnStarted = false ∧ State.reset.firstFail = .none ∧ State.reset.flt = 0 ∧
  State.reset.halted = false ∧ State.reset.response = ⟨.noFault, false, .none, none⟩ ∧ State.reset.cp = 0 ∧
  State.reset.mem = [] ∧ State.reset.trace = []

/-- Every command terminates, and so does every reset and every wait: a step always answers a next state (R225). -/
def Obligations.EveryStepAnswers : Prop := ∀ s : State, ∃ t, step s = .next t

/-! ## Invariants of every step -/

/-- Every step keeps the engine state consistent and the response well formed (R22 to R26, R28). -/
def Obligations.EngineStateStaysConsistent : Prop :=
  ∀ s t : State, s.EngineOk ∧ s.response.Ok → step s = .next t → t.EngineOk ∧ t.response.Ok

/-- The state after reset is consistent. -/
def Obligations.EngineStateConsistentAfterReset : Prop := State.reset.EngineOk ∧ State.reset.response.Ok

/-- Every step keeps the register space canonical, equal at each address to the last byte the trace wrote there, and
the draw counter equal to the number of reads in the trace (R51, R62; log 1, log 2). -/
def Obligations.RegisterSpaceFollowsTheTrace : Prop :=
  ∀ s t : State, s.SpaceOk → step s = .next t → t.SpaceOk

/-- The register space of the state after reset is canonical and agrees with its trace, and the draw counter with its
reads. What it rests on is the model's choice, since R38 leaves the registers unspecified: nothing is listed at reset
(log 2), the trace is empty (log 9) and the draw counter starts at 0 (log 1). -/
def Obligations.RegisterSpaceCleanAfterReset : Prop := State.reset.SpaceOk

/-- No step changes the configuration (R38: "The configuration ... is not changed by reset", and no rule writes it). -/
def Obligations.ConfigurationIsConstant : Prop := ∀ s t : State, step s = .next t → t.cfg = s.cfg

/-- R29: every presented word, executed, skipped or faulted, legal or not, is taken from the host's list and advances
`cp` by exactly 1. -/
def Obligations.EveryCommandAdvancesThePositionByOne : Prop :=
  ∀ (s t : State) (c : Command) (rest : List Input), s.inputs = .command c :: rest → step s = .next t →
    t.cp = s.cp + 1 ∧ t.inputs = rest

/-! ## Rules over all commands -/

/-- R193, R194: whatever command raises a fault, and whatever word, legal or not, is answered with one, in whatever state,
the response carries the cause with every other field 0, the cause's bit of `FLT` is set, the halt is set by `EnumFatal`
alone, and nothing else changes. -/
def Obligations.FaultsArePrecise : Prop :=
  (∀ (i : Instr) (s t : State), exec i s = .next t → PreciseFault s t) ∧
  (∀ (w : CmdWord) (s t : State), runWord w s = .next t → PreciseFault s t)

/-- R26: nothing but reset clears a bit of `FLT` or the halt. -/
def Obligations.FaultRecordIsSticky : Prop :=
  ∀ s t : State, s.inputs.head? ≠ some .reset → step s = .next t →
    (∀ b, s.flt.getLsbD b = true → t.flt.getLsbD b = true) ∧ (s.halted = true → t.halted = true)

/-- Only a GETENUM without a default halts the block, and it does so with the fault `EnumFatal` (R98, R192). -/
def Obligations.OnlyEnumDecodeHalts : Prop :=
  ∀ (i : Instr) (s t : State), exec i s = .next t → s.halted = false → t.halted = true →
    (∃ w etab lo hi, i = .getenum w false etab lo hi) ∧ t.response.fault = .enumFatal

/-- R225, R51: a command only adds accesses to the trace, at most `3 + POLL_OUTER` of them, and at most twice that
for the two commands that may call two primitives. -/
def Obligations.AccessesAreAddedAndBounded : Prop :=
  ∀ (i : Instr) (s t : State), exec i s = .next t →
    ∃ l, t.trace = s.trace ++ l ∧ l.length ≤ 2 * (3 + s.cfg.pollOuter) ∧
      ((∀ a, i ≠ .txnXmit a) → (∀ a, i ≠ .txnRecv a) → l.length ≤ 3 + s.cfg.pollOuter)

/-- R52: a command reaches its own registers alone. Every access it makes reads or writes an address that the spec names
for it (the address in the word for the register commands, the TWI registers of the configuration for the TWI commands,
none for the bit accessor), and every other byte of the register space is as before. -/
def Obligations.CommandsReachOnlyTheirOwnRegisters : Prop :=
  ∀ (i : Instr) (s t : State), exec i s = .next t →
    (∃ l, t.trace = s.trace ++ l ∧ ∀ x ∈ l, x.Within (readsFrom s.cfg i) (writesTo s.cfg i)) ∧
    ∀ a, a ∉ writesTo s.cfg i → t.handed a = s.handed a

/-- R151: in an open transaction that has failed, every skippable command is skipped: no precondition check, no access,
no state change, and the response repeats the first failure. -/
def Obligations.FailedTransactionSkips : Prop :=
  ∀ (i : Instr) (s : State), Skippable i = true → s.Skips →
    exec i s = .next { s with response := ⟨.noFault, true, s.firstFail, none⟩ }

/-- R90, R110, R151: the bit accessor, the register access commands and TW.CFGM neither read nor write `phase`, `dir`
or the transaction state: with other values of these the command does the same and leaves those values. -/
def Obligations.OffBusCommandsIgnoreTheProtocolState : Prop :=
  ∀ (i : Instr) (s t : State) (p : Phase) (d : Dir) (o st : Bool) (f : Failure),
    OffBus i = true → exec i s = .next t →
    exec i { s with phase := p, dir := d, txnOpen := o, txnStarted := st, firstFail := f } =
      .next { t with phase := p, dir := d, txnOpen := o, txnStarted := st, firstFail := f }

/-- R27, R29: no command writes the latches, `cp` or the host's list, and none reads `cp`: with another `cp` it does the
same. -/
def Obligations.CommandsLeaveLatchesAndPosition : Prop :=
  ∀ (i : Instr) (s t : State) (n : Nat), exec i s = .next t →
    t.opA = s.opA ∧ t.opB = s.opB ∧ t.cp = s.cp ∧ t.inputs = s.inputs ∧
    exec i { s with cp := n } = .next { t with cp := n }

/-! ## The bit accessor (40_bit_accessor.md); `W = 8 << wsel` -/

/-- R92. BITMASK delivers the W-bit value whose bits `lo` to `hi` are 1 and whose other bits are 0; an invalid range
raises `BitRange`. Nothing else changes. -/
def Obligations.BitmaskDelivers : Prop :=
  ∀ (s : State) (w : Width) (lo hi : Nat), s.Live →
    (lo ≤ hi → hi ≤ 8 <<< w.code.toNat - 1 →
      ∃ v : Latch, exec (.bitmask w lo hi) s = .next { s with response := .success (some v) } ∧
        ∀ j, v.getLsbD j = decide (lo ≤ j ∧ j ≤ hi)) ∧
    (¬ (lo ≤ hi ∧ hi ≤ 8 <<< w.code.toNat - 1) → exec (.bitmask w lo hi) s = .next (s.rejected 2 .bitRange))

/-- R93, R94. HASBIT and GETBIT deliver 1 or 0, the bit of `opA` at the index; an index of W or more raises
`BitRange`. Nothing else changes. -/
def Obligations.HasbitAndGetbitDeliver : Prop :=
  ∀ (s : State) (w : Width) (lo : Nat), s.Live →
    (lo ≤ 8 <<< w.code.toNat - 1 →
      exec (.hasbit w lo) s = .next { s with response := .success (some (if s.opA.getLsbD lo then 1 else 0)) } ∧
      exec (.getbit w lo) s = .next { s with response := .success (some (if s.opA.getLsbD lo then 1 else 0)) }) ∧
    (¬ lo ≤ 8 <<< w.code.toNat - 1 →
      exec (.hasbit w lo) s = .next (s.rejected 2 .bitRange) ∧
      exec (.getbit w lo) s = .next (s.rejected 2 .bitRange))

/-- R95. GETBITS delivers the field `lo` to `hi` of `opA`, shifted down, zeros above it; an invalid range raises
`BitRange`. Nothing else changes. -/
def Obligations.GetbitsDelivers : Prop :=
  ∀ (s : State) (w : Width) (lo hi : Nat), s.Live →
    (lo ≤ hi → hi ≤ 8 <<< w.code.toNat - 1 →
      ∃ v : Latch, exec (.getbits w lo hi) s = .next { s with response := .success (some v) } ∧
        ∀ j, v.getLsbD j = (decide (j ≤ hi - lo) && s.opA.getLsbD (lo + j))) ∧
    (¬ (lo ≤ hi ∧ hi ≤ 8 <<< w.code.toNat - 1) → exec (.getbits w lo hi) s = .next (s.rejected 2 .bitRange))

/-- R98. GETENUM takes the field `e` of `opA`. If the table maps `e`, the case is delivered, with or without a default;
if not, the default `opB` is delivered when supplied; else the block halts with `EnumFatal`. An invalid range raises
`BitRange`. Nothing else changes. -/
def Obligations.GetenumDecodes : Prop :=
  ∀ (s : State) (w : Width) (etab lo hi : Nat), s.Live →
    (∀ e : Latch, lo ≤ hi → hi ≤ 8 <<< w.code.toNat - 1 →
      (∀ j, e.getLsbD j = (decide (j ≤ hi - lo) && s.opA.getLsbD (lo + j))) →
      (∀ (hasdef : Bool) (x : EnumEntry), s.cfg.Valid → x ∈ s.cfg.enums → x.etab = BitVec.ofNat 5 etab →
        x.pattern = e →
        exec (.getenum w hasdef etab lo hi) s = .next { s with response := .success (some x.case) }) ∧
      ((∀ x ∈ s.cfg.enums, x.etab = BitVec.ofNat 5 etab → x.pattern ≠ e) →
        exec (.getenum w true etab lo hi) s = .next { s with response := .success (some s.opB) } ∧
        exec (.getenum w false etab lo hi) s = .next { s.rejected 1 .enumFatal with halted := true })) ∧
    (∀ hasdef : Bool, ¬ (lo ≤ hi ∧ hi ≤ 8 <<< w.code.toNat - 1) →
      exec (.getenum w hasdef etab lo hi) s = .next (s.rejected 2 .bitRange))

/-- R96. SETBIT delivers the low W bits of `opA` with bit `lo` replaced by bit 0 of `opB`; an index of W or more raises
`BitRange`. Nothing else changes. -/
def Obligations.SetbitDelivers : Prop :=
  ∀ (s : State) (w : Width) (lo : Nat), s.Live →
    (lo ≤ 8 <<< w.code.toNat - 1 →
      ∃ v : Latch, exec (.setbit w lo) s = .next { s with response := .success (some v) } ∧
        ∀ j, v.getLsbD j =
          if j = lo then s.opB.getLsbD 0 else decide (j < 8 <<< w.code.toNat) && s.opA.getLsbD j) ∧
    (¬ lo ≤ 8 <<< w.code.toNat - 1 → exec (.setbit w lo) s = .next (s.rejected 2 .bitRange))

/-- R97. SETBITS delivers the low W bits of `opA` with bits `lo` to `hi` replaced by the low bits of `opB`, whose higher
bits are discarded; an invalid range raises `BitRange`. Nothing else changes. -/
def Obligations.SetbitsDelivers : Prop :=
  ∀ (s : State) (w : Width) (lo hi : Nat), s.Live →
    (lo ≤ hi → hi ≤ 8 <<< w.code.toNat - 1 →
      ∃ v : Latch, exec (.setbits w lo hi) s = .next { s with response := .success (some v) } ∧
        ∀ j, v.getLsbD j =
          if lo ≤ j ∧ j ≤ hi then s.opB.getLsbD (j - lo)
          else decide (j < 8 <<< w.code.toNat) && s.opA.getLsbD j) ∧
    (¬ (lo ≤ hi ∧ hi ≤ 8 <<< w.code.toNat - 1) → exec (.setbits w lo hi) s = .next (s.rejected 2 .bitRange))

/-- R99. TOGBIT delivers the low W bits of `opA` with bit `lo` inverted; an index of W or more raises `BitRange`.
Nothing else changes. -/
def Obligations.TogbitDelivers : Prop :=
  ∀ (s : State) (w : Width) (lo : Nat), s.Live →
    (lo ≤ 8 <<< w.code.toNat - 1 →
      ∃ v : Latch, exec (.togbit w lo) s = .next { s with response := .success (some v) } ∧
        ∀ j, v.getLsbD j =
          if j = lo then !s.opA.getLsbD j else decide (j < 8 <<< w.code.toNat) && s.opA.getLsbD j) ∧
    (¬ lo ≤ 8 <<< w.code.toNat - 1 → exec (.togbit w lo) s = .next (s.rejected 2 .bitRange))

/-- R91. The out-of-range policy is uniform: every command of the bit accessor answers an invalid index or range with
`BitRange`, delivers nothing and changes nothing but the `FLT` bit and the response; and it answers no valid index or
range so. -/
def Obligations.OutOfRangePolicyIsUniform : Prop :=
  ∀ (s : State) (w : Width) (lo hi : Nat) (hasdef : Bool) (etab : Nat), s.Live →
    (8 <<< w.code.toNat - 1 < lo →
      ∀ i ∈ [Instr.hasbit w lo, .getbit w lo, .setbit w lo, .togbit w lo],
        exec i s = .next (s.rejected 2 .bitRange)) ∧
    (hi < lo ∨ 8 <<< w.code.toNat - 1 < hi →
      ∀ i ∈ [Instr.bitmask w lo hi, .getbits w lo hi, .setbits w lo hi, .getenum w hasdef etab lo hi],
        exec i s = .next (s.rejected 2 .bitRange)) ∧
    (lo ≤ 8 <<< w.code.toNat - 1 →
      ∀ i ∈ [Instr.hasbit w lo, .getbit w lo, .setbit w lo, .togbit w lo], ∀ t, exec i s = .next t →
        t.response.fault ≠ .bitRange) ∧
    (lo ≤ hi → hi ≤ 8 <<< w.code.toNat - 1 →
      ∀ i ∈ [Instr.bitmask w lo hi, .getbits w lo hi, .setbits w lo hi, .getenum w hasdef etab lo hi], ∀ t,
        exec i s = .next t → t.response.fault ≠ .bitRange)

/-- R100 (2): a field read by GETBITS and written back by SETBITS leaves the Register Value unchanged, for all ranges
and all values. -/
def Obligations.WritingBackAFieldChangesNothing : Prop :=
  ∀ (s t : State) (w : Width) (lo hi : Nat) (g : Latch), s.Live → lo ≤ hi → hi ≤ 8 <<< w.code.toNat - 1 →
    exec (.getbits w lo hi) s = .next t → t.response.result = some g →
    ∃ v : Latch, exec (.setbits w lo hi) { s with opB := g } =
        .next { s with opB := g, response := .success (some v) } ∧
      ∀ j, v.getLsbD j = (decide (j < 8 <<< w.code.toNat) && s.opA.getLsbD j)

/-- R100 (4): toggling a bit twice restores the original value, for all indices in range. -/
def Obligations.TogglingTwiceRestores : Prop :=
  ∀ (s t : State) (w : Width) (lo : Nat) (r : Latch), s.Live → lo ≤ 8 <<< w.code.toNat - 1 →
    exec (.togbit w lo) s = .next t → t.response.result = some r →
    ∃ v : Latch, exec (.togbit w lo) { s with opA := r } =
        .next { s with opA := r, response := .success (some v) } ∧
      ∀ j, v.getLsbD j = (decide (j < 8 <<< w.code.toNat) && s.opA.getLsbD j)

/-! ## Register access (41_register_access.md) -/

/-- R111. REG.RD makes one read of the address and delivers the byte answered, zero-extended; nothing is written and
nothing else changes. -/
def Obligations.RegRdReadsOneByte : Prop :=
  ∀ (s : State) (a : Addr), s.Live →
    exec (.regRd a) s =
      .next { s.afterAccesses [] [a] with response := .success (some ((s.upcoming 0).setWidth 64)) }

/-- R112. REG.WR makes one write of `opA[7:0]` at the address: that byte of the register space is the one handed to
the platform, every other address is as before, the trace has the one write more, and nothing else changes. -/
def Obligations.RegWrWritesOneByte : Prop :=
  ∀ (s : State) (a : Addr), s.Live →
    ∃ m : Memory, exec (.regWr a) s =
        .next { s with mem := m, trace := s.trace ++ [.write a (s.opA.extractLsb' 0 8)], response := .success none } ∧
      Memory.read m a.toNat = some (s.opA.extractLsb' 0 8) ∧
      ∀ b : Addr, b ≠ a → Memory.read m b.toNat = Memory.read s.mem b.toNat

/-- R21: every MemRead answer is the peripheral's choice. For every byte there is an environment in which REG.RD
delivers it, at every address and whatever was written there before. -/
def Obligations.EveryAnswerIsPossible : Prop :=
  ∀ (s : State) (a : Addr) (b : Byte), s.Live →
    ∃ (answers : List Byte) (t : State), exec (.regRd a) { s with answers := answers } = .next t ∧
      t.response.result = some (b.setWidth 64) ∧ t.trace = s.trace ++ [.read a b] ∧ t.mem = s.mem

/-- R113: REG.RMW on a valid range of an 8-bit register makes one read and one write, and the byte written is the byte
read with the field replaced; on an invalid range only the read happens and the fault is `BitRange`. -/
def Obligations.RmwReadsThenWritesTheField : Prop :=
  ∀ (s : State) (a : Addr) (lo hi : Nat) (x : Latch), s.Live → lo < 64 → hi < 64 →
    (lo ≤ hi → hi ≤ 7 →
      ∃ v : Byte, (issueRmw a lo hi x s).2.trace = s.trace ++ [.read a (s.upcoming 0), .write a v] ∧
        ∀ j < 8, v.getLsbD j = if lo ≤ j ∧ j ≤ hi then x.getLsbD (j - lo) else (s.upcoming 0).getLsbD j) ∧
    (¬ (lo ≤ hi ∧ hi ≤ 7) →
      (issueRmw a lo hi x s).2.trace = s.trace ++ [.read a (s.upcoming 0)] ∧
      (issueRmw a lo hi x s).2.response.fault = .bitRange)

/-! ## The driver (42_twi_driver.md) -/

/-- R126, R121. TW.WAIT polls until the readiness flag is seen, at most `POLL_OUTER` reads, and then reports `Timeout`;
it writes nothing and changes no engine state but the recorded failure. -/
def Obligations.TwWaitPolls : Prop :=
  ∀ s : State, s.Ready →
    (∀ k, s.ReadyAfter k →
      exec .twWait s = .next { s.afterAccesses [] (s.polls (k + 1)) with response := .success none }) ∧
    (s.NeverReady →
      exec .twWait s = .next { s.afterAccesses [] (s.polls s.cfg.pollOuter) with
        firstFail := s.failRecord .timeout, response := .failed .timeout })

/-- R121: "for every `k` in `1 .. POLL_OUTER` there is a run with `k` reads that returns `None`, and there is a run with
`POLL_OUTER` reads that returns `Timeout`". -/
def Obligations.EveryPollLengthIsPossible : Prop :=
  ∀ s : State, s.Ready →
    (∀ k, 1 ≤ k → k ≤ s.cfg.pollOuter →
      ∃ (answers : List Byte) (t : State), exec .twWait { s with answers := answers } = .next t ∧
        t.response.failure = .none ∧ t.trace.length = s.trace.length + k) ∧
    (∃ (answers : List Byte) (t : State), exec .twWait { s with answers := answers } = .next t ∧
        t.response.failure = .timeout ∧ t.trace.length = s.trace.length + s.cfg.pollOuter)

/-- R127. TW.START is legal in every phase: it writes the control register with START, INT and EN, polls, and checks
for `ST_START`. -/
def Obligations.TwStartIssuesAStart : Prop :=
  ∀ s : State, s.Ready →
    CheckedPrimitive .twStart s s
      [(s.cfg.twctlAddr, (1#8 <<< s.cfg.startBit.val) ||| (1#8 <<< s.cfg.intBit.val) ||| (1#8 <<< s.cfg.enBit.val))]
      s.cfg.stStart .startSent .dirNone

/-- R128. TW.RSTART differs from TW.START in the expected code `ST_RSTART` and in its precondition: outside a
transaction in progress it raises `IllegalSequence`. -/
def Obligations.TwRstartIssuesARepeatedStart : Prop :=
  ∀ s : State, s.Ready →
    (s.phase = .startSent ∨ s.phase = .addressSent ∨ s.phase = .dataTransferring →
      CheckedPrimitive .twRstart s s
        [(s.cfg.twctlAddr,
          (1#8 <<< s.cfg.startBit.val) ||| (1#8 <<< s.cfg.intBit.val) ||| (1#8 <<< s.cfg.enBit.val))]
        s.cfg.stRstart .startSent .dirNone) ∧
    (s.phase = .idle ∨ s.phase = .stopPending → exec .twRstart s = .next (s.rejected 3 .illegalSequence))

/-- R129. TW.STOP is legal in every phase: it writes the control register with STOP, INT and EN and waits for
readiness alone; the status register is not read. `phase` is `Idle` on readiness and `StopPending` on a timeout. -/
def Obligations.TwStopIssuesAStop : Prop :=
  ∀ s : State, s.Ready →
    (∀ k, s.ReadyAfter k →
      exec .twStop s = .next { s.afterAccesses
          [(s.cfg.twctlAddr,
            (1#8 <<< s.cfg.stopBit.val) ||| (1#8 <<< s.cfg.intBit.val) ||| (1#8 <<< s.cfg.enBit.val))]
          (s.polls (k + 1)) with
        phase := .idle, dir := .dirNone, response := .success none }) ∧
    (s.NeverReady →
      exec .twStop s = .next { s.afterAccesses
          [(s.cfg.twctlAddr,
            (1#8 <<< s.cfg.stopBit.val) ||| (1#8 <<< s.cfg.intBit.val) ||| (1#8 <<< s.cfg.enBit.val))]
          (s.polls s.cfg.pollOuter) with
        phase := .stopPending, dir := .dirNone, firstFail := s.failRecord .timeout, response := .failed .timeout })

/-- R132. TW.SLAW writes the wire byte `addr7 << 1` to the data register, then INT and EN to the control register, and
checks for `ST_SLAW_ACK`; outside `StartSent` it raises `IllegalSequence`. -/
def Obligations.TwSlawSendsTheWriteAddress : Prop :=
  ∀ (s : State) (a : BitVec 7), s.Ready →
    (s.phase = .startSent →
      CheckedPrimitive (.twSlaw a) s s
        [(s.cfg.twdatAddr, a ++ 0#1), (s.cfg.twctlAddr, (1#8 <<< s.cfg.intBit.val) ||| (1#8 <<< s.cfg.enBit.val))]
        s.cfg.stSlawAck .addressSent .dirW) ∧
    (s.phase ≠ .startSent → exec (.twSlaw a) s = .next (s.rejected 3 .illegalSequence))

/-- R133. TW.SLAR writes the wire byte `addr7 << 1 | 1` to the data register, then INT and EN to the control register,
and checks for `ST_SLAR_ACK`; outside `StartSent` it raises `IllegalSequence`. -/
def Obligations.TwSlarSendsTheReadAddress : Prop :=
  ∀ (s : State) (a : BitVec 7), s.Ready →
    (s.phase = .startSent →
      CheckedPrimitive (.twSlar a) s s
        [(s.cfg.twdatAddr, a ++ 1#1), (s.cfg.twctlAddr, (1#8 <<< s.cfg.intBit.val) ||| (1#8 <<< s.cfg.enBit.val))]
        s.cfg.stSlarAck .addressSent .dirR) ∧
    (s.phase ≠ .startSent → exec (.twSlar a) s = .next (s.rejected 3 .illegalSequence))

/-- R134. TW.SENDB writes the byte to the data register, then INT and EN to the control register, and checks for
`ST_TXDATA_ACK`, in either direction; `dir` is unchanged. Before the address phase it raises `IllegalSequence`. -/
def Obligations.TwSendbSendsTheByte : Prop :=
  ∀ (s : State) (b : Byte), s.Ready →
    (s.phase = .addressSent ∨ s.phase = .dataTransferring →
      CheckedPrimitive (.twSendb b) s s
        [(s.cfg.twdatAddr, b), (s.cfg.twctlAddr, (1#8 <<< s.cfg.intBit.val) ||| (1#8 <<< s.cfg.enBit.val))]
        s.cfg.stTxdataAck .dataTransferring s.dir) ∧
    (¬ (s.phase = .addressSent ∨ s.phase = .dataTransferring) →
      exec (.twSendb b) s = .next (s.rejected 3 .illegalSequence))

/-- R136. TW.RECVB writes INT and EN, and ACKEN exactly for an acknowledging receive, polls, checks for the code of the
acknowledge given, and then reads the data register once and delivers the byte; on a failure the data register is not
read and nothing is delivered. Without an address+R phase it raises `IllegalSequence`. -/
def Obligations.TwRecvbReceivesAByte : Prop :=
  ∀ (s : State) (ack : Bool), s.Ready →
    let ws := [(s.cfg.twctlAddr, (1#8 <<< s.cfg.intBit.val) ||| (1#8 <<< s.cfg.enBit.val) |||
      (if ack then 1#8 <<< s.cfg.ackenBit.val else 0#8))]
    let code := if ack then s.cfg.stRxdataAck else s.cfg.stRxdataNack
    ((s.phase = .addressSent ∨ s.phase = .dataTransferring) ∧ s.dir = .dirR →
      (∀ k, s.ReadyAfter k → StatusIs s.cfg (s.upcoming (k + 1)) code →
        exec (.twRecvb ack) s = .next { s.afterAccesses ws
            (s.polls (k + 1) ++ [s.cfg.twstatAddr, s.cfg.twdatAddr]) with
          phase := .dataTransferring, response := .success (some ((s.upcoming (k + 2)).setWidth 64)) }) ∧
      (∀ k, s.ReadyAfter k → ¬ StatusIs s.cfg (s.upcoming (k + 1)) code →
        exec (.twRecvb ack) s = .next { s.afterAccesses ws (s.polls (k + 1) ++ [s.cfg.twstatAddr]) with
          firstFail := s.failRecord (.unexpectedStatus (s.upcoming (k + 1)))
          response := .failed (.unexpectedStatus (s.upcoming (k + 1))) }) ∧
      (s.NeverReady →
        exec (.twRecvb ack) s = .next { s.afterAccesses ws (s.polls s.cfg.pollOuter) with
          firstFail := s.failRecord .timeout, response := .failed .timeout })) ∧
    (¬ ((s.phase = .addressSent ∨ s.phase = .dataTransferring) ∧ s.dir = .dirR) →
      exec (.twRecvb ack) s = .next (s.rejected 3 .illegalSequence))

/-- R140. TW.CFGM writes `((clockHz / 1_000_000) - 16) / 2` to the bit-rate register, with one write and no read, for
clocks from 16,000,000 to 527,999,999 Hz, and raises `ConfigRange` for every other clock. -/
def Obligations.TwCfgmWritesTheBitRate : Prop :=
  ∀ s : State, s.Live →
    (16000000 ≤ s.opA.toNat → s.opA.toNat < 528000000 →
      ∃ r : Byte, r.toNat = (s.opA.toNat / 1000000 - 16) / 2 ∧
        exec .twCfgm s = .next { s.afterAccesses [(s.cfg.twbrAddr, r)] [] with response := .success none }) ∧
    (s.opA.toNat < 16000000 ∨ 528000000 ≤ s.opA.toNat → exec .twCfgm s = .next (s.rejected 5 .configRange))

/-- R131: the transitions of `phase` and `dir`. On success each command moves them as the table says; on a failure or a
fault, and when skipped, they are unchanged, except that a TW.STOP that timed out has already set `StopPending` and
`DirNone`. -/
def Obligations.PhaseTransitionsFollowTheTable : Prop :=
  ∀ (s t : State) (i : Instr) (a : BitVec 7) (b : Byte) (ack : Bool),
    i ∈ [Instr.twStart, .twRstart, .twSlaw a, .twSlar a, .twSendb b, .twRecvb ack, .twStop, .twWait, .twCfgm] →
    exec i s = .next t →
    (t.response = .success t.response.result →
      ((i = .twStart ∨ i = .twRstart) → t.phase = .startSent ∧ t.dir = .dirNone) ∧
      (i = .twSlaw a → t.phase = .addressSent ∧ t.dir = .dirW) ∧
      (i = .twSlar a → t.phase = .addressSent ∧ t.dir = .dirR) ∧
      ((i = .twSendb b ∨ i = .twRecvb ack) → t.phase = .dataTransferring ∧ t.dir = s.dir) ∧
      (i = .twStop → t.phase = .idle ∧ t.dir = .dirNone) ∧
      ((i = .twWait ∨ i = .twCfgm) → t.phase = s.phase ∧ t.dir = s.dir)) ∧
    (t.response ≠ .success t.response.result →
      (i ≠ .twStop → t.phase = s.phase ∧ t.dir = s.dir) ∧
      (i = .twStop →
        (t.response = .failed .timeout → t.phase = .stopPending ∧ t.dir = .dirNone) ∧
        (t.response ≠ .failed .timeout → t.phase = s.phase ∧ t.dir = s.dir)))

/-! ## Transactions (43_twi_transaction.md) -/

/-- R150. TXN.BEGIN opens a transaction and issues a start condition, in every phase; the start's failure is the
transaction's first failure. Inside an open transaction it raises `IllegalSequence`. -/
def Obligations.TxnBeginOpensATransaction : Prop :=
  ∀ s : State, s.Live →
    let ws := [(s.cfg.twctlAddr,
      (1#8 <<< s.cfg.startBit.val) ||| (1#8 <<< s.cfg.intBit.val) ||| (1#8 <<< s.cfg.enBit.val))]
    (s.txnOpen = false →
      (∀ k, s.ReadyAfter k → StatusIs s.cfg (s.upcoming (k + 1)) s.cfg.stStart →
        exec .txnBegin s = .next { s.afterAccesses ws (s.polls (k + 1) ++ [s.cfg.twstatAddr]) with
          phase := .startSent, dir := .dirNone, txnOpen := true, txnStarted := false, firstFail := .none
          response := .success none }) ∧
      (∀ k, s.ReadyAfter k → ¬ StatusIs s.cfg (s.upcoming (k + 1)) s.cfg.stStart →
        exec .txnBegin s = .next { s.afterAccesses ws (s.polls (k + 1) ++ [s.cfg.twstatAddr]) with
          txnOpen := true, txnStarted := false, firstFail := .unexpectedStatus (s.upcoming (k + 1))
          response := .failed (.unexpectedStatus (s.upcoming (k + 1))) }) ∧
      (s.NeverReady →
        exec .txnBegin s = .next { s.afterAccesses ws (s.polls s.cfg.pollOuter) with
          txnOpen := true, txnStarted := false, firstFail := .timeout, response := .failed .timeout })) ∧
    (s.txnOpen = true → exec .txnBegin s = .next (s.rejected 3 .illegalSequence))

/-- R153. TXN.END issues a stop condition whatever happened before, closes the transaction, and returns the first failure
of the transaction or, if there was none, the stop's own `Timeout`. With no transaction open it raises
`IllegalSequence`. -/
def Obligations.TxnEndStopsAndCloses : Prop :=
  ∀ s : State, s.Live →
    let ws := [(s.cfg.twctlAddr,
      (1#8 <<< s.cfg.stopBit.val) ||| (1#8 <<< s.cfg.intBit.val) ||| (1#8 <<< s.cfg.enBit.val))]
    (s.txnOpen = true →
      (∀ k, s.ReadyAfter k →
        exec .txnEnd s = .next { s.afterAccesses ws (s.polls (k + 1)) with
          phase := .idle, dir := .dirNone, txnOpen := false, txnStarted := false, firstFail := .none
          response := .failed s.firstFail }) ∧
      (s.NeverReady →
        exec .txnEnd s = .next { s.afterAccesses ws (s.polls s.cfg.pollOuter) with
          phase := .stopPending, dir := .dirNone, txnOpen := false, txnStarted := false, firstFail := .none
          response := .failed (if s.firstFail = .none then .timeout else s.firstFail) })) ∧
    (s.txnOpen = false → exec .txnEnd s = .next (s.rejected 3 .illegalSequence))

/-- R154. The first TXN.XMIT of a transaction sets `txnStarted` and does the address+W phase without a repeated start;
a later one issues a repeated start first and does the address phase only if that succeeds. Outside a transaction, or
in a phase that the first primitive does not accept, it raises `IllegalSequence`. -/
def Obligations.TxnXmitLinksAWrite : Prop :=
  ∀ (s : State) (a : BitVec 7), s.Ready →
    let address := [(s.cfg.twdatAddr, a ++ 0#1),
      (s.cfg.twctlAddr, (1#8 <<< s.cfg.intBit.val) ||| (1#8 <<< s.cfg.enBit.val))]
    let restart := [(s.cfg.twctlAddr,
      (1#8 <<< s.cfg.startBit.val) ||| (1#8 <<< s.cfg.intBit.val) ||| (1#8 <<< s.cfg.enBit.val))]
    let mid := s.phase = .startSent ∨ s.phase = .addressSent ∨ s.phase = .dataTransferring
    (s.txnOpen = true → s.txnStarted = false → s.phase = .startSent →
      CheckedPrimitive (.txnXmit a) s { s with txnStarted := true } address s.cfg.stSlawAck .addressSent .dirW) ∧
    (s.txnOpen = true → s.txnStarted = true → mid →
      (∀ k, s.ReadyAfter k → StatusIs s.cfg (s.upcoming (k + 1)) s.cfg.stRstart →
        CheckedPrimitive (.txnXmit a) s
          { s.afterAccesses restart (s.polls (k + 1) ++ [s.cfg.twstatAddr]) with phase := .startSent, dir := .dirNone }
          address s.cfg.stSlawAck .addressSent .dirW) ∧
      (∀ k, s.ReadyAfter k → ¬ StatusIs s.cfg (s.upcoming (k + 1)) s.cfg.stRstart →
        exec (.txnXmit a) s = .next { s.afterAccesses restart (s.polls (k + 1) ++ [s.cfg.twstatAddr]) with
          firstFail := .unexpectedStatus (s.upcoming (k + 1))
          response := .failed (.unexpectedStatus (s.upcoming (k + 1))) }) ∧
      (s.NeverReady →
        exec (.txnXmit a) s = .next { s.afterAccesses restart (s.polls s.cfg.pollOuter) with
          firstFail := .timeout, response := .failed .timeout })) ∧
    (s.txnOpen = false ∨ (s.txnStarted = true ∧ ¬ mid) ∨ (s.txnStarted = false ∧ s.phase ≠ .startSent) →
      exec (.txnXmit a) s = .next (s.rejected 3 .illegalSequence))

/-- R155. TXN.RECV is as TXN.XMIT with the address+R phase in place of the address+W phase. -/
def Obligations.TxnRecvLinksARead : Prop :=
  ∀ (s : State) (a : BitVec 7), s.Ready →
    let address := [(s.cfg.twdatAddr, a ++ 1#1),
      (s.cfg.twctlAddr, (1#8 <<< s.cfg.intBit.val) ||| (1#8 <<< s.cfg.enBit.val))]
    let restart := [(s.cfg.twctlAddr,
      (1#8 <<< s.cfg.startBit.val) ||| (1#8 <<< s.cfg.intBit.val) ||| (1#8 <<< s.cfg.enBit.val))]
    let mid := s.phase = .startSent ∨ s.phase = .addressSent ∨ s.phase = .dataTransferring
    (s.txnOpen = true → s.txnStarted = false → s.phase = .startSent →
      CheckedPrimitive (.txnRecv a) s { s with txnStarted := true } address s.cfg.stSlarAck .addressSent .dirR) ∧
    (s.txnOpen = true → s.txnStarted = true → mid →
      (∀ k, s.ReadyAfter k → StatusIs s.cfg (s.upcoming (k + 1)) s.cfg.stRstart →
        CheckedPrimitive (.txnRecv a) s
          { s.afterAccesses restart (s.polls (k + 1) ++ [s.cfg.twstatAddr]) with phase := .startSent, dir := .dirNone }
          address s.cfg.stSlarAck .addressSent .dirR) ∧
      (∀ k, s.ReadyAfter k → ¬ StatusIs s.cfg (s.upcoming (k + 1)) s.cfg.stRstart →
        exec (.txnRecv a) s = .next { s.afterAccesses restart (s.polls (k + 1) ++ [s.cfg.twstatAddr]) with
          firstFail := .unexpectedStatus (s.upcoming (k + 1))
          response := .failed (.unexpectedStatus (s.upcoming (k + 1))) }) ∧
      (s.NeverReady →
        exec (.txnRecv a) s = .next { s.afterAccesses restart (s.polls s.cfg.pollOuter) with
          firstFail := .timeout, response := .failed .timeout })) ∧
    (s.txnOpen = false ∨ (s.txnStarted = true ∧ ¬ mid) ∨ (s.txnStarted = false ∧ s.phase ≠ .startSent) →
      exec (.txnRecv a) s = .next (s.rejected 3 .illegalSequence))

/-- R156 rests on this: with the flags at distinct positions and the control register at an address of its own, only
TW.STOP, TXN.END and a raw REG.WR write the control register with the stop flag set, and an executed TW.STOP or TXN.END
does so exactly once. -/
def Obligations.StopTriggersComeFromStopAndEnd : Prop :=
  ∀ (i : Instr) (s t : State), s.cfg.Valid → s.cfg.twdatAddr ≠ s.cfg.twctlAddr → s.cfg.twbrAddr ≠ s.cfg.twctlAddr →
    exec i s = .next t →
    (i ≠ .twStop → i ≠ .txnEnd → (∀ a, i ≠ .regWr a) →
      controlWrites s.cfg s.cfg.stopBit t.trace = controlWrites s.cfg s.cfg.stopBit s.trace) ∧
    (i = .twStop → s.Ready →
      controlWrites s.cfg s.cfg.stopBit t.trace = controlWrites s.cfg s.cfg.stopBit s.trace + 1) ∧
    (i = .txnEnd → s.Live → s.txnOpen = true →
      controlWrites s.cfg s.cfg.stopBit t.trace = controlWrites s.cfg s.cfg.stopBit s.trace + 1)

/-- R156, R151, R153: in `TXN` with any body of skippable commands, whatever the environment answers, the result is the
failure of the first response that carries one, or none; and the transaction is closed. -/
def Obligations.TransactionReturnsItsFirstFailure : Prop :=
  ∀ (s : State) (body : List Instr), s.Live → s.txnOpen = false →
    (∀ i ∈ body, Skippable i = true ∧ WellFormed i = true) →
    ∃ (rs : List Response) (last : Response) (t : State),
      issueAll (plain .txnBegin :: (body.map plain ++ [plain .txnEnd])) s = (rs ++ [last], t) ∧
      rs.length = body.length + 1 ∧ last.fault = .noFault ∧ last.failure = firstFailureOf (rs ++ [last]) ∧
      t.txnOpen = false ∧ t.firstFail = .none

/-- R168: a register helper started with no transaction open never faults, whatever the environment answers, and leaves
no transaction open. -/
def Obligations.HelpersNeverFault : Prop :=
  ∀ (s : State) (h : Helper) (cs : List Command), s.Live → s.txnOpen = false → h.expand = some cs →
    (∀ r ∈ (issueAll cs s).1, r.fault = .noFault) ∧ (issueAll cs s).2.txnOpen = false

/-- R162: the bytes of a value are its 8-bit digits, most significant first; joining bytes gives the sum of each shifted
to its place; and joining the bytes of a value gives the value back. -/
def Obligations.SplitThenJoinIsTheValue : Prop :=
  (∀ n v : Nat, 1 ≤ n → v < 2 ^ (8 * n) →
    (splitBytes v n).length = n ∧ joinBytes (splitBytes v n) = v ∧
    ∀ k j, k < n → j < 8 → ((splitBytes v n).getD k 0).getLsbD j = v.testBit (8 * (n - 1 - k) + j)) ∧
  joinBytes [] = 0 ∧ ∀ (b : Byte) (bs : List Byte), joinBytes (b :: bs) = b.toNat <<< (8 * bs.length) + joinBytes bs

/-! ## The single-bit forms of REG.RMW (41_register_access.md R113) -/

/-- R113: "The same shape with SETBIT or TOGBIT in the middle gives the single-bit forms." On a valid index of an 8-bit
register each makes one read and one write, of the byte read with that bit replaced by bit 0 of `x`, or inverted; on an
invalid index only the read happens and the fault is `BitRange`. That the expansion stops there is the model's choice
(log 18): R113 says so of SETBITS alone. -/
def Obligations.SingleBitRmwChangesOneBit : Prop :=
  ∀ (s : State) (a : Addr) (i : Nat) (x : Latch), s.Live → i < 64 →
    (i ≤ 7 →
      (∃ v : Byte, (issueEdit a (.setbit i x) s).2.trace = s.trace ++ [.read a (s.upcoming 0), .write a v] ∧
        ∀ j < 8, v.getLsbD j = if j = i then x.getLsbD 0 else (s.upcoming 0).getLsbD j) ∧
      (∃ v : Byte, (issueEdit a (.togbit i) s).2.trace = s.trace ++ [.read a (s.upcoming 0), .write a v] ∧
        ∀ j < 8, v.getLsbD j = if j = i then !(s.upcoming 0).getLsbD j else (s.upcoming 0).getLsbD j)) ∧
    (7 < i →
      ∀ e ∈ [Edit.setbit i x, .togbit i],
        (issueEdit a e s).2.trace = s.trace ++ [.read a (s.upcoming 0)] ∧
        (issueEdit a e s).2.response.fault = .bitRange)
end

