-- ==== Sys2Proof/Laws/State.lean ====
section
/-! SUPPORT. One lemma per field per named update of State: what the update writes and what it leaves. -/

namespace Sys2Proof.Machine

variable (s : State)

/-! ## respond -/

@[simp] theorem respond_cfg (r : Response) : (respond r s).cfg = s.cfg := rfl
@[simp] theorem respond_phase (r : Response) : (respond r s).phase = s.phase := rfl
@[simp] theorem respond_dir (r : Response) : (respond r s).dir = s.dir := rfl
@[simp] theorem respond_txnOpen (r : Response) : (respond r s).txnOpen = s.txnOpen := rfl
@[simp] theorem respond_txnStarted (r : Response) : (respond r s).txnStarted = s.txnStarted := rfl
@[simp] theorem respond_firstFail (r : Response) : (respond r s).firstFail = s.firstFail := rfl
@[simp] theorem respond_flt (r : Response) : (respond r s).flt = s.flt := rfl
@[simp] theorem respond_halted (r : Response) : (respond r s).halted = s.halted := rfl
@[simp] theorem respond_opA (r : Response) : (respond r s).opA = s.opA := rfl
@[simp] theorem respond_opB (r : Response) : (respond r s).opB = s.opB := rfl
@[simp] theorem respond_response (r : Response) : (respond r s).response = r := rfl
@[simp] theorem respond_cp (r : Response) : (respond r s).cp = s.cp := rfl
@[simp] theorem respond_inputs (r : Response) : (respond r s).inputs = s.inputs := rfl
@[simp] theorem respond_mem (r : Response) : (respond r s).mem = s.mem := rfl
@[simp] theorem respond_trace (r : Response) : (respond r s).trace = s.trace := rfl
@[simp] theorem respond_answers (r : Response) : (respond r s).answers = s.answers := rfl
@[simp] theorem respond_draws (r : Response) : (respond r s).draws = s.draws := rfl
@[simp] theorem respond_latchDraws (r : Response) : (respond r s).latchDraws = s.latchDraws := rfl

/-! ## moveTo -/

@[simp] theorem moveTo_cfg (p : Phase) (d : Dir) : (moveTo p d s).cfg = s.cfg := rfl
@[simp] theorem moveTo_phase (p : Phase) (d : Dir) : (moveTo p d s).phase = p := rfl
@[simp] theorem moveTo_dir (p : Phase) (d : Dir) : (moveTo p d s).dir = d := rfl
@[simp] theorem moveTo_txnOpen (p : Phase) (d : Dir) : (moveTo p d s).txnOpen = s.txnOpen := rfl
@[simp] theorem moveTo_txnStarted (p : Phase) (d : Dir) : (moveTo p d s).txnStarted = s.txnStarted := rfl
@[simp] theorem moveTo_firstFail (p : Phase) (d : Dir) : (moveTo p d s).firstFail = s.firstFail := rfl
@[simp] theorem moveTo_flt (p : Phase) (d : Dir) : (moveTo p d s).flt = s.flt := rfl
@[simp] theorem moveTo_halted (p : Phase) (d : Dir) : (moveTo p d s).halted = s.halted := rfl
@[simp] theorem moveTo_opA (p : Phase) (d : Dir) : (moveTo p d s).opA = s.opA := rfl
@[simp] theorem moveTo_opB (p : Phase) (d : Dir) : (moveTo p d s).opB = s.opB := rfl
@[simp] theorem moveTo_response (p : Phase) (d : Dir) : (moveTo p d s).response = s.response := rfl
@[simp] theorem moveTo_cp (p : Phase) (d : Dir) : (moveTo p d s).cp = s.cp := rfl
@[simp] theorem moveTo_inputs (p : Phase) (d : Dir) : (moveTo p d s).inputs = s.inputs := rfl
@[simp] theorem moveTo_mem (p : Phase) (d : Dir) : (moveTo p d s).mem = s.mem := rfl
@[simp] theorem moveTo_trace (p : Phase) (d : Dir) : (moveTo p d s).trace = s.trace := rfl
@[simp] theorem moveTo_answers (p : Phase) (d : Dir) : (moveTo p d s).answers = s.answers := rfl
@[simp] theorem moveTo_draws (p : Phase) (d : Dir) : (moveTo p d s).draws = s.draws := rfl
@[simp] theorem moveTo_latchDraws (p : Phase) (d : Dir) : (moveTo p d s).latchDraws = s.latchDraws := rfl

/-! ## setTxn -/

@[simp] theorem setTxn_cfg (o st : Bool) (f : Failure) : (setTxn o st f s).cfg = s.cfg := rfl
@[simp] theorem setTxn_phase (o st : Bool) (f : Failure) : (setTxn o st f s).phase = s.phase := rfl
@[simp] theorem setTxn_dir (o st : Bool) (f : Failure) : (setTxn o st f s).dir = s.dir := rfl
@[simp] theorem setTxn_txnOpen (o st : Bool) (f : Failure) : (setTxn o st f s).txnOpen = o := rfl
@[simp] theorem setTxn_txnStarted (o st : Bool) (f : Failure) : (setTxn o st f s).txnStarted = st := rfl
@[simp] theorem setTxn_firstFail (o st : Bool) (f : Failure) : (setTxn o st f s).firstFail = f := rfl
@[simp] theorem setTxn_flt (o st : Bool) (f : Failure) : (setTxn o st f s).flt = s.flt := rfl
@[simp] theorem setTxn_halted (o st : Bool) (f : Failure) : (setTxn o st f s).halted = s.halted := rfl
@[simp] theorem setTxn_opA (o st : Bool) (f : Failure) : (setTxn o st f s).opA = s.opA := rfl
@[simp] theorem setTxn_opB (o st : Bool) (f : Failure) : (setTxn o st f s).opB = s.opB := rfl
@[simp] theorem setTxn_response (o st : Bool) (f : Failure) : (setTxn o st f s).response = s.response := rfl
@[simp] theorem setTxn_cp (o st : Bool) (f : Failure) : (setTxn o st f s).cp = s.cp := rfl
@[simp] theorem setTxn_inputs (o st : Bool) (f : Failure) : (setTxn o st f s).inputs = s.inputs := rfl
@[simp] theorem setTxn_mem (o st : Bool) (f : Failure) : (setTxn o st f s).mem = s.mem := rfl
@[simp] theorem setTxn_trace (o st : Bool) (f : Failure) : (setTxn o st f s).trace = s.trace := rfl
@[simp] theorem setTxn_answers (o st : Bool) (f : Failure) : (setTxn o st f s).answers = s.answers := rfl
@[simp] theorem setTxn_draws (o st : Bool) (f : Failure) : (setTxn o st f s).draws = s.draws := rfl
@[simp] theorem setTxn_latchDraws (o st : Bool) (f : Failure) : (setTxn o st f s).latchDraws = s.latchDraws := rfl

/-! ## withInputs -/

@[simp] theorem withInputs_cfg (is : List Input) : (withInputs is s).cfg = s.cfg := rfl
@[simp] theorem withInputs_phase (is : List Input) : (withInputs is s).phase = s.phase := rfl
@[simp] theorem withInputs_dir (is : List Input) : (withInputs is s).dir = s.dir := rfl
@[simp] theorem withInputs_txnOpen (is : List Input) : (withInputs is s).txnOpen = s.txnOpen := rfl
@[simp] theorem withInputs_txnStarted (is : List Input) : (withInputs is s).txnStarted = s.txnStarted := rfl
@[simp] theorem withInputs_firstFail (is : List Input) : (withInputs is s).firstFail = s.firstFail := rfl
@[simp] theorem withInputs_flt (is : List Input) : (withInputs is s).flt = s.flt := rfl
@[simp] theorem withInputs_halted (is : List Input) : (withInputs is s).halted = s.halted := rfl
@[simp] theorem withInputs_opA (is : List Input) : (withInputs is s).opA = s.opA := rfl
@[simp] theorem withInputs_opB (is : List Input) : (withInputs is s).opB = s.opB := rfl
@[simp] theorem withInputs_response (is : List Input) : (withInputs is s).response = s.response := rfl
@[simp] theorem withInputs_cp (is : List Input) : (withInputs is s).cp = s.cp := rfl
@[simp] theorem withInputs_inputs (is : List Input) : (withInputs is s).inputs = is := rfl
@[simp] theorem withInputs_mem (is : List Input) : (withInputs is s).mem = s.mem := rfl
@[simp] theorem withInputs_trace (is : List Input) : (withInputs is s).trace = s.trace := rfl
@[simp] theorem withInputs_answers (is : List Input) : (withInputs is s).answers = s.answers := rfl
@[simp] theorem withInputs_draws (is : List Input) : (withInputs is s).draws = s.draws := rfl
@[simp] theorem withInputs_latchDraws (is : List Input) : (withInputs is s).latchDraws = s.latchDraws := rfl

/-! ## present -/

@[simp] theorem present_cfg (c : Command) : (present c s).cfg = s.cfg := rfl
@[simp] theorem present_phase (c : Command) : (present c s).phase = s.phase := rfl
@[simp] theorem present_dir (c : Command) : (present c s).dir = s.dir := rfl
@[simp] theorem present_txnOpen (c : Command) : (present c s).txnOpen = s.txnOpen := rfl
@[simp] theorem present_txnStarted (c : Command) : (present c s).txnStarted = s.txnStarted := rfl
@[simp] theorem present_firstFail (c : Command) : (present c s).firstFail = s.firstFail := rfl
@[simp] theorem present_flt (c : Command) : (present c s).flt = s.flt := rfl
@[simp] theorem present_halted (c : Command) : (present c s).halted = s.halted := rfl
@[simp] theorem present_opA (c : Command) : (present c s).opA = latchValue c.opA s.latchDraws := rfl
@[simp] theorem present_opB (c : Command) : (present c s).opB = latchValue c.opB (s.latchDraws + 1) := rfl
@[simp] theorem present_response (c : Command) : (present c s).response = s.response := rfl
@[simp] theorem present_cp (c : Command) : (present c s).cp = s.cp + 1 := rfl
@[simp] theorem present_inputs (c : Command) : (present c s).inputs = s.inputs := rfl
@[simp] theorem present_mem (c : Command) : (present c s).mem = s.mem := rfl
@[simp] theorem present_trace (c : Command) : (present c s).trace = s.trace := rfl
@[simp] theorem present_answers (c : Command) : (present c s).answers = s.answers := rfl
@[simp] theorem present_draws (c : Command) : (present c s).draws = s.draws := rfl
@[simp] theorem present_latchDraws (c : Command) : (present c s).latchDraws = s.latchDraws + 2 := rfl

/-! ## raiseFault -/

@[simp] theorem raiseFault_cfg (c : FaultCause) : (raiseFault c s).cfg = s.cfg := rfl
@[simp] theorem raiseFault_phase (c : FaultCause) : (raiseFault c s).phase = s.phase := rfl
@[simp] theorem raiseFault_dir (c : FaultCause) : (raiseFault c s).dir = s.dir := rfl
@[simp] theorem raiseFault_txnOpen (c : FaultCause) : (raiseFault c s).txnOpen = s.txnOpen := rfl
@[simp] theorem raiseFault_txnStarted (c : FaultCause) : (raiseFault c s).txnStarted = s.txnStarted := rfl
@[simp] theorem raiseFault_firstFail (c : FaultCause) : (raiseFault c s).firstFail = s.firstFail := rfl
@[simp] theorem raiseFault_flt (c : FaultCause) : (raiseFault c s).flt = s.flt ||| faultBit c := rfl
@[simp] theorem raiseFault_halted (c : FaultCause) : (raiseFault c s).halted = (s.halted || c == .enumFatal) := rfl
@[simp] theorem raiseFault_opA (c : FaultCause) : (raiseFault c s).opA = s.opA := rfl
@[simp] theorem raiseFault_opB (c : FaultCause) : (raiseFault c s).opB = s.opB := rfl
@[simp] theorem raiseFault_response (c : FaultCause) : (raiseFault c s).response = Response.ofFault c := rfl
@[simp] theorem raiseFault_cp (c : FaultCause) : (raiseFault c s).cp = s.cp := rfl
@[simp] theorem raiseFault_inputs (c : FaultCause) : (raiseFault c s).inputs = s.inputs := rfl
@[simp] theorem raiseFault_mem (c : FaultCause) : (raiseFault c s).mem = s.mem := rfl
@[simp] theorem raiseFault_trace (c : FaultCause) : (raiseFault c s).trace = s.trace := rfl
@[simp] theorem raiseFault_answers (c : FaultCause) : (raiseFault c s).answers = s.answers := rfl
@[simp] theorem raiseFault_draws (c : FaultCause) : (raiseFault c s).draws = s.draws := rfl
@[simp] theorem raiseFault_latchDraws (c : FaultCause) : (raiseFault c s).latchDraws = s.latchDraws := rfl

/-! ## recordFailure -/

@[simp] theorem recordFailure_cfg (f : Failure) : (recordFailure f s).cfg = s.cfg := rfl
@[simp] theorem recordFailure_phase (f : Failure) : (recordFailure f s).phase = s.phase := rfl
@[simp] theorem recordFailure_dir (f : Failure) : (recordFailure f s).dir = s.dir := rfl
@[simp] theorem recordFailure_txnOpen (f : Failure) : (recordFailure f s).txnOpen = s.txnOpen := rfl
@[simp] theorem recordFailure_txnStarted (f : Failure) : (recordFailure f s).txnStarted = s.txnStarted := rfl
@[simp] theorem recordFailure_firstFail (f : Failure) :
    (recordFailure f s).firstFail = if s.txnOpen && f != .none then f else s.firstFail := rfl
@[simp] theorem recordFailure_flt (f : Failure) : (recordFailure f s).flt = s.flt := rfl
@[simp] theorem recordFailure_halted (f : Failure) : (recordFailure f s).halted = s.halted := rfl
@[simp] theorem recordFailure_opA (f : Failure) : (recordFailure f s).opA = s.opA := rfl
@[simp] theorem recordFailure_opB (f : Failure) : (recordFailure f s).opB = s.opB := rfl
@[simp] theorem recordFailure_response (f : Failure) : (recordFailure f s).response = s.response := rfl
@[simp] theorem recordFailure_cp (f : Failure) : (recordFailure f s).cp = s.cp := rfl
@[simp] theorem recordFailure_inputs (f : Failure) : (recordFailure f s).inputs = s.inputs := rfl
@[simp] theorem recordFailure_mem (f : Failure) : (recordFailure f s).mem = s.mem := rfl
@[simp] theorem recordFailure_trace (f : Failure) : (recordFailure f s).trace = s.trace := rfl
@[simp] theorem recordFailure_answers (f : Failure) : (recordFailure f s).answers = s.answers := rfl
@[simp] theorem recordFailure_draws (f : Failure) : (recordFailure f s).draws = s.draws := rfl
@[simp] theorem recordFailure_latchDraws (f : Failure) : (recordFailure f s).latchDraws = s.latchDraws := rfl

/-! ## finish -/

@[simp] theorem finish_cfg (f : Failure) (v : Option Latch) : (finish f v s).cfg = s.cfg := rfl
@[simp] theorem finish_phase (f : Failure) (v : Option Latch) : (finish f v s).phase = s.phase := rfl
@[simp] theorem finish_dir (f : Failure) (v : Option Latch) : (finish f v s).dir = s.dir := rfl
@[simp] theorem finish_txnOpen (f : Failure) (v : Option Latch) : (finish f v s).txnOpen = s.txnOpen := rfl
@[simp] theorem finish_txnStarted (f : Failure) (v : Option Latch) : (finish f v s).txnStarted = s.txnStarted := rfl
@[simp] theorem finish_firstFail (f : Failure) (v : Option Latch) :
    (finish f v s).firstFail = if s.txnOpen && f != .none then f else s.firstFail := rfl
@[simp] theorem finish_flt (f : Failure) (v : Option Latch) : (finish f v s).flt = s.flt := rfl
@[simp] theorem finish_halted (f : Failure) (v : Option Latch) : (finish f v s).halted = s.halted := rfl
@[simp] theorem finish_opA (f : Failure) (v : Option Latch) : (finish f v s).opA = s.opA := rfl
@[simp] theorem finish_opB (f : Failure) (v : Option Latch) : (finish f v s).opB = s.opB := rfl
@[simp] theorem finish_response (f : Failure) (v : Option Latch) :
    (finish f v s).response = Response.ofFailure f v := rfl
@[simp] theorem finish_cp (f : Failure) (v : Option Latch) : (finish f v s).cp = s.cp := rfl
@[simp] theorem finish_inputs (f : Failure) (v : Option Latch) : (finish f v s).inputs = s.inputs := rfl
@[simp] theorem finish_mem (f : Failure) (v : Option Latch) : (finish f v s).mem = s.mem := rfl
@[simp] theorem finish_trace (f : Failure) (v : Option Latch) : (finish f v s).trace = s.trace := rfl
@[simp] theorem finish_answers (f : Failure) (v : Option Latch) : (finish f v s).answers = s.answers := rfl
@[simp] theorem finish_draws (f : Failure) (v : Option Latch) : (finish f v s).draws = s.draws := rfl
@[simp] theorem finish_latchDraws (f : Failure) (v : Option Latch) : (finish f v s).latchDraws = s.latchDraws := rfl

/-! ## deliver -/

@[simp] theorem deliver_cfg (v : Latch) : (deliver v s).cfg = s.cfg := rfl
@[simp] theorem deliver_phase (v : Latch) : (deliver v s).phase = s.phase := rfl
@[simp] theorem deliver_dir (v : Latch) : (deliver v s).dir = s.dir := rfl
@[simp] theorem deliver_txnOpen (v : Latch) : (deliver v s).txnOpen = s.txnOpen := rfl
@[simp] theorem deliver_txnStarted (v : Latch) : (deliver v s).txnStarted = s.txnStarted := rfl
@[simp] theorem deliver_firstFail (v : Latch) : (deliver v s).firstFail = s.firstFail := rfl
@[simp] theorem deliver_flt (v : Latch) : (deliver v s).flt = s.flt := rfl
@[simp] theorem deliver_halted (v : Latch) : (deliver v s).halted = s.halted := rfl
@[simp] theorem deliver_opA (v : Latch) : (deliver v s).opA = s.opA := rfl
@[simp] theorem deliver_opB (v : Latch) : (deliver v s).opB = s.opB := rfl
@[simp] theorem deliver_response (v : Latch) : (deliver v s).response = Response.ofFailure .none (some v) := rfl
@[simp] theorem deliver_cp (v : Latch) : (deliver v s).cp = s.cp := rfl
@[simp] theorem deliver_inputs (v : Latch) : (deliver v s).inputs = s.inputs := rfl
@[simp] theorem deliver_mem (v : Latch) : (deliver v s).mem = s.mem := rfl
@[simp] theorem deliver_trace (v : Latch) : (deliver v s).trace = s.trace := rfl
@[simp] theorem deliver_answers (v : Latch) : (deliver v s).answers = s.answers := rfl
@[simp] theorem deliver_draws (v : Latch) : (deliver v s).draws = s.draws := rfl
@[simp] theorem deliver_latchDraws (v : Latch) : (deliver v s).latchDraws = s.latchDraws := rfl

/-! ## resetEngine -/

@[simp] theorem resetEngine_cfg : (resetEngine s).cfg = s.cfg := rfl
@[simp] theorem resetEngine_phase : (resetEngine s).phase = .idle := rfl
@[simp] theorem resetEngine_dir : (resetEngine s).dir = .dirNone := rfl
@[simp] theorem resetEngine_txnOpen : (resetEngine s).txnOpen = false := rfl
@[simp] theorem resetEngine_txnStarted : (resetEngine s).txnStarted = false := rfl
@[simp] theorem resetEngine_firstFail : (resetEngine s).firstFail = .none := rfl
@[simp] theorem resetEngine_flt : (resetEngine s).flt = 0 := rfl
@[simp] theorem resetEngine_halted : (resetEngine s).halted = false := rfl
@[simp] theorem resetEngine_opA : (resetEngine s).opA = 0 := rfl
@[simp] theorem resetEngine_opB : (resetEngine s).opB = 0 := rfl
@[simp] theorem resetEngine_response : (resetEngine s).response = .cleared := rfl
@[simp] theorem resetEngine_cp : (resetEngine s).cp = 0 := rfl
@[simp] theorem resetEngine_inputs : (resetEngine s).inputs = s.inputs := rfl
@[simp] theorem resetEngine_mem : (resetEngine s).mem = s.mem := rfl
@[simp] theorem resetEngine_trace : (resetEngine s).trace = s.trace := rfl
@[simp] theorem resetEngine_answers : (resetEngine s).answers = s.answers := rfl
@[simp] theorem resetEngine_draws : (resetEngine s).draws = s.draws := rfl
@[simp] theorem resetEngine_latchDraws : (resetEngine s).latchDraws = s.latchDraws := rfl

/-! ## memWrite -/

@[simp] theorem memWrite_cfg (a : Addr) (v : Byte) : (memWrite a v s).cfg = s.cfg := rfl
@[simp] theorem memWrite_phase (a : Addr) (v : Byte) : (memWrite a v s).phase = s.phase := rfl
@[simp] theorem memWrite_dir (a : Addr) (v : Byte) : (memWrite a v s).dir = s.dir := rfl
@[simp] theorem memWrite_txnOpen (a : Addr) (v : Byte) : (memWrite a v s).txnOpen = s.txnOpen := rfl
@[simp] theorem memWrite_txnStarted (a : Addr) (v : Byte) : (memWrite a v s).txnStarted = s.txnStarted := rfl
@[simp] theorem memWrite_firstFail (a : Addr) (v : Byte) : (memWrite a v s).firstFail = s.firstFail := rfl
@[simp] theorem memWrite_flt (a : Addr) (v : Byte) : (memWrite a v s).flt = s.flt := rfl
@[simp] theorem memWrite_halted (a : Addr) (v : Byte) : (memWrite a v s).halted = s.halted := rfl
@[simp] theorem memWrite_opA (a : Addr) (v : Byte) : (memWrite a v s).opA = s.opA := rfl
@[simp] theorem memWrite_opB (a : Addr) (v : Byte) : (memWrite a v s).opB = s.opB := rfl
@[simp] theorem memWrite_response (a : Addr) (v : Byte) : (memWrite a v s).response = s.response := rfl
@[simp] theorem memWrite_cp (a : Addr) (v : Byte) : (memWrite a v s).cp = s.cp := rfl
@[simp] theorem memWrite_inputs (a : Addr) (v : Byte) : (memWrite a v s).inputs = s.inputs := rfl
@[simp] theorem memWrite_mem (a : Addr) (v : Byte) : (memWrite a v s).mem = Memory.write s.mem a.toNat v := rfl
@[simp] theorem memWrite_trace (a : Addr) (v : Byte) : (memWrite a v s).trace = s.trace ++ [.write a v] := rfl
@[simp] theorem memWrite_answers (a : Addr) (v : Byte) : (memWrite a v s).answers = s.answers := rfl
@[simp] theorem memWrite_draws (a : Addr) (v : Byte) : (memWrite a v s).draws = s.draws := rfl
@[simp] theorem memWrite_latchDraws (a : Addr) (v : Byte) : (memWrite a v s).latchDraws = s.latchDraws := rfl

/-! ## memRead -/

@[simp] theorem memRead_cfg (a : Addr) : (memRead a s).2.cfg = s.cfg := rfl
@[simp] theorem memRead_phase (a : Addr) : (memRead a s).2.phase = s.phase := rfl
@[simp] theorem memRead_dir (a : Addr) : (memRead a s).2.dir = s.dir := rfl
@[simp] theorem memRead_txnOpen (a : Addr) : (memRead a s).2.txnOpen = s.txnOpen := rfl
@[simp] theorem memRead_txnStarted (a : Addr) : (memRead a s).2.txnStarted = s.txnStarted := rfl
@[simp] theorem memRead_firstFail (a : Addr) : (memRead a s).2.firstFail = s.firstFail := rfl
@[simp] theorem memRead_flt (a : Addr) : (memRead a s).2.flt = s.flt := rfl
@[simp] theorem memRead_halted (a : Addr) : (memRead a s).2.halted = s.halted := rfl
@[simp] theorem memRead_opA (a : Addr) : (memRead a s).2.opA = s.opA := rfl
@[simp] theorem memRead_opB (a : Addr) : (memRead a s).2.opB = s.opB := rfl
@[simp] theorem memRead_response (a : Addr) : (memRead a s).2.response = s.response := rfl
@[simp] theorem memRead_cp (a : Addr) : (memRead a s).2.cp = s.cp := rfl
@[simp] theorem memRead_inputs (a : Addr) : (memRead a s).2.inputs = s.inputs := rfl
@[simp] theorem memRead_mem (a : Addr) : (memRead a s).2.mem = s.mem := rfl
@[simp] theorem memRead_trace (a : Addr) : (memRead a s).2.trace = s.trace ++ [.read a s.nextAnswer] := rfl
@[simp] theorem memRead_answers (a : Addr) : (memRead a s).2.answers = s.answers.tail := rfl
@[simp] theorem memRead_draws (a : Addr) : (memRead a s).2.draws = s.draws + 1 := rfl
@[simp] theorem memRead_latchDraws (a : Addr) : (memRead a s).2.latchDraws = s.latchDraws := rfl

/-! ## afterAccesses -/

@[simp] theorem afterAccesses_cfg (ws : List (Addr × Byte)) (rs : List Addr) :
    (s.afterAccesses ws rs).cfg = s.cfg := rfl
@[simp] theorem afterAccesses_phase (ws : List (Addr × Byte)) (rs : List Addr) :
    (s.afterAccesses ws rs).phase = s.phase := rfl
@[simp] theorem afterAccesses_dir (ws : List (Addr × Byte)) (rs : List Addr) :
    (s.afterAccesses ws rs).dir = s.dir := rfl
@[simp] theorem afterAccesses_txnOpen (ws : List (Addr × Byte)) (rs : List Addr) :
    (s.afterAccesses ws rs).txnOpen = s.txnOpen := rfl
@[simp] theorem afterAccesses_txnStarted (ws : List (Addr × Byte)) (rs : List Addr) :
    (s.afterAccesses ws rs).txnStarted = s.txnStarted := rfl
@[simp] theorem afterAccesses_firstFail (ws : List (Addr × Byte)) (rs : List Addr) :
    (s.afterAccesses ws rs).firstFail = s.firstFail := rfl
@[simp] theorem afterAccesses_flt (ws : List (Addr × Byte)) (rs : List Addr) :
    (s.afterAccesses ws rs).flt = s.flt := rfl
@[simp] theorem afterAccesses_halted (ws : List (Addr × Byte)) (rs : List Addr) :
    (s.afterAccesses ws rs).halted = s.halted := rfl
@[simp] theorem afterAccesses_opA (ws : List (Addr × Byte)) (rs : List Addr) :
    (s.afterAccesses ws rs).opA = s.opA := rfl
@[simp] theorem afterAccesses_opB (ws : List (Addr × Byte)) (rs : List Addr) :
    (s.afterAccesses ws rs).opB = s.opB := rfl
@[simp] theorem afterAccesses_response (ws : List (Addr × Byte)) (rs : List Addr) :
    (s.afterAccesses ws rs).response = s.response := rfl
@[simp] theorem afterAccesses_cp (ws : List (Addr × Byte)) (rs : List Addr) : (s.afterAccesses ws rs).cp = s.cp := rfl
@[simp] theorem afterAccesses_inputs (ws : List (Addr × Byte)) (rs : List Addr) :
    (s.afterAccesses ws rs).inputs = s.inputs := rfl
@[simp] theorem afterAccesses_mem (ws : List (Addr × Byte)) (rs : List Addr) :
    (s.afterAccesses ws rs).mem = ws.foldl (fun m w => Memory.write m w.1.toNat w.2) s.mem := rfl
@[simp] theorem afterAccesses_trace (ws : List (Addr × Byte)) (rs : List Addr) :
    (s.afterAccesses ws rs).trace = s.trace ++ ws.map (fun w => Access.write w.1 w.2) ++
      rs.zipIdx.map (fun r => Access.read r.1 (s.upcoming r.2)) := rfl
@[simp] theorem afterAccesses_answers (ws : List (Addr × Byte)) (rs : List Addr) :
    (s.afterAccesses ws rs).answers = s.answers.drop rs.length := rfl
@[simp] theorem afterAccesses_draws (ws : List (Addr × Byte)) (rs : List Addr) :
    (s.afterAccesses ws rs).draws = s.draws + rs.length := rfl
@[simp] theorem afterAccesses_latchDraws (ws : List (Addr × Byte)) (rs : List Addr) :
    (s.afterAccesses ws rs).latchDraws = s.latchDraws := rfl

@[simp] theorem memRead_fst (a : Addr) : (memRead a s).1 = s.nextAnswer := rfl

end Sys2Proof.Machine
end

