-- ==== Sys2Proof/Laws/Bits.lean ====
section
/-! SUPPORT. What each operation of Operands.lean does, bit by bit (40_bit_accessor.md R92 to R99), and the range of
the bit-rate formula (42_twi_driver.md R140). -/

namespace Sys2Proof.Machine

/-! ## Widths -/

/-- `W = 8 << wsel` (30_encoding.md R71). -/
theorem widthBits_eq (w : Width) : widthBits w = 8 <<< w.code.toNat := by cases w <;> rfl

theorem widthBits_le (w : Width) : widthBits w ≤ 64 := by cases w <;> decide

theorem widthBits_pos (w : Width) : 0 < widthBits w := by cases w <;> decide

theorem operand_bit (w : Nat) (v : Latch) (j : Nat) : (operand w v).getLsbD j = (decide (j < w) && v.getLsbD j) := by
  simp [operand, BitVec.getLsbD_setWidth]

theorem zext64_bit {w : Nat} (v : BitVec w) (hw : w ≤ 64) (j : Nat) : (zext64 v).getLsbD j = v.getLsbD j := by
  simp only [zext64, BitVec.getLsbD_setWidth]
  by_cases h : j < 64
  · simp [h]
  · simp [h, BitVec.getLsbD_of_ge v j (by omega)]

/-! ## Validity -/

theorem rangeValid_iff {w lo hi : Nat} : rangeValid w lo hi = true ↔ lo ≤ hi ∧ hi ≤ w - 1 := by simp [rangeValid]

theorem rangeValid_of_not {w lo hi : Nat} (h : ¬ (lo ≤ hi ∧ hi ≤ w - 1)) : rangeValid w lo hi = false := by
  rw [← Bool.not_eq_true, rangeValid_iff]
  exact h

theorem indexValid_iff {w i : Nat} : indexValid w i = true ↔ i ≤ w - 1 := by simp [indexValid]

theorem indexValid_of_not {w i : Nat} (h : ¬ i ≤ w - 1) : indexValid w i = false := by
  rw [← Bool.not_eq_true, indexValid_iff]
  exact h

/-! ## The operations, bit by bit -/

/-- The mask has exactly the bits `lo` to `hi` (R92, R100 (1)). -/
theorem bitMask_bit {w lo hi : Nat} (j : Nat) (hw : 0 < w) (h : hi ≤ w - 1) :
    (bitMask w lo hi).getLsbD j = decide (lo ≤ j ∧ j ≤ hi) := by
  simp only [bitMask, BitVec.getLsbD_and, BitVec.getLsbD_shiftLeft, BitVec.getLsbD_ushiftRight,
    BitVec.getLsbD_allOnes]
  rw [Bool.eq_iff_iff]
  simp
  omega

theorem getLsbD_one_at (w j : Nat) : (BitVec.ofNat w 1).getLsbD j = (decide (0 < w) && decide (j = 0)) := by
  rw [BitVec.getLsbD_ofNat]
  cases j with
  | zero => simp
  | succ j => simp [Nat.testBit_succ]

/-- The single bit `1 << i` (R96, R99). -/
theorem oneBit_bit {w i : Nat} (j : Nat) (h : i < w) :
    (BitVec.ofNat w 1 <<< i).getLsbD j = decide (j = i) := by
  rw [BitVec.getLsbD_shiftLeft, getLsbD_one_at, Bool.eq_iff_iff]
  simp
  omega

theorem bitAt_bit {w : Nat} (v : BitVec w) (i j : Nat) (hw : 0 < w) :
    (bitAt v i).getLsbD j = (decide (j = 0) && v.getLsbD i) := by
  rw [bitAt, BitVec.getLsbD_and, BitVec.getLsbD_ushiftRight, getLsbD_one_at]
  by_cases h : j = 0
  · simp [h, hw]
  · simp [h]

theorem bitsAt_bit {w : Nat} (v : BitVec w) {lo hi : Nat} (j : Nat) (hw : 0 < w) (h : hi ≤ w - 1)
    (hlo : lo ≤ hi) : (bitsAt v lo hi).getLsbD j = (decide (j ≤ hi - lo) && v.getLsbD (lo + j)) := by
  rw [bitsAt, BitVec.getLsbD_ushiftRight, BitVec.getLsbD_and, bitMask_bit _ hw h, Bool.and_comm]
  congr 1
  rw [decide_eq_decide]
  omega

theorem withBit_bit {w : Nat} (v : BitVec w) {i : Nat} (b : Bool) (j : Nat) (h : i < w) :
    (withBit v i b).getLsbD j = if j = i then b else v.getLsbD j := by
  simp only [withBit, BitVec.getLsbD_or, BitVec.getLsbD_and, BitVec.getLsbD_not, oneBit_bit _ h,
    BitVec.getLsbD_shiftLeft, BitVec.getLsbD_setWidth, BitVec.getLsbD_ofBool]
  by_cases hj : j = i
  · subst hj
    simp [h]
    omega
  · by_cases hw : j < w
    · by_cases hi : j < i
      · simp [hj, hw, hi]
      · simp [hj, hw, hi, show j - i ≠ 0 by omega]
    · simp [hj, hw, BitVec.getLsbD_of_ge v j (by omega)]

theorem withBits_bit {w : Nat} (v x : BitVec w) {lo hi : Nat} (j : Nat) (hw : 0 < w) (h : hi ≤ w - 1) :
    (withBits v lo hi x).getLsbD j = if lo ≤ j ∧ j ≤ hi then x.getLsbD (j - lo) else v.getLsbD j := by
  simp only [withBits, BitVec.getLsbD_or, BitVec.getLsbD_and, BitVec.getLsbD_not, bitMask_bit _ hw h,
    BitVec.getLsbD_shiftLeft]
  by_cases hr : lo ≤ j ∧ j ≤ hi
  · simp [hr, show j < w by omega, show ¬ j < lo by omega]
  · by_cases hjw : j < w
    · simp [hr, hjw]
    · simp [hr, hjw, BitVec.getLsbD_of_ge v j (by omega)]

theorem toggledBit_bit {w : Nat} (v : BitVec w) {i : Nat} (j : Nat) (h : i < w) :
    (toggledBit v i).getLsbD j = if j = i then !v.getLsbD j else v.getLsbD j := by
  rw [toggledBit, BitVec.getLsbD_xor, oneBit_bit _ h]
  by_cases hj : j = i <;> simp [hj]

/-! ## The results the commands deliver, bit by bit, for every width -/

/-- The result of HASBIT and GETBIT (R93, R94). -/
theorem bitAt_result (w : Width) (v : Latch) {lo : Nat} (h : lo ≤ widthBits w - 1) :
    zext64 (bitAt (operand (widthBits w) v) lo) = if v.getLsbD lo then 1 else 0 := by
  have hw := widthBits_pos w
  apply BitVec.eq_of_getLsbD_eq
  intro j _
  rw [zext64_bit _ (widthBits_le w), bitAt_bit _ _ _ hw, operand_bit]
  by_cases hb : v.getLsbD lo <;> by_cases hj : j = 0 <;>
    simp [hb, hj, show lo < widthBits w by omega, BitVec.getLsbD_one]

/-- The result of BITMASK (R92). -/
theorem bitMask_result (w : Width) {lo hi : Nat} (h : hi ≤ widthBits w - 1) (j : Nat) :
    (zext64 (bitMask (widthBits w) lo hi)).getLsbD j = decide (lo ≤ j ∧ j ≤ hi) := by
  rw [zext64_bit _ (widthBits_le w), bitMask_bit _ (widthBits_pos w) h]

/-- The result of GETBITS, and the pattern of GETENUM (R95, R98). -/
theorem bitsAt_result (w : Width) (v : Latch) {lo hi : Nat} (h1 : lo ≤ hi) (h2 : hi ≤ widthBits w - 1) (j : Nat) :
    (zext64 (bitsAt (operand (widthBits w) v) lo hi)).getLsbD j = (decide (j ≤ hi - lo) && v.getLsbD (lo + j)) := by
  have hw := widthBits_pos w
  rw [zext64_bit _ (widthBits_le w), bitsAt_bit _ _ hw h2 h1, operand_bit]
  by_cases h : j ≤ hi - lo
  · simp [h, show lo + j < widthBits w by omega]
  · simp [h]

/-- The result of SETBIT (R96). -/
theorem withBit_result (w : Width) (v : Latch) {lo : Nat} (b : Bool) (h : lo ≤ widthBits w - 1) (j : Nat) :
    (zext64 (withBit (operand (widthBits w) v) lo b)).getLsbD j =
      if j = lo then b else decide (j < widthBits w) && v.getLsbD j := by
  have hw := widthBits_pos w
  rw [zext64_bit _ (widthBits_le w), withBit_bit _ _ _ (by omega), operand_bit]

/-- The result of SETBITS (R97). -/
theorem withBits_result (w : Width) (v x : Latch) {lo hi : Nat} (h : hi ≤ widthBits w - 1) (j : Nat) :
    (zext64 (withBits (operand (widthBits w) v) lo hi (operand (widthBits w) x))).getLsbD j =
      if lo ≤ j ∧ j ≤ hi then x.getLsbD (j - lo) else decide (j < widthBits w) && v.getLsbD j := by
  have hw := widthBits_pos w
  rw [zext64_bit _ (widthBits_le w), withBits_bit _ _ _ hw h, operand_bit, operand_bit]
  split
  · simp [show j - lo < widthBits w by omega]
  · rfl

/-- The result of TOGBIT (R99). -/
theorem toggledBit_result (w : Width) (v : Latch) {lo : Nat} (h : lo ≤ widthBits w - 1) (j : Nat) :
    (zext64 (toggledBit (operand (widthBits w) v) lo)).getLsbD j =
      if j = lo then !v.getLsbD j else decide (j < widthBits w) && v.getLsbD j := by
  have hw := widthBits_pos w
  rw [zext64_bit _ (widthBits_le w), toggledBit_bit _ _ (by omega), operand_bit]
  split
  · simp [show j < widthBits w by omega]
  · rfl

/-- The enumeration table as a map (R98): an entry of a valid table is what its pattern decodes to. -/
theorem enumCase_listed {c : Config} (hv : c.Valid) {x : EnumEntry} (hx : x ∈ c.enums) {etab : Nat}
    (ht : x.etab = BitVec.ofNat 5 etab) : enumCase c etab x.pattern = some x.case := by
  have hp := hv.2.2
  unfold enumCase
  generalize c.enums = l at hp hx
  induction l with
  | nil => simp at hx
  | cons y l ih =>
    rw [List.pairwise_cons] at hp
    rcases List.mem_cons.1 hx with rfl | hx
    · simp [ht]
    · have hy : (y.etab == BitVec.ofNat 5 etab && y.pattern == x.pattern) = false := by
        have h := hp.1 x hx
        rw [ht] at h
        simpa [imp_iff_not_or] using h
      rw [List.find?_cons, hy]
      exact ih hp.2 hx

/-- A pattern with no entry is outside the table's domain (R98). -/
theorem enumCase_unlisted {c : Config} {etab : Nat} {e : Latch}
    (h : ∀ x ∈ c.enums, x.etab = BitVec.ofNat 5 etab → x.pattern ≠ e) : enumCase c etab e = none := by
  rw [enumCase, Option.map_eq_none_iff, List.find?_eq_none]
  intro x hx
  simpa using h x hx

/-! ## The bit rate (R140) -/

/-- Inside the range the formula fits a byte. -/
theorem bitRate_inside {c : Nat} (h1 : 16000000 ≤ c) (h2 : c < 528000000) :
    bitRate c = some (BitVec.ofNat 8 ((c / 1000000 - 16) / 2)) := by
  have hq : ¬ c / 1000000 < 16 := by omega
  have hr : ¬ (c / 1000000 - 16) / 2 > 255 := by omega
  simp only [bitRate, hq, hr, if_false]

/-- Outside it there is no bit rate. -/
theorem bitRate_outside {c : Nat} (h : c < 16000000 ∨ 528000000 ≤ c) : bitRate c = none := by
  simp only [bitRate]
  split
  · rfl
  · rename_i hq
    have hr : (c / 1000000 - 16) / 2 > 255 := by omega
    simp only [hr, if_true]

/-! ## The wire byte (R77) -/

theorem slaByte_write (a : BitVec 7) : slaByte a false = a ++ 0#1 := by
  apply BitVec.eq_of_getLsbD_eq
  intro j hj
  rw [show (a ++ 0#1 : BitVec 8).getLsbD j = _ from BitVec.getLsbD_append]
  simp only [slaByte, BitVec.getLsbD_or, BitVec.getLsbD_shiftLeft, BitVec.getLsbD_setWidth, BitVec.getLsbD_ofBool]
  by_cases h : j < 1
  · simp [h]
  · simp [h, hj, show j - 1 < 8 by omega, show j ≠ 0 by omega]

theorem slaByte_read (a : BitVec 7) : slaByte a true = a ++ 1#1 := by
  apply BitVec.eq_of_getLsbD_eq
  intro j hj
  rw [show (a ++ 1#1 : BitVec 8).getLsbD j = _ from BitVec.getLsbD_append]
  simp only [slaByte, BitVec.getLsbD_or, BitVec.getLsbD_shiftLeft, BitVec.getLsbD_setWidth, BitVec.getLsbD_ofBool]
  by_cases h : j < 1
  · simp [show j = 0 by omega]
  · simp [h, hj, show j - 1 < 8 by omega, show j ≠ 0 by omega]

end Sys2Proof.Machine
end

