-- ==== Sys2Proof/Laws/Memory.lean ====
section
/-! SUPPORT. The laws of the register space: a read after a write, every other address left alone, and the canonical
form kept (20_memory.md R50, log 2). -/

namespace Sys2Proof.Machine

/-- Every address of `m` lies above `a`: nothing is listed at or below it. -/
theorem Memory.read_none_of_below {m : Memory} {a : Nat} (h : ∀ c ∈ m, a < c.1) : Memory.read m a = none := by
  cases m with
  | nil => rfl
  | cons c rest =>
    have hc := h c (by simp)
    simp [Memory.read, Nat.ne_of_lt hc, hc]

/-- Reading the address just written gives the byte written. -/
theorem Memory.read_write_same (m : Memory) (a : Nat) (v : Byte) : Memory.read (Memory.write m a v) a = some v := by
  induction m with
  | nil => simp [Memory.write, Memory.read]
  | cons c rest ih =>
    simp only [Memory.write]
    split
    · simp [Memory.read]
    · split
      · simp [Memory.read]
      · rename_i h1 h2
        simp [Memory.read, h1, h2, ih]

/-- A write leaves every other address alone. -/
theorem Memory.read_write_other (m : Memory) {a b : Nat} (v : Byte) (h : b ≠ a) :
    Memory.read (Memory.write m a v) b = Memory.read m b := by
  induction m with
  | nil => simp [Memory.write, Memory.read, h]
  | cons c rest ih =>
    simp only [Memory.write]
    split
    · rename_i h1
      subst h1
      simp [Memory.read, h]
    · split
      · rename_i h1 h2
        by_cases hb : b < a
        · simp [Memory.read, h, hb, show b ≠ c.1 by omega, show b < c.1 by omega]
        · simp [Memory.read, h, hb]
      · simp only [Memory.read]
        split
        · rfl
        · split
          · rfl
          · exact ih

/-- The addresses listed after a write: the one written and those listed before. -/
theorem Memory.mem_write {m : Memory} {a : Nat} {v : Byte} {c : Host.Cell} (h : c ∈ Memory.write m a v) :
    c = (a, v) ∨ c ∈ m := by
  induction m with
  | nil => simpa [Memory.write] using h
  | cons d rest ih =>
    simp only [Memory.write] at h
    split at h
    · rcases List.mem_cons.mp h with h | h
      · exact .inl h
      · exact .inr (List.mem_cons_of_mem _ h)
    · split at h
      · rcases List.mem_cons.mp h with h | h
        · exact .inl h
        · exact .inr h
      · rcases List.mem_cons.mp h with h | h
        · exact .inr (by simp [h])
        · rcases ih h with h | h
          · exact .inl h
          · exact .inr (List.mem_cons_of_mem _ h)

/-- A write inside the address space keeps the canonical form. -/
theorem Memory.wf_write {m : Memory} (hm : Memory.wf m) {a : Nat} (ha : a < 65536) (v : Byte) :
    Memory.wf (Memory.write m a v) := by
  refine ⟨?_, fun c hc => ?_⟩
  · have hp := hm.1
    clear hm
    induction m with
    | nil => simp [Memory.write]
    | cons d rest ih =>
      rw [List.pairwise_cons] at hp
      simp only [Memory.write]
      split
      · rename_i h
        exact List.pairwise_cons.mpr ⟨fun c hc => by simpa [h] using hp.1 c hc, hp.2⟩
      · split
        · rename_i h1 h2
          refine List.pairwise_cons.mpr ⟨fun c hc => ?_, List.pairwise_cons.mpr hp⟩
          rcases List.mem_cons.mp hc with rfl | hc
          · exact h2
          · exact Nat.lt_trans h2 (hp.1 c hc)
        · rename_i h1 h2
          refine List.pairwise_cons.mpr ⟨fun c hc => ?_, ih hp.2⟩
          rcases Memory.mem_write hc with rfl | hc
          · show d.1 < a
            omega
          · exact hp.1 c hc
  · rcases Memory.mem_write hc with rfl | hc
    · exact ha
    · exact hm.2 c hc

/-- The empty register space is canonical. -/
theorem Memory.wf_nil : Memory.wf [] := by simp [Memory.wf]

/-- MemWrite keeps the canonical form. -/
theorem memWrite_wf {s : State} (h : Memory.wf s.mem) (a : Addr) (v : Byte) : Memory.wf (memWrite a v s).mem :=
  Memory.wf_write h a.isLt v

/-- MemWrite hands the byte to its own address. -/
theorem memWrite_handed_same (s : State) (a : Addr) (v : Byte) : (memWrite a v s).handed a = some v :=
  Memory.read_write_same _ _ _

/-- MemWrite leaves every other address alone. -/
theorem memWrite_handed_other (s : State) {a b : Addr} (v : Byte) (h : b ≠ a) :
    (memWrite a v s).handed b = s.handed b :=
  Memory.read_write_other _ _ (fun e => h (BitVec.eq_of_toNat_eq e))

end Sys2Proof.Machine
end

