-- ==== Sys2Proof/Laws/Driver.lean ====
section
/-! SUPPORT. Once for each procedure of the driver, everything it can do: the accesses it makes and the failure it
returns, in terms of what the environment answers next (42_twi_driver.md R120 to R129). -/

namespace Sys2Proof.Machine

/-! ## Accesses compose -/

theorem nextAnswer_eq_upcoming (s : State) : s.nextAnswer = s.upcoming 0 := by
  cases h : s.answers <;> simp [State.nextAnswer, State.upcoming, h]

@[simp] theorem upcoming_moveTo (p : Phase) (d : Dir) (s : State) (k : Nat) :
    (moveTo p d s).upcoming k = s.upcoming k := rfl

@[simp] theorem upcoming_setTxn (o st : Bool) (f : Failure) (s : State) (k : Nat) :
    (setTxn o st f s).upcoming k = s.upcoming k := rfl

@[simp] theorem upcoming_respond (r : Response) (s : State) (k : Nat) : (respond r s).upcoming k = s.upcoming k := rfl

@[simp] theorem upcoming_afterAccesses (s : State) (ws : List (Addr × Byte)) (rs : List Addr) (k : Nat) :
    (s.afterAccesses ws rs).upcoming k = s.upcoming (rs.length + k) := by
  simp [State.upcoming, State.afterAccesses, List.getElem?_drop, Nat.add_assoc]

@[simp] theorem readyAnswer_afterAccesses (s : State) (ws : List (Addr × Byte)) (rs : List Addr) (k : Nat) :
    (s.afterAccesses ws rs).readyAnswer k = s.readyAnswer (rs.length + k) := by
  simp [State.readyAnswer]

/-- MemRead is one read, answered with what comes next. -/
theorem memRead_eq (a : Addr) (s : State) : memRead a s = (s.upcoming 0, s.afterAccesses [] [a]) := by
  simp [memRead, State.afterAccesses, nextAnswer_eq_upcoming, List.drop_one]

/-- MemWrite is one write. -/
theorem memWrite_eq (a : Addr) (v : Byte) (s : State) : memWrite a v s = s.afterAccesses [(a, v)] [] := by
  simp [memWrite, State.afterAccesses]

theorem afterAccesses_nil (s : State) : s.afterAccesses [] [] = s := by simp [State.afterAccesses]

/-- Reads after accesses are more reads. -/
theorem afterAccesses_reads (s : State) (ws : List (Addr × Byte)) (rs rs' : List Addr) :
    (s.afterAccesses ws rs).afterAccesses [] rs' = s.afterAccesses ws (rs ++ rs') := by
  have h : (rs'.zipIdx.map (fun r => Access.read r.1 ((s.afterAccesses ws rs).upcoming r.2))) =
      (rs'.zipIdx rs.length).map (fun r => Access.read r.1 (s.upcoming r.2)) := by
    rw [List.zipIdx_eq_map_add (i := rs.length), List.map_map]
    refine List.map_congr_left fun r _ => ?_
    simp [Nat.add_comm]
  simp only [State.afterAccesses] at h ⊢
  simp [List.zipIdx_append, Nat.add_assoc, List.drop_drop, State.upcoming] at h ⊢
  exact h

/-- Accesses after writes alone are more writes and the reads. -/
theorem afterAccesses_writes (s : State) (ws ws' : List (Addr × Byte)) (rs : List Addr) :
    (s.afterAccesses ws []).afterAccesses ws' rs = s.afterAccesses (ws ++ ws') rs := by
  simp [State.afterAccesses, State.upcoming]

/-! ## The poll (R121) -/

theorem polls_succ (s : State) (n : Nat) : s.polls (n + 1) = s.cfg.twctlAddr :: s.polls n := rfl

@[simp] theorem polls_afterAccesses (s : State) (ws : List (Addr × Byte)) (rs : List Addr) (n : Nat) :
    (s.afterAccesses ws rs).polls n = s.polls n := rfl

@[simp] theorem polls_length (s : State) (n : Nat) : (s.polls n).length = n := List.length_replicate

/-- One iteration: return on the readiness flag, else go on. -/
theorem pollLoop_succ (n : Nat) (s : State) :
    pollLoop (n + 1) s =
      if s.readyAnswer 0 then (.none, s.afterAccesses [] [s.cfg.twctlAddr])
      else pollLoop n (s.afterAccesses [] [s.cfg.twctlAddr]) := by
  simp only [pollLoop, memRead_eq, spin, readyIn, State.readyAnswer]
  rfl

/-- The poll that sees the flag in its `k`-th answer makes `k + 1` reads and returns `None`. -/
theorem pollLoop_ready {n k : Nat} {s : State} (hk : k < n) (clear : ∀ j < k, s.readyAnswer j = false)
    (set : s.readyAnswer k = true) : pollLoop n s = (.none, s.afterAccesses [] (s.polls (k + 1))) := by
  induction n generalizing k s with
  | zero => omega
  | succ n ih =>
    rw [pollLoop_succ]
    cases k with
    | zero => simp [set, State.polls]
    | succ k =>
      simp only [clear 0 (by omega), Bool.false_eq_true, ↓reduceIte]
      have clear' : ∀ j < k, (s.afterAccesses [] [s.cfg.twctlAddr]).readyAnswer j = false := fun j hj => by
        simpa [Nat.add_comm] using clear (j + 1) (by omega)
      have set' : (s.afterAccesses [] [s.cfg.twctlAddr]).readyAnswer k = true := by
        simpa [Nat.add_comm] using set
      rw [ih (by omega) clear' set', afterAccesses_reads]
      simp [polls_succ]

/-- The poll that never sees the flag makes all its reads and returns `Timeout`. -/
theorem pollLoop_timeout {n : Nat} {s : State} (clear : ∀ j < n, s.readyAnswer j = false) :
    pollLoop n s = (.timeout, s.afterAccesses [] (s.polls n)) := by
  induction n generalizing s with
  | zero => simp [pollLoop, State.polls, afterAccesses_nil]
  | succ n ih =>
    rw [pollLoop_succ]
    simp only [clear 0 (by omega), Bool.false_eq_true, ↓reduceIte]
    have clear' : ∀ j < n, (s.afterAccesses [] [s.cfg.twctlAddr]).readyAnswer j = false := fun j hj => by
      simpa [Nat.add_comm] using clear (j + 1) (by omega)
    rw [ih clear', afterAccesses_reads]
    simp [polls_succ]

/-- Either the flag is seen within the budget or it is not. -/
theorem readyAfter_or_never (s : State) : (∃ k, s.ReadyAfter k) ∨ s.NeverReady := by
  by_cases h : ∃ k, k < s.cfg.pollOuter ∧ s.readyAnswer k = true
  · left
    classical
    refine ⟨Nat.find h, (Nat.find_spec h).1, fun j hj => ?_, (Nat.find_spec h).2⟩
    have := Nat.find_min h hj
    have hlt := (Nat.find_spec h).1
    simp only [not_and, Bool.not_eq_true] at this
    exact this (by omega)
  · right
    intro j hj
    simp only [not_exists, not_and, Bool.not_eq_true] at h
    exact h j hj

/-- `WaitUntilReady` when the flag comes. -/
theorem waitUntilReady_ready {s : State} {k : Nat} (h : s.ReadyAfter k) :
    waitUntilReady s = (.none, s.afterAccesses [] (s.polls (k + 1))) := pollLoop_ready h.1 h.2.1 h.2.2

/-- `WaitUntilReady` when the flag does not come. -/
theorem waitUntilReady_timeout {s : State} (h : s.NeverReady) :
    waitUntilReady s = (.timeout, s.afterAccesses [] (s.polls s.cfg.pollOuter)) := pollLoop_timeout h

/-! ## The primitive (R120, R122 to R124) -/

/-- The writes of a primitive's trigger phase, in order (R122, R124). -/
def eventWrites (c : Config) (ev : BusEvent) : List (Addr × Byte) :=
  match eventData ev with
  | some b => [(c.twdatAddr, b), (c.twctlAddr, controlByte c (eventFlags ev))]
  | none => [(c.twctlAddr, controlByte c (eventFlags ev))]

theorem controlByte_two (c : Config) (f g : CtlFlag) :
    controlByte c [f, g] = (1#8 <<< (flagBit c f).val) ||| (1#8 <<< (flagBit c g).val) := by
  simp [controlByte]

theorem controlByte_three (c : Config) (f g h : CtlFlag) :
    controlByte c [f, g, h] =
      (1#8 <<< (flagBit c f).val) ||| (1#8 <<< (flagBit c g).val) ||| (1#8 <<< (flagBit c h).val) := by
  simp [controlByte]

/-- The writes of each primitive with the control value written out (R127 to R136). -/
theorem eventWrites_start (c : Config) : eventWrites c .start =
    [(c.twctlAddr, (1#8 <<< c.startBit.val) ||| (1#8 <<< c.intBit.val) ||| (1#8 <<< c.enBit.val))] := by
  simp [eventWrites, eventData, eventFlags, controlByte_three, flagBit]

theorem eventWrites_rstart (c : Config) : eventWrites c .rstart =
    [(c.twctlAddr, (1#8 <<< c.startBit.val) ||| (1#8 <<< c.intBit.val) ||| (1#8 <<< c.enBit.val))] := by
  simp [eventWrites, eventData, eventFlags, controlByte_three, flagBit]

theorem eventWrites_stop (c : Config) : eventWrites c .stop =
    [(c.twctlAddr, (1#8 <<< c.stopBit.val) ||| (1#8 <<< c.intBit.val) ||| (1#8 <<< c.enBit.val))] := by
  simp [eventWrites, eventData, eventFlags, controlByte_three, flagBit]

theorem eventWrites_addressW (c : Config) (a : BitVec 7) : eventWrites c (.addressW a) =
    [(c.twdatAddr, a ++ 0#1), (c.twctlAddr, (1#8 <<< c.intBit.val) ||| (1#8 <<< c.enBit.val))] := by
  simp [eventWrites, eventData, eventFlags, controlByte_two, flagBit, slaByte_write]

theorem eventWrites_addressR (c : Config) (a : BitVec 7) : eventWrites c (.addressR a) =
    [(c.twdatAddr, a ++ 1#1), (c.twctlAddr, (1#8 <<< c.intBit.val) ||| (1#8 <<< c.enBit.val))] := by
  simp [eventWrites, eventData, eventFlags, controlByte_two, flagBit, slaByte_read]

theorem eventWrites_tx (c : Config) (b : Byte) : eventWrites c (.tx b) =
    [(c.twdatAddr, b), (c.twctlAddr, (1#8 <<< c.intBit.val) ||| (1#8 <<< c.enBit.val))] := by
  simp [eventWrites, eventData, eventFlags, controlByte_two, flagBit]

theorem eventWrites_rx (c : Config) (ack : Bool) : eventWrites c (.rx ack) =
    [(c.twctlAddr, (1#8 <<< c.intBit.val) ||| (1#8 <<< c.enBit.val) |||
      (if ack then 1#8 <<< c.ackenBit.val else 0#8))] := by
  cases ack <;> simp [eventWrites, eventData, eventFlags, controlByte_two, controlByte_three, flagBit]

theorem eventWrites_length (c : Config) (ev : BusEvent) : (eventWrites c ev).length ≤ 2 := by
  cases h : eventData ev <;> simp [eventWrites, h]

theorem triggerEvent_eq (ev : BusEvent) (s : State) :
    triggerEvent ev s = s.afterAccesses (eventWrites s.cfg ev) [] := by
  cases h : eventData ev <;> simp [triggerEvent, trigger, eventWrites, h, memWrite_eq, afterAccesses_writes]

theorem readyAfter_afterWrites {s : State} {k : Nat} (ws : List (Addr × Byte)) (h : s.ReadyAfter k) :
    (s.afterAccesses ws []).ReadyAfter k := by
  simpa [State.ReadyAfter] using h

theorem neverReady_afterWrites {s : State} (ws : List (Addr × Byte)) (h : s.NeverReady) :
    (s.afterAccesses ws []).NeverReady := by
  simpa [State.NeverReady] using h

/-- A primitive that times out: every poll read is made and the status register is not read. -/
theorem primitive_timeout (ev : BusEvent) {s : State} (h : s.NeverReady) :
    primitive ev s = (.timeout, s.afterAccesses (eventWrites s.cfg ev) (s.polls s.cfg.pollOuter)) := by
  simp only [primitive, triggerEvent_eq, synchronize, waitUntilReady_timeout (neverReady_afterWrites _ h),
    afterAccesses_reads, polls_afterAccesses, afterAccesses_cfg, List.nil_append]

/-- A primitive without a status check whose wait ends. -/
theorem primitive_unchecked {ev : BusEvent} {s : State} {k : Nat} (he : eventStatus s.cfg ev = none)
    (h : s.ReadyAfter k) :
    primitive ev s = (.none, s.afterAccesses (eventWrites s.cfg ev) (s.polls (k + 1))) := by
  simp only [primitive, triggerEvent_eq, synchronize, waitUntilReady_ready (readyAfter_afterWrites _ h), he,
    afterAccesses_reads, polls_afterAccesses, List.nil_append]

/-- A primitive with a status check whose wait ends: one status read, and the failure it decides. -/
theorem primitive_checked {ev : BusEvent} {s : State} {k : Nat} {code : Byte}
    (he : eventStatus s.cfg ev = some code) (h : s.ReadyAfter k) :
    primitive ev s =
      (if statusMatches s.cfg (s.upcoming (k + 1)) code then .none else .unexpectedStatus (s.upcoming (k + 1)),
        s.afterAccesses (eventWrites s.cfg ev) (s.polls (k + 1) ++ [s.cfg.twstatAddr])) := by
  simp only [primitive, triggerEvent_eq, synchronize, waitUntilReady_ready (readyAfter_afterWrites _ h), he,
    afterAccesses_reads, polls_afterAccesses, checkStatus, memRead_eq, afterAccesses_cfg, upcoming_afterAccesses,
    polls_length, List.nil_append, Nat.add_zero]

/-- Whatever the environment answers, a primitive makes its writes, then at most `POLL_OUTER + 1` reads, and changes
nothing else (R120, R123). -/
theorem primitive_accesses (ev : BusEvent) (s : State) :
    ∃ f rs, primitive ev s = (f, s.afterAccesses (eventWrites s.cfg ev) rs) ∧ rs.length ≤ s.cfg.pollOuter + 1 := by
  rcases readyAfter_or_never s with ⟨k, hk⟩ | hn
  · cases he : eventStatus s.cfg ev with
    | none =>
      refine ⟨_, _, primitive_unchecked he hk, ?_⟩
      rw [polls_length]
      exact Nat.succ_le_succ (Nat.le_of_lt hk.1)
    | some code =>
      refine ⟨_, _, primitive_checked he hk, ?_⟩
      rw [List.length_append, polls_length]
      exact Nat.succ_le_succ hk.1
  · refine ⟨_, _, primitive_timeout ev hn, ?_⟩
    rw [polls_length]
    exact Nat.le_succ _

/-- The poll makes at most `POLL_OUTER` reads, and changes nothing else (R121). -/
theorem waitUntilReady_accesses (s : State) :
    ∃ f rs, waitUntilReady s = (f, s.afterAccesses [] rs) ∧ rs.length ≤ s.cfg.pollOuter := by
  rcases readyAfter_or_never s with ⟨k, hk⟩ | hn
  · refine ⟨_, _, waitUntilReady_ready hk, ?_⟩
    rw [polls_length]
    exact hk.1
  · refine ⟨_, _, waitUntilReady_timeout hn, ?_⟩
    rw [polls_length]

/-- `BusFree or MidTransaction` holds in every phase, so TW.START is never rejected (10_state.md R22,
42_twi_driver.md R127; log 11). -/
theorem busFree_or_midTransaction (p : Phase) : (busFree p || midTransaction p) = true := by
  cases p <;> rfl

end Sys2Proof.Machine
end

