-- ==== Sys2Proof/Laws/Commands.lean ====
section
/-! SUPPORT. Once for each wrapper of a command, everything it can do (60_exceptions.md R198), and once for the commands
that end in a primitive (42_twi_driver.md R125). -/

namespace Sys2Proof.Machine

/-! ## The wrappers -/

theorem command_live {s : State} (h : s.Live) (body : State → State) : command body s = .next (body s) := by
  simp [command, h]

theorem raiseFault_eq_rejected (s : State) {c : FaultCause} (h1 : c ≠ .noFault) (h2 : c ≠ .enumFatal) :
    raiseFault c s = s.rejected (faultCode c).toNat c := by
  cases c <;> simp_all [raiseFault, State.rejected, faultBit, faultCode, Response.ofFault]

theorem raiseFault_enumFatal (s : State) : raiseFault .enumFatal s = { s.rejected 1 .enumFatal with halted := true } := by
  simp [raiseFault, State.rejected, faultBit, Response.ofFault]

theorem command_halted {s : State} (h : s.halted = true) (body : State → State) :
    command body s = .next (s.rejected 6 .halted) := by
  simp [command, h, raiseFault_eq_rejected, faultCode]

theorem skipping_eq_false {s : State} (h : s.txnOpen = false ∨ s.firstFail = .none) : s.skipping = false := by
  rcases h with h | h <;> simp [State.skipping, h]

theorem skippable_ready {s : State} (h : s.Ready) (body : State → State) : skippable body s = .next (body s) := by
  rw [skippable, command_live h.1, skipping_eq_false h.2]
  rfl

theorem skippable_skips {s : State} (h : s.Skips) (body : State → State) :
    skippable body s = .next { s with response := ⟨.noFault, true, s.firstFail, none⟩ } := by
  have hs : s.skipping = true := by simp [State.skipping, h.2.1, h.2.2]
  rw [skippable, command_live h.1, hs]
  rfl

theorem require_holds {p : Bool} (h : p = true) (body : State → State) (s : State) : require p body s = body s := by
  simp [require, h]

theorem require_fails {p : Bool} (h : p = false) (body : State → State) (s : State) :
    require p body s = s.rejected 3 .illegalSequence := by
  simp [require, h, raiseFault_eq_rejected, faultCode]

/-- A skippable command with a precondition, in a state that meets it. -/
theorem guarded_holds {s : State} (h : s.Ready) {g : State → Bool} (hg : g s = true) (body : State → State) :
    skippable (fun s => require (g s) body s) s = .next (body s) := by
  rw [skippable_ready h, require_holds hg]

/-- A skippable command with a precondition, in a state that does not. -/
theorem guarded_fails {s : State} (h : s.Ready) {g : State → Bool} (hg : g s = false) (body : State → State) :
    skippable (fun s => require (g s) body s) s = .next (s.rejected 3 .illegalSequence) := by
  rw [skippable_ready h, require_fails hg]

theorem midTransaction_iff {p : Phase} :
    midTransaction p = true ↔ p = .startSent ∨ p = .addressSent ∨ p = .dataTransferring := by
  cases p <;> simp [midTransaction]

theorem not_midTransaction_iff {p : Phase} : midTransaction p = false ↔ p = .idle ∨ p = .stopPending := by
  cases p <;> simp [midTransaction]

theorem afterAddress_iff {p : Phase} : afterAddress p = true ↔ p = .addressSent ∨ p = .dataTransferring := by
  cases p <;> simp [afterAddress]

theorem inRange_valid {p : Bool} (h : p = true) (body : State → State) (s : State) : inRange p body s = body s := by
  simp [inRange, h]

theorem inRange_invalid {p : Bool} (h : p = false) (body : State → State) (s : State) :
    inRange p body s = s.rejected 2 .bitRange := by
  simp [inRange, h, raiseFault_eq_rejected, faultCode]

theorem deliver_eq (v : Latch) (s : State) : deliver v s = { s with response := .success (some v) } := rfl

theorem finish_success (v : Option Latch) (s : State) : finish .none v s = { s with response := .success v } := by
  simp [finish, recordFailure, respond, Response.ofFailure]

theorem finish_failed {f : Failure} (h : f ≠ .none) (s : State) :
    finish f none s = { s with firstFail := s.failRecord f, response := .failed f } := by
  have hf : (f != .none) = true := by simpa using h
  simp [finish, recordFailure, respond, Response.ofFailure, State.failRecord, hf]

/-! ## Every command answers -/

/-- Whatever the command and the state, `exec` answers a next state: no meaning stops (log 20). -/
theorem exec_answers (i : Instr) (s : State) : ∃ t, exec i s = .next t := by
  cases i <;> exact ⟨_, rfl⟩

/-- A skippable command is one whose meaning goes through the skip rule (43_twi_transaction.md R151). -/
theorem exec_is_skippable {i : Instr} (h : Skippable i = true) : ∃ body, ∀ s, exec i s = skippable body s := by
  cases i <;> first | exact ⟨_, fun _ => rfl⟩ | cases h

/-- Every command first checks the halt (60_exceptions.md R198). -/
theorem exec_is_command (i : Instr) : ∃ body, ∀ s, exec i s = command body s := by
  cases i
  case regWr a =>
    exact ⟨fun s => respond (.ofFailure .none none) (memWrite a (operand 8 s.opA) s), fun _ => rfl⟩
  case twCfgm => exact ⟨fun s => configureMaster s.opA.toNat s, fun _ => rfl⟩
  all_goals exact ⟨_, fun _ => rfl⟩

/-! ## Commands that end in a primitive -/

theorem onSuccess_none {r : Failure × State} (h : r.1 = .none) (move : State → State) :
    onSuccess move r = (.none, move r.2) := by
  obtain ⟨f, t⟩ := r
  simp only at h
  subst h
  rfl

theorem onSuccess_failed {r : Failure × State} (h : r.1 ≠ .none) (move : State → State) : onSuccess move r = r := by
  obtain ⟨f, t⟩ := r
  cases f
  · exact absurd rfl h
  · rfl
  · rfl

/-- The stop condition when the flag comes (R129). -/
theorem stopProc_ready {s : State} {k : Nat} (hk : s.ReadyAfter k) :
    stopProc s = (.none, { s.afterAccesses (eventWrites s.cfg .stop) (s.polls (k + 1)) with
      phase := .idle, dir := .dirNone }) := by
  have h : State.ReadyAfter (moveTo .stopPending .dirNone s) k := hk
  rw [stopProc, primitive_unchecked rfl h, onSuccess_none rfl]
  rfl

/-- The stop condition when the flag does not come (R129, R130). -/
theorem stopProc_timeout {s : State} (hn : s.NeverReady) :
    stopProc s = (.timeout, { s.afterAccesses (eventWrites s.cfg .stop) (s.polls s.cfg.pollOuter) with
      phase := .stopPending, dir := .dirNone }) := by
  have h : State.NeverReady (moveTo .stopPending .dirNone s) := hn
  rw [stopProc, primitive_timeout _ h, onSuccess_failed (by simp)]
  rfl

theorem statusMatches_iff {c : Config} {v e : Byte} : statusMatches c v e = true ↔ StatusIs c v e := by
  simp [statusMatches]

/-- A command whose body is one checked primitive from `base`, with the phase and direction it moves to on success. -/
theorem checkedPrimitive_of_runProc {i : Instr} {s base : State} {ev : BusEvent} {code : Byte} {p : Phase} {d : Dir}
    {move : State → State}
    (hmove : ∀ ws rs, move (base.afterAccesses ws rs) = { base.afterAccesses ws rs with phase := p, dir := d })
    (hexec : exec i s = .next (runProc (fun t => onSuccess move (primitive ev t)) base))
    (he : eventStatus base.cfg ev = some code) :
    CheckedPrimitive i s base (eventWrites base.cfg ev) code p d := by
  refine ⟨fun k hk hs => ?_, fun k hk hs => ?_, fun hn => ?_⟩ <;>
    simp only [hexec, runProc, Host.Outcome.next.injEq]
  · rw [primitive_checked he hk, if_pos (statusMatches_iff.2 hs), onSuccess_none rfl, hmove]
    exact finish_success _ _
  · rw [primitive_checked he hk, if_neg (fun h => hs (statusMatches_iff.1 h)), onSuccess_failed (by simp)]
    exact finish_failed (by simp) _
  · rw [primitive_timeout ev hn, onSuccess_failed (by simp)]
    exact finish_failed (by simp) _

end Sys2Proof.Machine
end

