-- ==== Sys2Proof/Laws/Decode.lean ====
section
/-! SUPPORT. The opcode map is unambiguous (30_encoding.md R79): "No two rows can match one word because the rows differ
in `cmd[31:24]`, which every mask covers". -/

namespace Sys2Proof

/-- The rows have pairwise different opcodes. -/
theorem table_opcodes_differ : table.Pairwise (fun a b => opcode a.pattern ≠ opcode b.pattern) := by decide

/-- Every mask covers `cmd[31:24]`. -/
theorem table_masks_cover : ∀ r ∈ table, opcode r.mask = 0xFF#8 := by decide

/-- A row is selected by words of its own opcode only. -/
theorem selects_opcode {r : Row} (hr : r ∈ table) {w : CmdWord} (h : r.selects w = true) :
    opcode w = opcode r.pattern := by
  have he : w &&& r.mask = r.pattern := by simpa [Row.selects] using h
  have hm := table_masks_cover r hr
  rw [← he]
  unfold opcode at hm ⊢
  rw [BitVec.extractLsb_and, hm]
  exact (BitVec.and_allOnes (x := w.extractLsb 31 24)).symm

/-- Where a predicate holds of at most one element, `find?` gives the one it holds of. -/
theorem find_unique {α : Type} {p : α → Bool} {l : List α} (hl : l.Pairwise (fun a b => ¬(p a = true ∧ p b = true)))
    {r : α} (hr : r ∈ l) (hp : p r = true) : l.find? p = some r := by
  induction l with
  | nil => cases hr
  | cons a rest ih =>
    rw [List.pairwise_cons] at hl
    rcases List.mem_cons.mp hr with rfl | hr
    · simp [hp]
    · have ha : ¬ p a = true := fun ha => hl.1 r hr ⟨ha, hp⟩
      rw [List.find?_cons_of_neg ha]
      exact ih hl.2 hr

/-- No word selects two rows (30_encoding.md R79). -/
theorem table_exclusive (w : CmdWord) : table.Pairwise (fun a b => ¬(a.selects w = true ∧ b.selects w = true)) := by
  refine List.Pairwise.imp_of_mem ?_ table_opcodes_differ
  intro a b ha hb hne ⟨h1, h2⟩
  exact hne ((selects_opcode ha h1).symm.trans (selects_opcode hb h2))

/-- The decoder gives the row that the word selects. -/
theorem decode_of_selects {r : Row} (hr : r ∈ table) {w : CmdWord} (h : r.selects w = true) :
    decode w = .ok (r.build w) := by
  simp only [decode, find_unique (table_exclusive w) hr h]

/-- What a decoded word selects. -/
theorem selects_of_decode {w : CmdWord} {i : Instr} (h : decode w = .ok i) :
    ∃ r ∈ table, r.selects w = true ∧ r.build w = i := by
  unfold decode at h
  split at h
  · rename_i r hf
    exact ⟨r, List.mem_of_find?_eq_some hf, List.find?_some (p := fun r : Row => r.selects w) hf, by simpa using h⟩
  · split at h <;> cases h

/-! ## Each field is read back from the place the format puts it in (R71 to R73, R75) -/

theorem fieldLo_formatB (op : BitVec 8) (w : Width) (d : Bool) (e h l : Nat) : fieldLo (formatB op w d e h l) = l % 64 := by
  have : (formatB op w d e h l).extractLsb 5 0 = BitVec.ofNat 6 l := by
    unfold formatB BitVec.extractLsb
    apply BitVec.eq_of_getLsbD_eq
    intro i hi
    simp only [BitVec.getLsbD_extractLsb', BitVec.getLsbD_append]
    simp [hi]
  simp [fieldLo, field, this]

theorem fieldHi_formatB (op : BitVec 8) (w : Width) (d : Bool) (e h l : Nat) : fieldHi (formatB op w d e h l) = h % 64 := by
  have : (formatB op w d e h l).extractLsb 13 8 = BitVec.ofNat 6 h := by
    unfold formatB BitVec.extractLsb
    apply BitVec.eq_of_getLsbD_eq
    intro i hi
    simp only [BitVec.getLsbD_extractLsb', BitVec.getLsbD_append]
    have : i < 6 := by omega
    simp [this, show ¬ 8 + i < 6 by omega, show ¬ 8 + i - 6 < 2 by omega, show 8 + i - 6 - 2 = i by omega]
  simp [fieldHi, field, this]

theorem fieldEtab_formatB (op : BitVec 8) (w : Width) (d : Bool) (e h l : Nat) : fieldEtab (formatB op w d e h l) = e % 32 := by
  have : (formatB op w d e h l).extractLsb 20 16 = BitVec.ofNat 5 e := by
    unfold formatB BitVec.extractLsb
    apply BitVec.eq_of_getLsbD_eq
    intro i hi
    simp only [BitVec.getLsbD_extractLsb', BitVec.getLsbD_append]
    have : i < 5 := by omega
    simp [this, show ¬ 16 + i < 6 by omega, show ¬ 16 + i - 6 < 2 by omega,
      show ¬ 16 + i - 6 - 2 < 6 by omega, show ¬ 16 + i - 6 - 2 - 6 < 2 by omega,
      show 16 + i - 6 - 2 - 6 - 2 = i by omega]
  simp [fieldEtab, field, this]

theorem fieldHasdef_formatB (op : BitVec 8) (w : Width) (d : Bool) (e h l : Nat) : fieldHasdef (formatB op w d e h l) = d := by
  unfold fieldHasdef formatB
  simp only [BitVec.getLsbD_append]
  simp

theorem fieldWsel_formatB (op : BitVec 8) (w : Width) (d : Bool) (e h l : Nat) : fieldWsel (formatB op w d e h l) = w := by
  have : (formatB op w d e h l).extractLsb 23 22 = w.code := by
    unfold formatB BitVec.extractLsb
    apply BitVec.eq_of_getLsbD_eq
    intro i hi
    simp only [BitVec.getLsbD_extractLsb', BitVec.getLsbD_append]
    have : i < 2 := by omega
    simp [this, show ¬ 22 + i < 6 by omega, show ¬ 22 + i - 6 < 2 by omega,
      show ¬ 22 + i - 6 - 2 < 6 by omega, show ¬ 22 + i - 6 - 2 - 6 < 2 by omega,
      show ¬ 22 + i - 6 - 2 - 6 - 2 < 5 by omega, show ¬ 22 + i - 6 - 2 - 6 - 2 - 5 < 1 by omega,
      show 22 + i - 6 - 2 - 6 - 2 - 5 - 1 = i by omega]
  simp only [fieldWsel, this]
  cases w <;> rfl

theorem fieldAddr_formatR (op : BitVec 8) (a : Addr) : fieldAddr (formatR op a) = a := by
  unfold fieldAddr formatR BitVec.extractLsb
  apply BitVec.eq_of_getLsbD_eq
  intro i hi
  simp only [BitVec.getLsbD_extractLsb', BitVec.getLsbD_append]
  simp [show i < 16 by omega]

theorem fieldImm8_formatT (op : BitVec 8) (a : Byte) : fieldImm8 (formatT op a) = a := by
  unfold fieldImm8 formatT BitVec.extractLsb
  apply BitVec.eq_of_getLsbD_eq
  intro i hi
  simp only [BitVec.getLsbD_extractLsb', BitVec.getLsbD_append]
  simp [show i < 8 by omega]

theorem fieldAddr7_formatT (op : BitVec 8) (a : BitVec 7) : fieldAddr7 (formatT op (0#1 ++ a)) = a := by
  unfold fieldAddr7 formatT BitVec.extractLsb
  apply BitVec.eq_of_getLsbD_eq
  intro i hi
  simp only [BitVec.getLsbD_extractLsb', BitVec.getLsbD_append]
  simp only [Nat.zero_add, show i < 7 by omega, show i < 8 by omega]
  simp

theorem fieldAck_formatT (op : BitVec 8) (a : Bool) : fieldAck (formatT op (0#7 ++ BitVec.ofBool a)) = a := by
  unfold fieldAck formatT
  simp only [BitVec.getLsbD_append]
  simp

/-! ## Rebuilding a word from its fields gives the word, its must-be-zero bits cleared (R71 to R73) -/

theorem Width.code_ofCode (c : BitVec 2) : (Width.ofCode c).code = c := by
  revert c
  decide

theorem formatB_of_fields (w : CmdWord) :
    formatB (opcode w) (fieldWsel w) (fieldHasdef w) (fieldEtab w) (fieldHi w) (fieldLo w) = w &&& 0xFFFF3F3F := by
  apply BitVec.eq_of_getLsbD_eq
  intro j hj
  simp only [formatB, opcode, fieldWsel, fieldHasdef, fieldEtab, fieldHi, fieldLo, field, Width.code_ofCode,
    BitVec.ofNat_toNat, BitVec.getLsbD_append, BitVec.getLsbD_and, BitVec.extractLsb, BitVec.getLsbD_setWidth,
    BitVec.getLsbD_extractLsb', BitVec.getLsbD_ofBool]
  interval_cases j <;> simp

theorem formatR_of_fields (w : CmdWord) : formatR (opcode w) (fieldAddr w) = w &&& 0xFF00FFFF := by
  apply BitVec.eq_of_getLsbD_eq
  intro j hj
  simp only [formatR, opcode, fieldAddr, BitVec.getLsbD_append, BitVec.getLsbD_and, BitVec.extractLsb,
    BitVec.getLsbD_extractLsb']
  interval_cases j <;> simp

theorem formatT_of_fields (w : CmdWord) : formatT (opcode w) (fieldImm8 w) = w &&& 0xFF0000FF := by
  apply BitVec.eq_of_getLsbD_eq
  intro j hj
  simp only [formatT, opcode, fieldImm8, BitVec.getLsbD_append, BitVec.getLsbD_and, BitVec.extractLsb,
    BitVec.getLsbD_extractLsb']
  interval_cases j <;> simp

end Sys2Proof
end

