-- ==== Sys2Proof/Laws/Steps.lean ====
section
/-! SUPPORT. What every command does to the accesses, the register space and the parts of the state that no command
writes (20_memory.md R51, R62; 70_reset_and_hazards.md R225), said once for all of them. -/

namespace Sys2Proof.Machine

/-- From `s` to `t` at most `n` accesses were made, reads of the addresses `rs` and writes of the addresses `ws`, each
recorded once and answered once, and the configuration, the latches, `cp` and the host's list are as they were. -/
def Accessed (rs ws : List Addr) (n : Nat) (s t : State) : Prop :=
  ∃ l : List Access, (l.length ≤ n ∧ ∀ x ∈ l, x.Within rs ws) ∧ t.trace = s.trace ++ l ∧
    t.draws = s.draws + l.countP Access.isRead ∧ t.answers = s.answers.drop (l.countP Access.isRead) ∧
    (Memory.wf s.mem → Memory.wf t.mem) ∧ (∀ a, t.handed a = lastWritten a (s.handed a) l) ∧
    t.cfg = s.cfg ∧ t.opA = s.opA ∧ t.opB = s.opB ∧ t.cp = s.cp ∧ t.inputs = s.inputs ∧ t.latchDraws = s.latchDraws

theorem lastWritten_append (a : Addr) (v : Option Byte) (l l' : List Access) :
    lastWritten a v (l ++ l') = lastWritten a (lastWritten a v l) l' := by
  induction l generalizing v with
  | nil => rfl
  | cons x l ih => cases x <;> exact ih _

/-- An address that no access writes holds what it held. -/
theorem lastWritten_of_not_mem {a : Addr} {rs ws : List Addr} (ha : a ∉ ws) (v : Option Byte) {l : List Access}
    (h : ∀ x ∈ l, x.Within rs ws) : lastWritten a v l = v := by
  induction l with
  | nil => rfl
  | cons x l ih =>
    have hl : ∀ y ∈ l, y.Within rs ws := fun y hy => h y (List.mem_cons_of_mem _ hy)
    cases x with
    | read b w => exact ih hl
    | write b w =>
      have hb : b ∈ ws := h (.write b w) List.mem_cons_self
      have hne : b ≠ a := fun e => ha (e ▸ hb)
      simp only [lastWritten, hne, if_false]
      exact ih hl

/-! ## No access, one access, and one after the other -/

variable {rs ws : List Addr}

theorem Accessed.refl (s : State) : Accessed rs ws 0 s s :=
  ⟨[], ⟨Nat.le_refl 0, by simp⟩, by simp, by simp, by simp, id, fun _ => rfl, rfl, rfl, rfl, rfl, rfl, rfl⟩

theorem Accessed.mono {n m : Nat} {s t : State} (h : Accessed rs ws n s t) (hm : n ≤ m) : Accessed rs ws m s t := by
  obtain ⟨l, ⟨hl, hx⟩, rest⟩ := h
  exact ⟨l, ⟨hl.trans hm, hx⟩, rest⟩

theorem Accessed.cfg {n : Nat} {s t : State} (h : Accessed rs ws n s t) : t.cfg = s.cfg := by
  obtain ⟨l, -, -, -, -, -, -, hc, -⟩ := h
  exact hc

theorem Accessed.trans {n m : Nat} {s t u : State} (h : Accessed rs ws n s t) (h' : Accessed rs ws m t u) :
    Accessed rs ws (n + m) s u := by
  obtain ⟨l, ⟨hl, hx⟩, ht, hd, ha, hw, hm, c1, c2, c3, c4, c5, c6⟩ := h
  obtain ⟨l', ⟨hl', hx'⟩, ht', hd', ha', hw', hm', c1', c2', c3', c4', c5', c6'⟩ := h'
  refine ⟨l ++ l', ⟨?_, ?_⟩, ?_, ?_, ?_, hw' ∘ hw, fun a => ?_, c1'.trans c1, c2'.trans c2, c3'.trans c3, c4'.trans c4,
    c5'.trans c5, c6'.trans c6⟩
  · rw [List.length_append]
    exact Nat.add_le_add hl hl'
  · intro x hmem
    rcases List.mem_append.1 hmem with h | h
    · exact hx x h
    · exact hx' x h
  · rw [ht', ht, List.append_assoc]
  · rw [hd', hd, List.countP_append, Nat.add_assoc]
  · rw [ha', ha, List.countP_append, List.drop_drop]
  · rw [hm', hm, lastWritten_append]

theorem memRead_accessed {a : Addr} (h : a ∈ rs) (s : State) : Accessed rs ws 1 s (memRead a s).2 :=
  ⟨[.read a s.nextAnswer], ⟨Nat.le_refl 1, by simpa [Access.Within] using h⟩, rfl, rfl, List.drop_one.symm, id,
    fun _ => rfl, rfl, rfl, rfl, rfl, rfl, rfl⟩

theorem memWrite_accessed {a : Addr} (h : a ∈ ws) (v : Byte) (s : State) : Accessed rs ws 1 s (memWrite a v s) := by
  refine ⟨[.write a v], ⟨Nat.le_refl 1, by simpa [Access.Within] using h⟩, rfl, rfl, rfl, fun h => memWrite_wf h a v,
    fun b => ?_, rfl, rfl, rfl, rfl, rfl, rfl⟩
  by_cases h : b = a
  · subst h
    simp [lastWritten, memWrite_handed_same]
  · simp [lastWritten, memWrite_handed_other s v h, Ne.symm h]

theorem moveTo_accessed (p : Phase) (d : Dir) (s : State) : Accessed rs ws 0 s (moveTo p d s) := Accessed.refl s
theorem respond_accessed (r : Response) (s : State) : Accessed rs ws 0 s (respond r s) := Accessed.refl s
theorem raiseFault_accessed (c : FaultCause) (s : State) : Accessed rs ws 0 s (raiseFault c s) := Accessed.refl s

/-! ## The procedures of the driver -/

theorem pollLoop_accessed (n : Nat) {s : State} (h : s.cfg.twctlAddr ∈ rs) : Accessed rs ws n s (pollLoop n s).2 := by
  induction n generalizing s with
  | zero => exact Accessed.refl s
  | succ n ih =>
    have h1 : Accessed rs ws 1 s (memRead s.cfg.twctlAddr s).2 := memRead_accessed h s
    simp only [pollLoop]
    split
    · exact h1.mono (by omega)
    · exact (h1.trans (ih (s := (memRead s.cfg.twctlAddr s).2) h)).mono (by omega)

theorem waitUntilReady_accessed {s : State} (h : s.cfg.twctlAddr ∈ rs) :
    Accessed rs ws s.cfg.pollOuter s (waitUntilReady s).2 := pollLoop_accessed _ h

/-- The addresses a primitive needs: the control register, the data register if it loads it, and the status register
if it checks it (R122 to R124). -/
def EventWithin (rs ws : List Addr) (c : Config) (ev : BusEvent) : Prop :=
  c.twctlAddr ∈ rs ∧ c.twctlAddr ∈ ws ∧ (eventData ev ≠ none → c.twdatAddr ∈ ws) ∧
    (eventStatus c ev ≠ none → c.twstatAddr ∈ rs)

theorem trigger_accessed {ev : BusEvent} {s : State} (h : EventWithin rs ws s.cfg ev) :
    Accessed rs ws 2 s (triggerEvent ev s) := by
  unfold triggerEvent
  split
  · rename_i b hb
    exact (memWrite_accessed (h.2.2.1 (by simp [hb])) b s).trans (memWrite_accessed h.2.1 _ _)
  · exact (memWrite_accessed h.2.1 _ s).mono (by omega)

theorem checkStatus_accessed (code : Byte) {s : State} (h : s.cfg.twstatAddr ∈ rs) :
    Accessed rs ws 1 s (checkStatus code s).2 := memRead_accessed h s

theorem synchronize_accessed {code : Option Byte} {s : State} (h1 : s.cfg.twctlAddr ∈ rs)
    (h2 : code ≠ none → s.cfg.twstatAddr ∈ rs) :
    Accessed rs ws (s.cfg.pollOuter + 1) s (synchronize code s).2 := by
  have h : Accessed rs ws s.cfg.pollOuter s (waitUntilReady s).2 := waitUntilReady_accessed h1
  unfold synchronize
  split
  · rename_i t ht
    rw [ht] at h
    have hc : t.cfg = s.cfg := h.cfg
    split
    · exact h.trans (checkStatus_accessed _ (by rw [hc]; exact h2 (by simp)))
    · exact h.mono (by omega)
  · rename_i ht
    rw [ht] at h
    exact h.mono (by omega)

/-- A primitive makes at most `3 + POLL_OUTER` accesses (R225). -/
theorem primitive_accessed {ev : BusEvent} {s : State} (h : EventWithin rs ws s.cfg ev) :
    Accessed rs ws (3 + s.cfg.pollOuter) s (primitive ev s).2 := by
  have ht := trigger_accessed h
  have hc : (triggerEvent ev s).cfg = s.cfg := ht.cfg
  have hs : Accessed rs ws ((triggerEvent ev s).cfg.pollOuter + 1) (triggerEvent ev s)
      (synchronize (eventStatus s.cfg ev) (triggerEvent ev s)).2 :=
    synchronize_accessed (by rw [hc]; exact h.1) (by rw [hc]; exact h.2.2.2)
  rw [hc] at hs
  exact (ht.trans hs).mono (by omega)

theorem onSuccess_accessed {n : Nat} {s : State} {r : Failure × State} {move : State → State}
    (h : Accessed rs ws n s r.2) (hm : ∀ t, Accessed rs ws 0 t (move t)) :
    Accessed rs ws n s (onSuccess move r).2 := by
  obtain ⟨f, t⟩ := r
  cases f
  · exact h.trans (hm t)
  · exact h
  · exact h

theorem startProc_accessed {s : State} (h : EventWithin rs ws s.cfg .start) :
    Accessed rs ws (3 + s.cfg.pollOuter) s (startProc s).2 :=
  onSuccess_accessed (primitive_accessed h) (moveTo_accessed _ _)

theorem rstartProc_accessed {s : State} (h : EventWithin rs ws s.cfg .rstart) :
    Accessed rs ws (3 + s.cfg.pollOuter) s (rstartProc s).2 :=
  onSuccess_accessed (primitive_accessed h) (moveTo_accessed _ _)

theorem stopProc_accessed {s : State} (h : EventWithin rs ws s.cfg .stop) :
    Accessed rs ws (3 + s.cfg.pollOuter) s (stopProc s).2 :=
  onSuccess_accessed (primitive_accessed (s := moveTo .stopPending .dirNone s) h) (moveTo_accessed _ _)

theorem slawProc_accessed {a : BitVec 7} {s : State} (h : EventWithin rs ws s.cfg (.addressW a)) :
    Accessed rs ws (3 + s.cfg.pollOuter) s (slawProc a s).2 :=
  onSuccess_accessed (primitive_accessed h) (moveTo_accessed _ _)

theorem slarProc_accessed {a : BitVec 7} {s : State} (h : EventWithin rs ws s.cfg (.addressR a)) :
    Accessed rs ws (3 + s.cfg.pollOuter) s (slarProc a s).2 :=
  onSuccess_accessed (primitive_accessed h) (moveTo_accessed _ _)

theorem sendbProc_accessed {b : Byte} {s : State} (h : EventWithin rs ws s.cfg (.tx b)) :
    Accessed rs ws (3 + s.cfg.pollOuter) s (sendbProc b s).2 :=
  onSuccess_accessed (primitive_accessed h) (fun t => moveTo_accessed _ t.dir t)

theorem runProc_accessed {n : Nat} {s : State} {proc : State → Failure × State} (h : Accessed rs ws n s (proc s).2) :
    Accessed rs ws n s (runProc proc s) := h

/-! ## The receive, the transaction commands -/

/-- A receive writes no data register and reads it only after its status matched, so it too stays within
`3 + POLL_OUTER` (R225). -/
theorem receiveByte_accessed {ack : Bool} {s : State} (h : EventWithin rs ws s.cfg (.rx ack))
    (hd : s.cfg.twdatAddr ∈ rs) : Accessed rs ws (3 + s.cfg.pollOuter) s (receiveByte ack s) := by
  have hw : Accessed rs ws 1 s (triggerEvent (.rx ack) s) := memWrite_accessed h.2.1 _ s
  have hs : Accessed rs ws (s.cfg.pollOuter + 1) (triggerEvent (.rx ack) s)
      (synchronize (eventStatus s.cfg (.rx ack)) (triggerEvent (.rx ack) s)).2 :=
    synchronize_accessed (s := triggerEvent (.rx ack) s) h.1 h.2.2.2
  have hp := hw.trans hs
  unfold receiveByte
  split
  · rename_i t ht
    rw [show synchronize _ _ = _ from ht] at hp
    have hc : t.cfg = s.cfg := hp.cfg
    exact (hp.trans (memRead_accessed (a := t.cfg.twdatAddr) (by rw [hc]; exact hd) t)).mono (by omega)
  · rename_i ht
    rw [show synchronize _ _ = _ from ht] at hp
    exact hp.mono (by omega)

theorem beginTxn_accessed {s : State} (h : EventWithin rs ws s.cfg .start) :
    Accessed rs ws (3 + s.cfg.pollOuter) s (beginTxn s) :=
  startProc_accessed (s := setTxn true false .none s) h

theorem endTxn_accessed {s : State} (h : EventWithin rs ws s.cfg .stop) :
    Accessed rs ws (3 + s.cfg.pollOuter) s (endTxn s) := stopProc_accessed h

/-- A linked address phase makes at most two primitives (R225). -/
theorem linkProc_accessed {address : State → Failure × State} {s : State} (hr : EventWithin rs ws s.cfg .rstart)
    (h : ∀ t, t.cfg = s.cfg → Accessed rs ws (3 + t.cfg.pollOuter) t (address t).2) :
    Accessed rs ws (2 * (3 + s.cfg.pollOuter)) s (linkProc address s).2 := by
  have hp := rstartProc_accessed hr
  unfold linkProc
  split
  · split
    · rename_i t ht
      rw [ht] at hp
      have hc : t.cfg = s.cfg := hp.cfg
      have ha := h t hc
      rw [hc] at ha
      exact (hp.trans ha).mono (by omega)
    · rename_i ht
      rw [ht] at hp
      exact hp.mono (by omega)
  · exact (h (setTxn s.txnOpen true s.firstFail s) rfl).mono (by show 3 + s.cfg.pollOuter ≤ _; omega)

/-! ## The wrappers -/

theorem command_accessed {n : Nat} {s t : State} {body : State → State} (h : Accessed rs ws n s (body s))
    (he : command body s = .next t) : Accessed rs ws n s t := by
  unfold command at he
  cases he
  split
  · exact (raiseFault_accessed .halted s).mono (by omega)
  · exact h

theorem skippable_accessed {n : Nat} {s t : State} {body : State → State} (h : Accessed rs ws n s (body s))
    (he : skippable body s = .next t) : Accessed rs ws n s t := by
  refine command_accessed ?_ he
  split
  · exact (respond_accessed _ s).mono (by omega)
  · exact h

theorem require_accessed {n : Nat} {s : State} {p : Bool} {body : State → State} (h : Accessed rs ws n s (body s)) :
    Accessed rs ws n s (require p body s) := by
  unfold require
  split
  · exact h
  · exact (raiseFault_accessed _ s).mono (by omega)

theorem inRange_accessed {s : State} {p : Bool} {body : State → State} (h : Accessed rs ws 0 s (body s)) :
    Accessed rs ws 0 s (inRange p body s) := by
  unfold inRange
  split
  · exact h
  · exact raiseFault_accessed _ s

theorem decodeEnum_accessed (d : Bool) (etab : Nat) (e : Latch) (s : State) : Accessed rs ws 0 s (decodeEnum d etab e s) := by
  unfold decodeEnum
  split
  · exact respond_accessed _ s
  · split
    · exact respond_accessed _ s
    · exact raiseFault_accessed _ s

/-! ## Every command -/

/-- The greatest number of accesses of a command (R225). -/
def accessBound (i : Instr) (pollOuter : Nat) : Nat :=
  match i with
  | .txnXmit _ => 2 * (3 + pollOuter)
  | .txnRecv _ => 2 * (3 + pollOuter)
  | _ => 3 + pollOuter

/-- Whatever the command and the state, `exec` makes boundedly many accesses, at the command's own addresses, each
recorded once, and leaves the rest alone (R51, R52, R225). -/
theorem exec_accessed {i : Instr} {s t : State} (h : exec i s = .next t) :
    Accessed (readsFrom s.cfg i) (writesTo s.cfg i) (accessBound i s.cfg.pollOuter) s t := by
  cases i
  case bitmask => exact (command_accessed (inRange_accessed (respond_accessed _ s)) h).mono (Nat.zero_le _)
  case hasbit => exact (command_accessed (inRange_accessed (respond_accessed _ s)) h).mono (Nat.zero_le _)
  case getbit => exact (command_accessed (inRange_accessed (respond_accessed _ s)) h).mono (Nat.zero_le _)
  case getbits => exact (command_accessed (inRange_accessed (respond_accessed _ s)) h).mono (Nat.zero_le _)
  case getenum => exact (command_accessed (inRange_accessed (decodeEnum_accessed _ _ _ s)) h).mono (Nat.zero_le _)
  case setbit => exact (command_accessed (inRange_accessed (respond_accessed _ s)) h).mono (Nat.zero_le _)
  case setbits => exact (command_accessed (inRange_accessed (respond_accessed _ s)) h).mono (Nat.zero_le _)
  case togbit => exact (command_accessed (inRange_accessed (respond_accessed _ s)) h).mono (Nat.zero_le _)
  case regRd a =>
    exact (command_accessed (body := readRegister a) (n := 1) (memRead_accessed (by simp [readsFrom]) s) h).mono
      (by simp only [accessBound]; omega)
  case regWr a =>
    exact (command_accessed (body := fun s => respond (.ofFailure .none none) (memWrite a (operand 8 s.opA) s))
      (n := 1) (memWrite_accessed (by simp [writesTo]) (operand 8 s.opA) s) h).mono (by simp only [accessBound]; omega)
  case twWait =>
    exact (skippable_accessed (waitUntilReady_accessed (by simp [readsFrom])) h).mono
      (by simp only [accessBound]; omega)
  case twStart =>
    exact skippable_accessed
      (runProc_accessed (startProc_accessed (by simp [EventWithin, readsFrom, writesTo, eventData]))) h
  case twRstart =>
    exact skippable_accessed (require_accessed
      (runProc_accessed (rstartProc_accessed (by simp [EventWithin, readsFrom, writesTo, eventData])))) h
  case twStop =>
    exact skippable_accessed (runProc_accessed
      (stopProc_accessed (by simp [EventWithin, readsFrom, writesTo, eventData, eventStatus]))) h
  case twSlaw a =>
    exact skippable_accessed (require_accessed
      (runProc_accessed (slawProc_accessed (by simp [EventWithin, readsFrom, writesTo])))) h
  case twSlar a =>
    exact skippable_accessed (require_accessed
      (runProc_accessed (slarProc_accessed (by simp [EventWithin, readsFrom, writesTo])))) h
  case twSendb b =>
    exact skippable_accessed (require_accessed
      (runProc_accessed (sendbProc_accessed (by simp [EventWithin, readsFrom, writesTo])))) h
  case twRecvb a =>
    exact skippable_accessed (require_accessed (receiveByte_accessed
      (by simp [EventWithin, readsFrom, writesTo, eventData]) (by simp [readsFrom]))) h
  case twCfgm =>
    refine (command_accessed (n := 1) ?_ h).mono (by simp only [accessBound]; omega)
    unfold configureMaster
    split
    · exact memWrite_accessed (by simp [writesTo]) _ s
    · exact (raiseFault_accessed _ s).mono (by omega)
  case txnBegin =>
    exact command_accessed (require_accessed
      (beginTxn_accessed (by simp [EventWithin, readsFrom, writesTo, eventData]))) h
  case txnEnd =>
    exact command_accessed (require_accessed
      (endTxn_accessed (by simp [EventWithin, readsFrom, writesTo, eventData, eventStatus]))) h
  case txnXmit a =>
    exact skippable_accessed (require_accessed (runProc_accessed (linkProc_accessed
      (by simp [EventWithin, readsFrom, writesTo, eventData])
      (fun t ht => slawProc_accessed (by simp [EventWithin, readsFrom, writesTo, ht]))))) h
  case txnRecv a =>
    exact skippable_accessed (require_accessed (runProc_accessed (linkProc_accessed
      (by simp [EventWithin, readsFrom, writesTo, eventData])
      (fun t ht => slarProc_accessed (by simp [EventWithin, readsFrom, writesTo, ht]))))) h

/-! ## Every step -/

/-- Everything a step can do: wait, reset, run the command presented, or reject the word (60_exceptions.md R198,
70_reset_and_hazards.md R210, R211). -/
theorem step_cases {s t : State} (h : step s = .next t) :
    (s.inputs = [] ∧ t = s) ∨
    (∃ rest, s.inputs = .reset :: rest ∧ t = resetEngine (withInputs rest s)) ∨
    (∃ c rest i, s.inputs = .command c :: rest ∧ decode c.word = .ok i ∧
      exec i (present c (withInputs rest s)) = .next t) ∨
    (∃ c rest e, s.inputs = .command c :: rest ∧ decode c.word = .error e ∧
      t = raiseFault (if s.halted then .halted else .illegalCommand) (present c (withInputs rest s))) := by
  unfold step takeInput at h
  split at h
  · rename_i hi
    cases h
    exact .inl ⟨hi, rfl⟩
  · rename_i rest hi
    cases h
    exact .inr (.inl ⟨rest, hi, rfl⟩)
  · rename_i c rest hi
    unfold runCommand runWord at h
    split at h
    · rename_i i hd
      exact .inr (.inr (.inl ⟨c, rest, i, hi, hd, h⟩))
    · rename_i e hd
      cases h
      refine .inr (.inr (.inr ⟨c, rest, e, hi, hd, ?_⟩))
      show (if s.halted then _ else _) = _
      cases s.halted <;> rfl

/-- The step when the host presents a command whose word decodes (R79). -/
theorem step_command {s : State} {c : Command} {rest : List Input} {i : Instr} (hi : s.inputs = .command c :: rest)
    (hd : decode c.word = .ok i) : step s = exec i (present c (withInputs rest s)) := by
  simp only [step, takeInput, hi, runCommand, runWord, hd]

/-- The step when the word is illegal (R80). -/
theorem step_illegal {s : State} {c : Command} {rest : List Input} {e : DecodeReject}
    (hi : s.inputs = .command c :: rest) (hd : decode c.word = .error e) :
    step s = rejectWord (present c (withInputs rest s)) := by
  simp only [step, takeInput, hi, runCommand, runWord, hd]

/-- A latch given holds the value given (10_state.md R27). -/
theorem latchValue_given {given : Option Latch} {v : Latch} (h : given = some v) (draw : Nat) :
    latchValue given draw = v := by
  rw [h]
  rfl

end Sys2Proof.Machine
end

