-- ==== Sys2Proof/Laws/Outcomes.lean ====
section
/-! SUPPORT. The three ways a command can end, said once for all commands: rejected with a fault, skipped, or executed
(60_exceptions.md R193, R194, R198; 43_twi_transaction.md R151); and what an executed command leaves. -/

namespace Sys2Proof.Machine

/-! ## How a procedure of the driver ends (42_twi_driver.md R125) -/

/-- On success the procedure has moved `phase` and `dir` to `p` and `d`, on failure to `p'` and `d'`; the fault record
and the transaction state are as they were. -/
def ProcEnds (s : State) (p : Phase) (d : Dir) (p' : Phase) (d' : Dir) (r : Failure × State) : Prop :=
  (r.2.flt = s.flt ∧ r.2.halted = s.halted ∧ r.2.txnOpen = s.txnOpen ∧ r.2.txnStarted = s.txnStarted ∧
    r.2.firstFail = s.firstFail) ∧
  ((r.1 = .none ∧ r.2.phase = p ∧ r.2.dir = d) ∨ (r.1 ≠ .none ∧ r.2.phase = p' ∧ r.2.dir = d'))

theorem onSuccess_primitive_ends {s : State} {ev : BusEvent} {p : Phase} {d : Dir} {move : State → State}
    (hmove : ∀ ws rs, move (s.afterAccesses ws rs) = { s.afterAccesses ws rs with phase := p, dir := d }) :
    ProcEnds s p d s.phase s.dir (onSuccess move (primitive ev s)) := by
  obtain ⟨f, rs, h, -⟩ := primitive_accesses ev s
  rw [h]
  by_cases hf : f = .none
  · subst hf
    rw [onSuccess_none rfl, hmove]
    exact ⟨⟨rfl, rfl, rfl, rfl, rfl⟩, .inl ⟨rfl, rfl, rfl⟩⟩
  · rw [onSuccess_failed hf]
    exact ⟨⟨rfl, rfl, rfl, rfl, rfl⟩, .inr ⟨hf, rfl, rfl⟩⟩

theorem startProc_ends (s : State) : ProcEnds s .startSent .dirNone s.phase s.dir (startProc s) :=
  onSuccess_primitive_ends fun _ _ => rfl

theorem rstartProc_ends (s : State) : ProcEnds s .startSent .dirNone s.phase s.dir (rstartProc s) :=
  onSuccess_primitive_ends fun _ _ => rfl

theorem slawProc_ends (a : BitVec 7) (s : State) : ProcEnds s .addressSent .dirW s.phase s.dir (slawProc a s) :=
  onSuccess_primitive_ends fun _ _ => rfl

theorem slarProc_ends (a : BitVec 7) (s : State) : ProcEnds s .addressSent .dirR s.phase s.dir (slarProc a s) :=
  onSuccess_primitive_ends fun _ _ => rfl

theorem sendbProc_ends (b : Byte) (s : State) : ProcEnds s .dataTransferring s.dir s.phase s.dir (sendbProc b s) :=
  onSuccess_primitive_ends fun _ _ => rfl

theorem stopProc_ends (s : State) : ProcEnds s .idle .dirNone .stopPending .dirNone (stopProc s) := by
  have h : ProcEnds (moveTo .stopPending .dirNone s) .idle .dirNone .stopPending .dirNone (stopProc s) :=
    onSuccess_primitive_ends fun _ _ => rfl
  exact h

theorem waitUntilReady_ends (s : State) : ProcEnds s s.phase s.dir s.phase s.dir (waitUntilReady s) := by
  obtain ⟨f, rs, h, -⟩ := waitUntilReady_accesses s
  rw [h]
  refine ⟨⟨rfl, rfl, rfl, rfl, rfl⟩, ?_⟩
  by_cases hf : f = .none
  · exact .inl ⟨hf, rfl, rfl⟩
  · exact .inr ⟨hf, rfl, rfl⟩

/-- A linked address phase ends as the address phase does, or fails in one of the two primitives (R154, R155). -/
theorem linkProc_ends {address : State → Failure × State} {d : Dir}
    (h : ∀ t, ProcEnds t .addressSent d t.phase t.dir (address t)) (s : State) :
    ((linkProc address s).2.flt = s.flt ∧ (linkProc address s).2.halted = s.halted ∧
      (linkProc address s).2.txnOpen = s.txnOpen ∧ (linkProc address s).2.txnStarted = true ∧
      (linkProc address s).2.firstFail = s.firstFail) ∧
    (((linkProc address s).1 = .none ∧ (linkProc address s).2.phase = .addressSent ∧ (linkProc address s).2.dir = d) ∨
      ((linkProc address s).1 ≠ .none ∧
        (((linkProc address s).2.phase = s.phase ∧ (linkProc address s).2.dir = s.dir) ∨
          ((linkProc address s).2.phase = .startSent ∧ (linkProc address s).2.dir = .dirNone)))) := by
  unfold linkProc
  cases hst : s.txnStarted
  · obtain ⟨⟨h1, h2, h3, h4, h5⟩, he⟩ := h (setTxn s.txnOpen true s.firstFail s)
    refine ⟨⟨h1, h2, h3, h4, h5⟩, ?_⟩
    rcases he with he | he
    · exact .inl he
    · exact .inr ⟨he.1, .inl he.2⟩
  · obtain ⟨⟨r1, r2, r3, r4, r5⟩, hr⟩ := rstartProc_ends s
    simp only [if_true]
    rcases hp : rstartProc s with ⟨f, t⟩
    rw [hp] at r1 r2 r3 r4 r5 hr
    rcases hr with ⟨hf, hp', hd'⟩ | ⟨hf, hp', hd'⟩
    · replace hf : f = .none := hf
      subst hf
      obtain ⟨⟨h1, h2, h3, h4, h5⟩, he⟩ := h t
      refine ⟨⟨h1.trans r1, h2.trans r2, h3.trans r3, h4.trans (r4.trans hst), h5.trans r5⟩, ?_⟩
      rcases he with he | he
      · exact .inl he
      · exact .inr ⟨he.1, .inr ⟨he.2.1.trans hp', he.2.2.trans hd'⟩⟩
    · cases f
      · exact absurd rfl hf
      · exact ⟨⟨r1, r2, r3, r4.trans hst, r5⟩, .inr ⟨hf, .inl ⟨hp', hd'⟩⟩⟩
      · exact ⟨⟨r1, r2, r3, r4.trans hst, r5⟩, .inr ⟨hf, .inl ⟨hp', hd'⟩⟩⟩

/-! ## What an executed command leaves -/

/-- `dir` names a direction exactly after an address phase (10_state.md R22, R23). -/
abbrev DirFits (p : Phase) (d : Dir) : Prop := d ≠ .dirNone ↔ (p = .addressSent ∨ p = .dataTransferring)

/-- `txnStarted` and `firstFail` are clear while no transaction is open (10_state.md R24, R25). -/
abbrev TxnFits (o st : Bool) (f : Failure) : Prop := o = false → st = false ∧ f = .none

/-- The command executed: the fault record is as it was, the protocol and the transaction state stay consistent, and the
answer is a failure or, on success only, a result. -/
def Executed (s t : State) : Prop :=
  t.flt = s.flt ∧ t.halted = s.halted ∧
  (∃ f v, t.response = ⟨.noFault, false, f, v⟩ ∧ (v.isSome = true → f = .none)) ∧
  (DirFits s.phase s.dir → DirFits t.phase t.dir) ∧
  (TxnFits s.txnOpen s.txnStarted s.firstFail → TxnFits t.txnOpen t.txnStarted t.firstFail)

/-- A failure is recorded in an open transaction only. -/
theorem finish_fits {s t : State} (f : Failure) (v : Option Latch) (ho : t.txnOpen = s.txnOpen)
    (hs : t.txnStarted = s.txnStarted) (hf : t.firstFail = s.firstFail)
    (h : TxnFits s.txnOpen s.txnStarted s.firstFail) :
    TxnFits (finish f v t).txnOpen (finish f v t).txnStarted (finish f v t).firstFail := by
  intro hc
  have hc' : t.txnOpen = false := hc
  have h' := h (ho.symm.trans hc')
  exact ⟨hs.trans h'.1, by simp [finish, recordFailure, hc', hf, h'.2]⟩

/-- A command whose body is a procedure and whose answer is its failure. -/
theorem executed_of_ends {s : State} {p p' : Phase} {d d' : Dir} {proc : State → Failure × State}
    (h : ProcEnds s p d p' d' (proc s)) (h1 : DirFits s.phase s.dir → DirFits p d)
    (h2 : DirFits s.phase s.dir → DirFits p' d') : Executed s (runProc proc s) := by
  obtain ⟨⟨e1, e2, e3, e4, e5⟩, he⟩ := h
  refine ⟨e1, e2, ⟨_, none, rfl, by simp⟩, fun hd => ?_, finish_fits _ _ e3 e4 e5⟩
  rcases he with ⟨-, hp, hq⟩ | ⟨-, hp, hq⟩
  · show DirFits (proc s).2.phase (proc s).2.dir
    rw [hp, hq]
    exact h1 hd
  · show DirFits (proc s).2.phase (proc s).2.dir
    rw [hp, hq]
    exact h2 hd

theorem executed_deliver (v : Latch) (s : State) : Executed s (deliver v s) :=
  ⟨rfl, rfl, ⟨.none, some v, rfl, fun _ => rfl⟩, id, id⟩

/-- The three ways a command can end. -/
def Ends (i : Instr) (s t : State) : Prop :=
  (∃ c, c ≠ .noFault ∧ t = raiseFault c s ∧
    (c = .enumFatal → s.halted = false ∧ ∃ w etab lo hi, i = .getenum w false etab lo hi)) ∨
  (s.Skips ∧ Skippable i = true ∧ t = { s with response := .ofSkip s.firstFail }) ∨
  (s.Live ∧ Executed s t)

theorem ends_of_command {i : Instr} {s t : State} {body : State → State} (h : s.Live → Ends i s (body s))
    (he : command body s = .next t) : Ends i s t := by
  unfold command at he
  cases he
  split
  · exact .inl ⟨.halted, by simp, rfl, by simp⟩
  · rename_i hh
    exact h (by simpa using hh)

theorem ends_of_skippable {i : Instr} {s t : State} {body : State → State} (hi : Skippable i = true)
    (h : s.Live → Ends i s (body s)) (he : skippable body s = .next t) : Ends i s t := by
  refine ends_of_command (fun hl => ?_) he
  split
  · rename_i hs
    simp only [State.skipping, Bool.and_eq_true, bne_iff_ne, ne_eq] at hs
    exact .inr (.inl ⟨⟨hl, hs.1, hs.2⟩, hi, rfl⟩)
  · exact h hl

theorem ends_of_require {i : Instr} {s : State} {p : Bool} {body : State → State}
    (h : p = true → Ends i s (body s)) : Ends i s (require p body s) := by
  unfold require
  split
  · rename_i hp
    exact h hp
  · exact .inl ⟨.illegalSequence, by simp, rfl, by simp⟩

theorem ends_of_inRange {i : Instr} {s : State} {p : Bool} {body : State → State} (h : Ends i s (body s)) :
    Ends i s (inRange p body s) := by
  unfold inRange
  split
  · exact h
  · exact .inl ⟨.bitRange, by simp, rfl, by simp⟩

/-- A bit accessor command ends in a fault or in a result. -/
theorem ends_deliver {i : Instr} {s : State} (v : Latch) (h : s.Live) : Ends i s (deliver v s) :=
  .inr (.inr ⟨h, executed_deliver v s⟩)

theorem receiveByte_executed {s : State} (ack : Bool) (hp : afterAddress s.phase = true) :
    Executed s (receiveByte ack s) := by
  obtain ⟨f, rs, h, -⟩ := primitive_accesses (.rx ack) s
  unfold receiveByte
  rw [h]
  cases f
  · refine ⟨rfl, rfl, ⟨.none, _, rfl, fun _ => rfl⟩, fun hd => ?_, finish_fits _ _ rfl rfl rfl⟩
    have hdir := hd.2 (afterAddress_iff.1 hp)
    exact ⟨fun _ => .inr rfl, fun _ => hdir⟩
  · exact ⟨rfl, rfl, ⟨_, none, rfl, by simp⟩, id, finish_fits _ _ rfl rfl rfl⟩
  · exact ⟨rfl, rfl, ⟨_, none, rfl, by simp⟩, id, finish_fits _ _ rfl rfl rfl⟩

theorem beginTxn_executed (s : State) : Executed s (beginTxn s) := by
  obtain ⟨⟨e1, e2, e3, e4, e5⟩, he⟩ := startProc_ends (setTxn true false .none s)
  refine ⟨e1, e2, ⟨_, none, rfl, by simp⟩, fun hd => ?_, fun _ ho => by cases ho⟩
  show DirFits (startProc (setTxn true false .none s)).2.phase (startProc (setTxn true false .none s)).2.dir
  rcases he with ⟨-, hp, hq⟩ | ⟨-, hp, hq⟩
  · rw [hp, hq]
    decide
  · rw [hp, hq]
    exact hd

theorem endTxn_executed (s : State) : Executed s (endTxn s) := by
  obtain ⟨⟨e1, e2, e3, e4, e5⟩, he⟩ := stopProc_ends s
  refine ⟨e1, e2, ⟨_, none, rfl, by simp⟩, fun _ => ?_, fun _ _ => ⟨rfl, rfl⟩⟩
  show DirFits (stopProc s).2.phase (stopProc s).2.dir
  rcases he with ⟨-, hp, hq⟩ | ⟨-, hp, hq⟩ <;> rw [hp, hq] <;> decide

theorem link_executed {address : State → Failure × State} {d : Dir} (hd : d ≠ .dirNone)
    (h : ∀ t, ProcEnds t .addressSent d t.phase t.dir (address t)) {s : State} (hl : s.linkLegal = true) :
    Executed s (runProc (linkProc address) s) := by
  have ho : s.txnOpen = true := by
    simp only [State.linkLegal, Bool.and_eq_true] at hl
    exact hl.1
  obtain ⟨⟨e1, e2, e3, e4, e5⟩, he⟩ := linkProc_ends h s
  refine ⟨e1, e2, ⟨_, none, rfl, by simp⟩, fun hf => ?_, fun _ hc => ?_⟩
  · show DirFits (linkProc address s).2.phase (linkProc address s).2.dir
    rcases he with ⟨-, hp, hq⟩ | ⟨-, ⟨hp, hq⟩ | ⟨hp, hq⟩⟩ <;> rw [hp, hq]
    · simp [DirFits, hd]
    · exact hf
    · decide
  · exact absurd ((show (linkProc address s).2.txnOpen = false from hc).symm.trans (e3.trans ho)) (by simp)

/-! ## Every command -/

/-- Whatever the command and the state: rejected, skipped or executed. -/
theorem exec_ends {i : Instr} {s t : State} (h : exec i s = .next t) : Ends i s t := by
  cases i
  case bitmask => exact ends_of_command (fun hl => ends_of_inRange (ends_deliver _ hl)) h
  case hasbit => exact ends_of_command (fun hl => ends_of_inRange (ends_deliver _ hl)) h
  case getbit => exact ends_of_command (fun hl => ends_of_inRange (ends_deliver _ hl)) h
  case getbits => exact ends_of_command (fun hl => ends_of_inRange (ends_deliver _ hl)) h
  case getenum w hasdef etab lo hi =>
    refine ends_of_command (fun hl => ends_of_inRange ?_) h
    unfold decodeEnum
    split
    · exact ends_deliver _ hl
    · split
      · exact ends_deliver _ hl
      · rename_i hd
        simp only [Bool.not_eq_true] at hd
        subst hd
        exact .inl ⟨.enumFatal, by simp, rfl, fun _ => ⟨hl, _, _, _, _, rfl⟩⟩
  case setbit => exact ends_of_command (fun hl => ends_of_inRange (ends_deliver _ hl)) h
  case setbits => exact ends_of_command (fun hl => ends_of_inRange (ends_deliver _ hl)) h
  case togbit => exact ends_of_command (fun hl => ends_of_inRange (ends_deliver _ hl)) h
  case regRd a =>
    exact ends_of_command (body := readRegister a)
      (fun hl => .inr (.inr ⟨hl, rfl, rfl, ⟨.none, _, rfl, fun _ => rfl⟩, id, id⟩)) h
  case regWr a =>
    exact ends_of_command (body := fun s => respond (.ofFailure .none none) (memWrite a (operand 8 s.opA) s))
      (fun hl => .inr (.inr ⟨hl, rfl, rfl, ⟨.none, none, rfl, fun _ => rfl⟩, id, id⟩)) h
  case twWait =>
    exact ends_of_skippable rfl (fun hl => .inr (.inr ⟨hl, executed_of_ends (waitUntilReady_ends s) id id⟩)) h
  case twStart =>
    exact ends_of_skippable rfl
      (fun hl => .inr (.inr ⟨hl, executed_of_ends (startProc_ends s) (fun _ => by decide) id⟩)) h
  case twRstart =>
    exact ends_of_skippable rfl
      (fun hl => ends_of_require fun _ =>
        .inr (.inr ⟨hl, executed_of_ends (rstartProc_ends s) (fun _ => by decide) id⟩)) h
  case twStop =>
    exact ends_of_skippable rfl
      (fun hl => .inr (.inr ⟨hl, executed_of_ends (stopProc_ends s) (fun _ => by decide) (fun _ => by decide)⟩)) h
  case twSlaw a =>
    exact ends_of_skippable rfl
      (fun hl => ends_of_require fun _ =>
        .inr (.inr ⟨hl, executed_of_ends (slawProc_ends a s) (fun _ => by decide) id⟩)) h
  case twSlar a =>
    exact ends_of_skippable rfl
      (fun hl => ends_of_require fun _ =>
        .inr (.inr ⟨hl, executed_of_ends (slarProc_ends a s) (fun _ => by decide) id⟩)) h
  case twSendb b =>
    exact ends_of_skippable rfl
      (fun hl => ends_of_require fun hp =>
        .inr (.inr ⟨hl, executed_of_ends (sendbProc_ends b s)
          (fun hd => ⟨fun _ => .inr rfl, fun _ => hd.2 (afterAddress_iff.1 hp)⟩) id⟩)) h
  case twRecvb ack =>
    refine ends_of_skippable rfl (fun hl => ends_of_require fun hp => ?_) h
    simp only [Bool.and_eq_true] at hp
    exact .inr (.inr ⟨hl, receiveByte_executed ack hp.1⟩)
  case twCfgm =>
    refine ends_of_command (body := fun s => configureMaster s.opA.toNat s) (fun hl => ?_) h
    show Ends _ s (configureMaster s.opA.toNat s)
    unfold configureMaster
    split
    · exact .inr (.inr ⟨hl, rfl, rfl, ⟨.none, none, rfl, fun _ => rfl⟩, id, id⟩)
    · exact .inl ⟨.configRange, by simp, rfl, by simp⟩
  case txnBegin =>
    exact ends_of_command (fun hl => ends_of_require fun _ => .inr (.inr ⟨hl, beginTxn_executed s⟩)) h
  case txnEnd =>
    exact ends_of_command (fun hl => ends_of_require fun _ => .inr (.inr ⟨hl, endTxn_executed s⟩)) h
  case txnXmit a =>
    exact ends_of_skippable rfl
      (fun hl => ends_of_require fun hp =>
        .inr (.inr ⟨hl, link_executed (by simp) (slawProc_ends a) hp⟩)) h
  case txnRecv a =>
    exact ends_of_skippable rfl
      (fun hl => ends_of_require fun hp =>
        .inr (.inr ⟨hl, link_executed (by simp) (slarProc_ends a) hp⟩)) h

end Sys2Proof.Machine
end

