-- ==== Sys2Proof/Laws/PerInstr.lean ====
section
/-! SUPPORT. The family OwnRow: the word of every command selects that command's own row of the opcode map
(30_encoding.md R74), whatever its fields hold. -/

namespace Sys2Proof.Laws

/-- The mnemonic of a command (30_encoding.md R74). -/
def mnemonicOf : Instr → String
  | .bitmask _ _ _ => "BITMASK"
  | .hasbit _ _ => "HASBIT"
  | .getbit _ _ => "GETBIT"
  | .getbits _ _ _ => "GETBITS"
  | .getenum _ _ _ _ _ => "GETENUM"
  | .setbit _ _ => "SETBIT"
  | .setbits _ _ _ => "SETBITS"
  | .togbit _ _ => "TOGBIT"
  | .regRd _ => "REG.RD"
  | .regWr _ => "REG.WR"
  | .twWait => "TW.WAIT"
  | .twStart => "TW.START"
  | .twRstart => "TW.RSTART"
  | .twStop => "TW.STOP"
  | .twSlaw _ => "TW.SLAW"
  | .twSlar _ => "TW.SLAR"
  | .twSendb _ => "TW.SENDB"
  | .twRecvb _ => "TW.RECVB"
  | .twCfgm => "TW.CFGM"
  | .txnBegin => "TXN.BEGIN"
  | .txnEnd => "TXN.END"
  | .txnXmit _ => "TXN.XMIT"
  | .txnRecv _ => "TXN.RECV"

/-- The encoded word selects a row of the table, and that row is the command's own. -/
def OwnRow.Statement (i : Instr) : Prop :=
  ∃ r ∈ table, r.mnemonic = mnemonicOf i ∧ r.selects (encode i) = true

/-- The bits of a concatenation are masked part by part: the eight fields of format B. -/
theorem and_append8 {a b c d e f g h : Nat} (x0 m0 : BitVec a) (x1 m1 : BitVec b) (x2 m2 : BitVec c)
    (x3 m3 : BitVec d) (x4 m4 : BitVec e) (x5 m5 : BitVec f) (x6 m6 : BitVec g) (x7 m7 : BitVec h) :
    (x0 ++ x1 ++ x2 ++ x3 ++ x4 ++ x5 ++ x6 ++ x7) &&& (m0 ++ m1 ++ m2 ++ m3 ++ m4 ++ m5 ++ m6 ++ m7) =
      (x0 &&& m0) ++ (x1 &&& m1) ++ (x2 &&& m2) ++ (x3 &&& m3) ++ (x4 &&& m4) ++ (x5 &&& m5) ++ (x6 &&& m6) ++
        (x7 &&& m7) := by
  simp only [BitVec.and_append]

/-- The parts of formats R and T. -/
theorem and_append3 {a b c : Nat} (x0 m0 : BitVec a) (x1 m1 : BitVec b) (x2 m2 : BitVec c) :
    (x0 ++ x1 ++ x2) &&& (m0 ++ m1 ++ m2) = (x0 &&& m0) ++ (x1 &&& m1) ++ (x2 &&& m2) := by
  simp only [BitVec.and_append]

/-- The parts of format T when `imm8` holds a shorter field. -/
theorem and_append4 {a b c d : Nat} (x0 m0 : BitVec a) (x1 m1 : BitVec b) (x2 m2 : BitVec c) (x3 m3 : BitVec d) :
    (x0 ++ x1 ++ (x2 ++ x3)) &&& (m0 ++ m1 ++ (m2 ++ m3)) =
      (x0 &&& m0) ++ (x1 &&& m1) ++ ((x2 &&& m2) ++ (x3 &&& m3)) := by
  simp only [BitVec.and_append]

/-- A range command of format B under the mask of its row (30_encoding.md R71, R74). -/
theorem rangeWord_masked (op : BitVec 8) (w : Width) (hi lo : Nat) :
    formatB op w false 0 hi lo &&& 0xFF3FC0C0 = op ++ 0#2 ++ 0#1 ++ 0#5 ++ 0#2 ++ 0#6 ++ 0#2 ++ 0#6 := by
  refine (and_append8 op 0xFF#8 w.code 0#2 (BitVec.ofBool false) 1#1 (BitVec.ofNat 5 0) 31#5 0#2 3#2
    (BitVec.ofNat 6 hi) 0#6 0#2 3#2 (BitVec.ofNat 6 lo) 0#6).trans ?_
  rw [show op &&& 0xFF#8 = op from BitVec.and_allOnes]
  simp

/-- A single-bit command of format B under the mask of its row (30_encoding.md R71, R74). -/
theorem indexWord_masked (op : BitVec 8) (w : Width) (lo : Nat) :
    formatB op w false 0 0 lo &&& 0xFF3FFFC0 = op ++ 0#2 ++ 0#1 ++ 0#5 ++ 0#2 ++ 0#6 ++ 0#2 ++ 0#6 := by
  refine (and_append8 op 0xFF#8 w.code 0#2 (BitVec.ofBool false) 1#1 (BitVec.ofNat 5 0) 31#5 0#2 3#2
    (BitVec.ofNat 6 0) 63#6 0#2 3#2 (BitVec.ofNat 6 lo) 0#6).trans ?_
  rw [show op &&& 0xFF#8 = op from BitVec.and_allOnes]
  simp

/-- GETENUM's word under the mask of its row (30_encoding.md R71, R74). -/
theorem enumWord_masked (op : BitVec 8) (w : Width) (d : Bool) (e hi lo : Nat) :
    formatB op w d e hi lo &&& 0xFF00C0C0 = op ++ 0#2 ++ 0#1 ++ 0#5 ++ 0#2 ++ 0#6 ++ 0#2 ++ 0#6 := by
  refine (and_append8 op 0xFF#8 w.code 0#2 (BitVec.ofBool d) 0#1 (BitVec.ofNat 5 e) 0#5 0#2 3#2
    (BitVec.ofNat 6 hi) 0#6 0#2 3#2 (BitVec.ofNat 6 lo) 0#6).trans ?_
  rw [show op &&& 0xFF#8 = op from BitVec.and_allOnes]
  simp

/-- A format R word under the mask of its row (30_encoding.md R72, R74). -/
theorem regWord_masked (op : BitVec 8) (addr : Addr) : formatR op addr &&& 0xFFFF0000 = op ++ 0#8 ++ 0#16 := by
  refine (and_append3 op 0xFF#8 0#8 0xFF#8 addr 0#16).trans ?_
  rw [show op &&& 0xFF#8 = op from BitVec.and_allOnes]
  simp

/-- A format T word with a full `imm8` under the mask of its row (30_encoding.md R73, R74). -/
theorem byteWord_masked (op : BitVec 8) (b : Byte) : formatT op b &&& 0xFFFFFF00 = op ++ 0#16 ++ 0#8 := by
  refine (and_append3 op 0xFF#8 0#16 0xFFFF#16 b 0#8).trans ?_
  rw [show op &&& 0xFF#8 = op from BitVec.and_allOnes]
  simp

/-- A format T word with a slave address under the mask of its row (30_encoding.md R73, R74). -/
theorem addr7Word_masked (op : BitVec 8) (a : BitVec 7) :
    formatT op (0#1 ++ a) &&& 0xFFFFFF80 = op ++ 0#16 ++ (0#1 ++ 0#7) := by
  refine (and_append4 op 0xFF#8 0#16 0xFFFF#16 0#1 1#1 a 0#7).trans ?_
  rw [show op &&& 0xFF#8 = op from BitVec.and_allOnes]
  simp

/-- TW.RECVB's word under the mask of its row (30_encoding.md R73, R74). -/
theorem ackWord_masked (op : BitVec 8) (b : Bool) :
    formatT op (0#7 ++ BitVec.ofBool b) &&& 0xFFFFFFFE = op ++ 0#16 ++ (0#7 ++ 0#1) := by
  refine (and_append4 op 0xFF#8 0#16 0xFFFF#16 0#7 127#7 (BitVec.ofBool b) 0#1).trans ?_
  rw [show op &&& 0xFF#8 = op from BitVec.and_allOnes]
  simp

theorem OwnRow.bitmask (w : Width) (lo : Nat) (hi : Nat) : OwnRow.Statement (.bitmask w lo hi) :=
  ⟨table[0], List.getElem_mem _, rfl, beq_iff_eq.mpr ((rangeWord_masked 0x10 w hi lo).trans (by decide))⟩

theorem OwnRow.hasbit (w : Width) (lo : Nat) : OwnRow.Statement (.hasbit w lo) :=
  ⟨table[1], List.getElem_mem _, rfl, beq_iff_eq.mpr ((indexWord_masked 0x11 w lo).trans (by decide))⟩

theorem OwnRow.getbit (w : Width) (lo : Nat) : OwnRow.Statement (.getbit w lo) :=
  ⟨table[2], List.getElem_mem _, rfl, beq_iff_eq.mpr ((indexWord_masked 0x12 w lo).trans (by decide))⟩

theorem OwnRow.getbits (w : Width) (lo : Nat) (hi : Nat) : OwnRow.Statement (.getbits w lo hi) :=
  ⟨table[3], List.getElem_mem _, rfl, beq_iff_eq.mpr ((rangeWord_masked 0x13 w hi lo).trans (by decide))⟩

theorem OwnRow.getenum (w : Width) (hasdef : Bool) (etab : Nat) (lo : Nat) (hi : Nat) : OwnRow.Statement (.getenum w hasdef etab lo hi) :=
  ⟨table[4], List.getElem_mem _, rfl, beq_iff_eq.mpr ((enumWord_masked 0x14 w hasdef etab hi lo).trans (by decide))⟩

theorem OwnRow.setbit (w : Width) (lo : Nat) : OwnRow.Statement (.setbit w lo) :=
  ⟨table[5], List.getElem_mem _, rfl, beq_iff_eq.mpr ((indexWord_masked 0x15 w lo).trans (by decide))⟩

theorem OwnRow.setbits (w : Width) (lo : Nat) (hi : Nat) : OwnRow.Statement (.setbits w lo hi) :=
  ⟨table[6], List.getElem_mem _, rfl, beq_iff_eq.mpr ((rangeWord_masked 0x16 w hi lo).trans (by decide))⟩

theorem OwnRow.togbit (w : Width) (lo : Nat) : OwnRow.Statement (.togbit w lo) :=
  ⟨table[7], List.getElem_mem _, rfl, beq_iff_eq.mpr ((indexWord_masked 0x17 w lo).trans (by decide))⟩

theorem OwnRow.regRd (addr : Addr) : OwnRow.Statement (.regRd addr) :=
  ⟨table[8], List.getElem_mem _, rfl, beq_iff_eq.mpr ((regWord_masked 0x20 addr).trans (by decide))⟩

theorem OwnRow.regWr (addr : Addr) : OwnRow.Statement (.regWr addr) :=
  ⟨table[9], List.getElem_mem _, rfl, beq_iff_eq.mpr ((regWord_masked 0x21 addr).trans (by decide))⟩

theorem OwnRow.twWait : OwnRow.Statement .twWait := ⟨table[10], List.getElem_mem _, rfl, by decide⟩

theorem OwnRow.twStart : OwnRow.Statement .twStart := ⟨table[11], List.getElem_mem _, rfl, by decide⟩

theorem OwnRow.twRstart : OwnRow.Statement .twRstart := ⟨table[12], List.getElem_mem _, rfl, by decide⟩

theorem OwnRow.twStop : OwnRow.Statement .twStop := ⟨table[13], List.getElem_mem _, rfl, by decide⟩

theorem OwnRow.twSlaw (addr7 : BitVec 7) : OwnRow.Statement (.twSlaw addr7) :=
  ⟨table[14], List.getElem_mem _, rfl, beq_iff_eq.mpr ((addr7Word_masked 0x44 addr7).trans (by decide))⟩

theorem OwnRow.twSlar (addr7 : BitVec 7) : OwnRow.Statement (.twSlar addr7) :=
  ⟨table[15], List.getElem_mem _, rfl, beq_iff_eq.mpr ((addr7Word_masked 0x45 addr7).trans (by decide))⟩

theorem OwnRow.twSendb (imm8 : Byte) : OwnRow.Statement (.twSendb imm8) :=
  ⟨table[16], List.getElem_mem _, rfl, beq_iff_eq.mpr ((byteWord_masked 0x46 imm8).trans (by decide))⟩

theorem OwnRow.twRecvb (ack : Bool) : OwnRow.Statement (.twRecvb ack) :=
  ⟨table[17], List.getElem_mem _, rfl, beq_iff_eq.mpr ((ackWord_masked 0x47 ack).trans (by decide))⟩

theorem OwnRow.twCfgm : OwnRow.Statement .twCfgm := ⟨table[18], List.getElem_mem _, rfl, by decide⟩

theorem OwnRow.txnBegin : OwnRow.Statement .txnBegin := ⟨table[19], List.getElem_mem _, rfl, by decide⟩

theorem OwnRow.txnEnd : OwnRow.Statement .txnEnd := ⟨table[20], List.getElem_mem _, rfl, by decide⟩

theorem OwnRow.txnXmit (addr7 : BitVec 7) : OwnRow.Statement (.txnXmit addr7) :=
  ⟨table[21], List.getElem_mem _, rfl, beq_iff_eq.mpr ((addr7Word_masked 0x52 addr7).trans (by decide))⟩

theorem OwnRow.txnRecv (addr7 : BitVec 7) : OwnRow.Statement (.txnRecv addr7) :=
  ⟨table[22], List.getElem_mem _, rfl, beq_iff_eq.mpr ((addr7Word_masked 0x53 addr7).trans (by decide))⟩

end Sys2Proof.Laws
end

