-- ==== Sys2Proof/Laws/Pseudo.lean ====
section
/-! SUPPORT. What the host gets from one command and from a read-modify-write (30_encoding.md R85, 41_register_access.md
R113). -/

namespace Sys2Proof.Machine

/-! ## One command of the host -/

/-- Presenting a command draws no answer of the peripheral. -/
@[simp] theorem present_upcoming (c : Command) (s : State) (k : Nat) : (present c s).upcoming k = s.upcoming k := rfl

/-- The host gets the response of the command that its word decodes to. -/
theorem issue_of_exec {c : Command} {i : Instr} {s t : State} (hd : decode c.word = .ok i)
    (he : exec i (present c s) = .next t) : issue c s = (t.response, t) := by
  simp [issue, runCommand, runWord, hd, he]

/-- The word of REG.RD is read back. -/
theorem decode_regRd (a : Addr) : decode (encode (.regRd a)) = .ok (.regRd a) := by
  have h := decode_of_selects (r := table[8]) (List.getElem_mem _) (w := encode (.regRd a))
    (beq_iff_eq.mpr ((Laws.regWord_masked _ _).trans (by decide)))
  exact h.trans (congrArg (fun x => Except.ok (Instr.regRd x)) (fieldAddr_formatR _ _))

/-- The word of REG.WR is read back. -/
theorem decode_regWr (a : Addr) : decode (encode (.regWr a)) = .ok (.regWr a) := by
  have h := decode_of_selects (r := table[9]) (List.getElem_mem _) (w := encode (.regWr a))
    (beq_iff_eq.mpr ((Laws.regWord_masked _ _).trans (by decide)))
  exact h.trans (congrArg (fun x => Except.ok (Instr.regWr x)) (fieldAddr_formatR _ _))

/-! ## A read-modify-write -/

/-- The state after the read: the host has presented REG.RD and it has delivered the byte. -/
def State.afterRead (s : State) (a : Addr) : State :=
  { (present (plain (.regRd a)) s).afterAccesses [] [a] with response := .success (some (zext64 (s.upcoming 0))) }

@[simp] theorem afterRead_trace (s : State) (a : Addr) : (s.afterRead a).trace = s.trace ++ [.read a (s.upcoming 0)] := by
  simp [State.afterRead, State.afterAccesses]

@[simp] theorem afterRead_halted (s : State) (a : Addr) : (s.afterRead a).halted = s.halted := rfl

/-- In a live block the host gets the byte the peripheral answers. -/
theorem issue_regRd {s : State} (h : s.Live) (a : Addr) :
    issue (plain (.regRd a)) s = (.success (some (zext64 (s.upcoming 0))), s.afterRead a) := by
  refine issue_of_exec (t := s.afterRead a) (decode_regRd a) ?_
  rw [exec, execRegRd, command_live (by exact h), readRegister, memRead_eq]
  rfl

/-- The middle command delivers `v`: the byte written is the low byte of `v`. -/
theorem issueEdit_trace {s t : State} (h : s.Live) {a : Addr} {e : Edit} {r : Response} {v : Latch}
    (hm : issue (e.command (zext64 (s.upcoming 0))) (s.afterRead a) = (r, t)) (hr : r.result = some v) (ht : t.Live) :
    (issueEdit a e s).2.trace = t.trace ++ [.write a (operand 8 v)] := by
  simp only [issueEdit, issue_regRd h, Response.success, hm, hr]
  rw [issue_of_exec (decode_regWr a) (by rw [exec, execRegWr, command_live (by exact ht), memWrite_eq])]
  simp [respond, State.afterAccesses, present, latchValue]

/-- The middle command delivers nothing: the expansion stops there (41_register_access.md R113). -/
theorem issueEdit_stops {s t : State} (h : s.Live) {a : Addr} {e : Edit} {r : Response}
    (hm : issue (e.command (zext64 (s.upcoming 0))) (s.afterRead a) = (r, t)) (hr : r.result = none) :
    (issueEdit a e s).2 = t := by
  simp only [issueEdit, issue_regRd h, Response.success, hm, hr]

end Sys2Proof.Machine
end

