-- ==== Sys2Proof/Machine/Assembler.lean ====
section
/-! DEFINITION. The assembler syntax of 30_encoding.md R81 and R86 as a total function on characters: one statement a
line, blocks opened and closed by lines of their own. Conventions the rules leave open are marked here and in log 17. -/

namespace Sys2Proof.Machine

/-! ## Tokens -/

/-- The brace that opens a block. -/
def openBrace : Char := Char.ofNat 123

/-- The brace that closes a block. -/
def closeBrace : Char := Char.ofNat 125

def isSeparator (c : Char) : Bool := c == ' ' || c == ',' || c == '\t' || c == '\r'

def isBracket (c : Char) : Bool := c == '[' || c == ']' || c == openBrace || c == closeBrace

def closeToken (acc : List Char) (rest : List (List Char)) : List (List Char) :=
  if acc.isEmpty then rest else acc.reverse :: rest

/-- The tokens of one line. "A comment starts with `--`" (30_encoding.md R81). DESIGN CHOICE (log 17): blanks, tabs and
commas all separate and none is required where a bracket does, and a comment may start anywhere in a line. -/
def tokenize : List Char → List Char → List (List Char)
  | [], acc => closeToken acc []
  | c :: cs, acc =>
    if c == '-' && cs.head? == some '-' then closeToken acc []
    else if isSeparator c then closeToken acc (tokenize cs [])
    else if isBracket c then closeToken acc ([c] :: tokenize cs [])
    else tokenize cs (c :: acc)

/-! ## Numbers: "decimal, or hexadecimal with `0x`, or binary with `0b`, and `_` may separate digits" (R81) -/

def digitValue (c : Char) : Option Nat :=
  let n := c.toNat
  if 48 ≤ n ∧ n ≤ 57 then some (n - 48)
  else if 65 ≤ n ∧ n ≤ 70 then some (n - 55)
  else if 97 ≤ n ∧ n ≤ 102 then some (n - 87)
  else none

/-- The digits of a number in a base; `acc` is absent until a digit has been seen. "`_` may separate digits" (R81) does not
say where else `_` may stand; DESIGN CHOICE (log 17): every `_` of a number is skipped, one before the first digit, after
the last, after `0x` or `0b`, or doubled, too; a number needs one digit. -/
def parseDigits (base : Nat) : List Char → Option Nat → Option Nat
  | [], acc => acc
  | c :: cs, acc =>
    if c == '_' then parseDigits base cs acc
    else
      match digitValue c with
      | some d => if d < base then parseDigits base cs (some (acc.getD 0 * base + d)) else none
      | none => none

def parseNumber : List Char → Option Nat
  | '0' :: 'x' :: cs => parseDigits 16 cs none
  | '0' :: 'b' :: cs => parseDigits 2 cs none
  | cs => parseDigits 10 cs none

/-- A number below a bound. -/
def parseBelow (bound : Nat) (t : List Char) : Option Nat :=
  match parseNumber t with
  | some n => if n < bound then some n else none
  | none => none

def parseAddr7 (t : List Char) : Option (BitVec 7) := (parseBelow 128 t).map (BitVec.ofNat 7)
def parseByte (t : List Char) : Option Byte := (parseBelow 256 t).map (BitVec.ofNat 8)
def parseAddr (t : List Char) : Option Addr := (parseBelow 65536 t).map (BitVec.ofNat 16)
def parseLatch (t : List Char) : Option Latch := (parseBelow (2 ^ 64) t).map (BitVec.ofNat 64)

/-! ## Options after the fields: `A=`, `B=`, `etab=`, `default` (R81) -/

structure LineOptions where
  a : Option Latch
  b : Option Latch
  etab : Option Nat
  dflt : Bool
  deriving DecidableEq, Repr

def LineOptions.empty : LineOptions := ⟨none, none, none, false⟩

/-- One option token; none where it is no option or is given twice. -/
def takeOption (o : LineOptions) (t : List Char) : Option LineOptions :=
  match t with
  | 'A' :: '=' :: cs => if o.a.isSome then none else (parseLatch cs).map (fun v => { o with a := some v })
  | 'B' :: '=' :: cs => if o.b.isSome then none else (parseLatch cs).map (fun v => { o with b := some v })
  | 'e' :: 't' :: 'a' :: 'b' :: '=' :: cs =>
    if o.etab.isSome then none else (parseBelow 32 cs).map (fun v => { o with etab := some v })
  | cs => if cs == "default".toList && !o.dflt then some { o with dflt := true } else none

/-- The options after the fields. R81 writes `[A=value] [B=value]`, and `etab=` before `default`, and does not say whether
another order is accepted; DESIGN CHOICE (log 17): they may stand in any order, each once, and a latch that the command
does not read may be given too. -/
def parseOptions : List (List Char) → LineOptions → Option LineOptions
  | [], o => some o
  | t :: ts, o =>
    match takeOption o t with
    | some o' => parseOptions ts o'
    | none => none

/-- The latches alone may follow every command but GETENUM. -/
def parseLatches (ts : List (List Char)) : Option LineOptions :=
  match parseOptions ts .empty with
  | some o => if o.etab.isNone && !o.dflt then some o else none
  | none => none

/-! ## Commands -/

/-- `.w`, "one of `.8 .16 .32 .64`" (R81). -/
def parseWidth (t : List Char) : Option Width :=
  if t == "8".toList then some .w8
  else if t == "16".toList then some .w16
  else if t == "32".toList then some .w32
  else if t == "64".toList then some .w64
  else none

/-- A mnemonic token split at its first dot. -/
def splitDot (t : List Char) : List Char × List Char := (t.takeWhile (· != '.'), (t.dropWhile (· != '.')).drop 1)

/-- A bit range `[lo,hi]`, and what follows it. -/
def parseRange (bound : Nat) (ts : List (List Char)) : Option (Nat × Nat × List (List Char)) :=
  match ts with
  | ['['] :: l :: h :: [']'] :: rest =>
    match parseBelow bound l, parseBelow bound h with
    | some lo, some hi => some (lo, hi, rest)
    | _, _ => none
  | _ => none

/-- An instruction with the latches that follow it. -/
def withOptions (i : Instr) (ts : List (List Char)) : Option Command :=
  (parseLatches ts).map (fun o => ⟨encode i, o.a, o.b⟩)

/-- The range commands of format B: `MNEMONIC.w [lo,hi]`. -/
def parseRangeCommand (make : Nat → Nat → Instr) (ts : List (List Char)) : Option Command :=
  match parseRange 64 ts with
  | some (lo, hi, rest) => withOptions (make lo hi) rest
  | none => none

/-- The single-bit commands of format B: `MNEMONIC.w i`. -/
def parseIndexCommand (make : Nat → Instr) (ts : List (List Char)) : Option Command :=
  match ts with
  | t :: rest =>
    match parseBelow 64 t with
    | some lo => withOptions (make lo) rest
    | none => none
  | [] => none

/-- `GETENUM.w [lo,hi] etab=n [default]` (R81). -/
def parseGetenum (w : Width) (ts : List (List Char)) : Option Command :=
  match parseRange 64 ts with
  | some (lo, hi, rest) =>
    match parseOptions rest .empty with
    | some o => o.etab.map (fun e => ⟨encode (.getenum w o.dflt e lo hi), o.a, o.b⟩)
    | none => none
  | none => none

/-- The commands of format B. -/
def parseFormatB (name : List Char) (w : Width) (ts : List (List Char)) : Option Command :=
  if name == "BITMASK".toList then parseRangeCommand (.bitmask w) ts
  else if name == "HASBIT".toList then parseIndexCommand (.hasbit w) ts
  else if name == "GETBIT".toList then parseIndexCommand (.getbit w) ts
  else if name == "GETBITS".toList then parseRangeCommand (.getbits w) ts
  else if name == "GETENUM".toList then parseGetenum w ts
  else if name == "SETBIT".toList then parseIndexCommand (.setbit w) ts
  else if name == "SETBITS".toList then parseRangeCommand (.setbits w) ts
  else if name == "TOGBIT".toList then parseIndexCommand (.togbit w) ts
  else none

/-- The commands without fields. -/
def parseBare (m : List Char) : Option Instr :=
  if m == "TW.WAIT".toList then some .twWait
  else if m == "TW.START".toList then some .twStart
  else if m == "TW.RSTART".toList then some .twRstart
  else if m == "TW.STOP".toList then some .twStop
  else if m == "TW.CFGM".toList then some .twCfgm
  else if m == "TXN.BEGIN".toList then some .txnBegin
  else if m == "TXN.END".toList then some .txnEnd
  else none

/-- "`ack` is written `ACK` (1) or `NACK` (0)" (R81). -/
def parseAck (t : List Char) : Option Bool :=
  if t == "ACK".toList then some true else if t == "NACK".toList then some false else none

/-- The commands of formats R and T with one field. -/
def parseOneField (m t : List Char) : Option Instr :=
  if m == "REG.RD".toList then (parseAddr t).map .regRd
  else if m == "REG.WR".toList then (parseAddr t).map .regWr
  else if m == "TW.SLAW".toList then (parseAddr7 t).map .twSlaw
  else if m == "TW.SLAR".toList then (parseAddr7 t).map .twSlar
  else if m == "TW.SENDB".toList then (parseByte t).map .twSendb
  else if m == "TW.RECVB".toList then (parseAck t).map .twRecvb
  else if m == "TXN.XMIT".toList then (parseAddr7 t).map .txnXmit
  else if m == "TXN.RECV".toList then (parseAddr7 t).map .txnRecv
  else none

/-- One command line (R81). -/
def parseCommand (ts : List (List Char)) : Option Command :=
  match ts with
  | [] => none
  | m :: rest =>
    match parseWidth (splitDot m).2 with
    | some w => parseFormatB (splitDot m).1 w rest
    | none =>
      match parseBare m with
      | some i => withOptions i rest
      | none =>
        match rest with
        | [] => none
        | t :: more =>
          match parseOneField m t with
          | some i => withOptions i more
          | none => none

/-! ## Pseudo-instructions (R86) -/

/-- A list of bytes in brackets, and nothing after it. -/
def parseBytes : List (List Char) → Option (List Byte)
  | [[']']] => some []
  | t :: ts =>
    match parseByte t, parseBytes ts with
    | some b, some bs => some (b :: bs)
    | _, _ => none
  | [] => none

/-- `REG.RMW addr, [lo,hi], x` (R86). DESIGN CHOICE (log 17): the single-bit forms, which 41_register_access.md R113
names and gives no text, are `REG.RMW addr, i, x` (SETBIT) and `REG.RMW addr, i` (TOGBIT). -/
def parseRmw (ts : List (List Char)) : Option Simple :=
  match ts with
  | t :: rest =>
    match parseAddr t, parseRange 64 rest, rest with
    | some addr, some (lo, hi, [x]), _ => (parseLatch x).map (fun x => .rmw addr (.setbits lo hi x))
    | some addr, none, [i, x] =>
      match parseBelow 64 i, parseLatch x with
      | some i, some x => some (.rmw addr (.setbit i x))
      | _, _ => none
    | some addr, none, [i] => (parseBelow 64 i).map (fun i => .rmw addr (.togbit i))
    | _, _, _ => none
  | [] => none

/-- The operands of a helper after its name and its address (R86, 44_twi_slave_node.md R181). -/
def parseNodeHelper (name : List Char) (ts : List (List Char)) : Option NodeHelper :=
  if name == "WRREG".toList then
    match ts with
    | [r, n, v] =>
      match parseByte r, parseNumber n, parseNumber v with
      | some r, some n, some v => some (.wrreg r n v)
      | _, _, _ => none
    | _ => none
  else if name == "WRRANGE".toList then
    match parseRange 256 ts with
    | some (lo, hi, [v]) => (parseNumber v).map (.wrrange lo hi)
    | _ => none
  else if name == "RDREG".toList then
    match ts with
    | [r, n] =>
      match parseByte r, parseNumber n with
      | some r, some n => some (.rdreg r n)
      | _, _ => none
    | _ => none
  else if name == "RDRANGE".toList then
    match parseRange 256 ts with
    | some (lo, hi, []) => some (.rdrange lo hi)
    | _ => none
  else if name == "RDBUF".toList then
    match parseRange 256 ts with
    | some (lo, hi, [cap]) => (parseNumber cap).map (.rdbuf lo hi)
    | _ => none
  else if name == "WRBUF".toList then
    match parseRange 256 ts with
    | some (lo, hi, ['['] :: bytes) => (parseBytes bytes).map (.wrbuf lo hi)
    | _ => none
  else none

/-! ## Lines and programs -/

/-- What one line is. -/
inductive Line where
  | blank
  | stmt (s : Stmt)
  | opening (b : Block)
  | closing
  deriving DecidableEq, Repr

/-- The block lines: `TXN`, `XMIT a` and `RECV a` with an opening brace, and the closing brace (R86). -/
def parseBlockLine (ts : List (List Char)) : Option Line :=
  match ts with
  | [m] => if m == [closeBrace] then some .closing else none
  | [m, t] => if m == "TXN".toList && t == [openBrace] then some (.opening .txn) else none
  | [m, a, t] =>
    if t == [openBrace] then
      if m == "XMIT".toList then (parseAddr7 a).map (fun a => .opening (.xmit a))
      else if m == "RECV".toList then (parseAddr7 a).map (fun a => .opening (.recv a))
      else none
    else none
  | _ => none

/-- The statement lines: a command, REG.RMW, a helper, NODE, or a node form (R81, R86). -/
def parseStmtLine (ts : List (List Char)) : Option Stmt :=
  match ts with
  | [] => none
  | m :: rest =>
    if m == "REG.RMW".toList then (parseRmw rest).map .simple
    else if m == "NODE".toList then
      match rest with
      | [a] => (parseAddr7 a).map .node
      | _ => none
    else if (splitDot m).1 == "NODE".toList then (parseNodeHelper (splitDot m).2 rest).map .nodeHelper
    else
      match parseCommand ts with
      | some c => some (.simple (.command c))
      | none =>
        match rest with
        | [] => none
        | a :: more =>
          match parseAddr7 a, parseNodeHelper m more with
          | some a, some h => some (.helper (h.bind a))
          | _, _ => none

/-- One line of assembler text; none where the assembler rejects it. -/
def parseLine (cs : List Char) : Option Line :=
  match tokenize cs [] with
  | [] => some .blank
  | ts =>
    match parseBlockLine ts with
    | some l => some l
    | none => (parseStmtLine ts).map .stmt

/-- A program while it is read: what the innermost open block holds so far, and, innermost first, each open block with
what stands before it. -/
structure Reading where
  here : Program
  outer : List (Block × Program)
  deriving DecidableEq, Repr

/-- The next line of a program; none where it closes a block that none has opened. DESIGN CHOICE (log 17): any statement
and any block may stand in any body; what may not stand where (R157, R168) is for `Program.expand` to reject. -/
def takeLine (r : Reading) : Line → Option Reading
  | .blank => some r
  | .stmt s => some { r with here := r.here.append (.stmt s .done) }
  | .opening b => some ⟨.done, (b, r.here) :: r.outer⟩
  | .closing =>
    match r.outer with
    | [] => none
    | (b, before) :: outer => some ⟨before.append (.block b r.here .done), outer⟩

/-- The program given line by line; none where a line is rejected or the braces do not match. -/
def parseProgram : List (List Char) → Reading → Option Program
  | [], r => if r.outer.isEmpty then some r.here else none
  | cs :: rest, r =>
    match parseLine cs with
    | some l =>
      match takeLine r l with
      | some r => parseProgram rest r
      | none => none
    | none => none

/-! ## Latches a command reads -/

/-- The latches an instruction reads (30_encoding.md R74, column "latches"). -/
def latchesRead : Instr → Bool × Bool
  | .bitmask _ _ _ => (false, false)
  | .hasbit _ _ => (true, false)
  | .getbit _ _ => (true, false)
  | .getbits _ _ _ => (true, false)
  | .getenum _ hasdef _ _ _ => (true, hasdef)
  | .setbit _ _ => (true, true)
  | .setbits _ _ _ => (true, true)
  | .togbit _ _ => (true, false)
  | .regRd _ => (false, false)
  | .regWr _ => (true, false)
  | .twWait => (false, false)
  | .twStart => (false, false)
  | .twRstart => (false, false)
  | .twStop => (false, false)
  | .twSlaw _ => (false, false)
  | .twSlar _ => (false, false)
  | .twSendb _ => (false, false)
  | .twRecvb _ => (false, false)
  | .twCfgm => (true, false)
  | .txnBegin => (false, false)
  | .txnEnd => (false, false)
  | .txnXmit _ => (false, false)
  | .txnRecv _ => (false, false)

/-- "a latch not given is unspecified, and a command that reads it must be given it" (30_encoding.md R81). DESIGN CHOICE
(log 17): R81's own examples `GETENUM.8 [0,1] etab=3 default B=7` and `GETENUM.8 [0,1] etab=3` give no `A=`, though
GETENUM reads `opA` (R74). The model takes them as examples of how a line is written, so `parseLine` reads them, and the
requirement as the rule for a program, so `assemble` rejects a program that holds one. -/
def latchesGiven (c : Command) : Bool :=
  match decode c.word with
  | .ok i => (!(latchesRead i).1 || c.opA.isSome) && (!(latchesRead i).2 || c.opB.isSome)
  | .error _ => true

def Simple.latchesGiven : Simple → Bool
  | .command c => Sys2Proof.Machine.latchesGiven c
  | .rmw _ _ => true

/-- A program text, line by line, as the list the host runs; none where the assembler rejects it. -/
def assemble (lines : List (List Char)) : Option (List Simple) :=
  match parseProgram lines ⟨.done, []⟩ with
  | some p =>
    match p.expand false none with
    | some (ps, _) => if ps.all Simple.latchesGiven then some ps else none
    | none => none
  | none => none

end Sys2Proof.Machine
end

