-- ==== Sys2Proof/Tests/Slice0.lean ====
section
/-! SUPPORT. The model's own tests. Expected values come from the spec: 95_test_vectors.md (the vector is named beside
each), 30_encoding.md for the words, and the parameter set AVR328 of 00_scope.md R9 (log 19). The last part shows, for
every statement with hypotheses, states and operands that meet them. -/

namespace Sys2Proof.Tests

open Sys2Proof.Machine

/-! ## Fixtures -/

/-- `AVR328` is a configuration the spec allows (00_scope.md R6, R8). -/
theorem test_avr328_valid : Config.avr328.Valid := by decide

/-- The parameter set `AVR328` (00_scope.md R9) with the table `ENUM[3]` of 95_test_vectors.md section 2.1. -/
def avr : Config := { Config.avr328 with enums := [⟨3, 0, 10⟩, ⟨3, 1, 11⟩, ⟨3, 2, 12⟩] }

/-- `AVR328/P3`: three polls (95_test_vectors.md section 0). -/
def avrP3 : Config := { avr with pollOuter := 3 }

/-- A state with a configuration, a phase, a direction and pending answers, otherwise as after reset. -/
def inPhase (c : Config) (p : Phase) (d : Dir) (answers : List Byte) : State :=
  { State.reset with cfg := c, phase := p, dir := d, answers := answers }

/-- The same inside an open transaction. -/
def inTxn (c : Config) (p : Phase) (d : Dir) (started : Bool) (f : Failure) (answers : List Byte) : State :=
  { inPhase c p d answers with txnOpen := true, txnStarted := started, firstFail := f }

/-- A state with the latches loaded, otherwise as after reset. -/
def withOperands (a b : Latch) : State := { inPhase avr .idle .dirNone [] with opA := a, opB := b }

/-- The block halted. -/
def halt : State := { inPhase avr .idle .dirNone [] with halted := true, flt := 1 }

def wr (a : Addr) (v : Byte) : Access := .write a v
def rd (a : Addr) (v : Byte) : Access := .read a v

/-- `ok`, with a result or without (95_test_vectors.md section 0). -/
def ok (v : Option Latch) : Response := .success v

/-- `fault n`: every other field 0. -/
def faulted (c : FaultCause) : Response := ⟨c, false, .none, none⟩

/-- What a test looks at: the response, the accesses made and where the protocol stands. -/
def seen (o : Host.Outcome State Fault Refusal) : Option (Response × List Access × Phase × Dir) :=
  match o with
  | .next t => some (t.response, t.trace, t.phase, t.dir)
  | .fault _ => none
  | .refused _ => none

/-- The response alone. -/
def answer (o : Host.Outcome State Fault Refusal) : Option Response := (seen o).map (fun x => x.1)

/-- The transaction state, `FLT` and `halted`. -/
def record (o : Host.Outcome State Fault Refusal) : Option (Bool × Bool × Failure × BitVec 6 × Bool) :=
  match o with
  | .next t => some (t.txnOpen, t.txnStarted, t.firstFail, t.flt, t.halted)
  | .fault _ => none
  | .refused _ => none

/-- The next state of an outcome. -/
def after (o : Host.Outcome State Fault Refusal) : State :=
  match o with
  | .next t => t
  | .fault _ => State.reset
  | .refused _ => State.reset

/-! ## WellFormed refuses what no word can hold (30_encoding.md R71) -/

theorem test_wellFormed_accepts_the_largest_fields :
    WellFormed (.getenum .w64 true 31 63 63) = true ∧ WellFormed (.hasbit .w8 63) = true := by decide

theorem test_wellFormed_accepts_a_reversed_range : WellFormed (.bitmask .w8 5 2) = true := by decide

theorem test_wellFormed_refuses_lo_64 :
    [Instr.bitmask .w64 64 63, .hasbit .w64 64, .getbit .w64 64, .getbits .w64 64 63, .getenum .w64 false 0 64 63,
      .setbit .w64 64, .setbits .w64 64 63, .togbit .w64 64].all (fun i => !WellFormed i) = true := by decide

theorem test_wellFormed_refuses_hi_64 :
    [Instr.bitmask .w64 0 64, .getbits .w64 0 64, .getenum .w64 false 0 0 64, .setbits .w64 0 64].all
      (fun i => !WellFormed i) = true := by decide

theorem test_wellFormed_refuses_etab_32 : WellFormed (.getenum .w8 false 32 0 1) = false := by decide

/-! ## Decoding: words written out field by field, `op wsel hasdef etab 00 hi 00 lo` (R71), `op 00000000 addr` (R72),
`op 0000000000000000 imm8` (R73) -/

theorem test_decode_formatB :
    decode 0b00010000_01_0_00000_00_001011_00_000100 = .ok (.bitmask .w16 4 11) ∧
    decode 0b00010001_00_0_00000_00_000000_00_000111 = .ok (.hasbit .w8 7) ∧
    decode 0b00010010_10_0_00000_00_000000_00_011111 = .ok (.getbit .w32 31) ∧
    decode 0b00010011_11_0_00000_00_111111_00_100000 = .ok (.getbits .w64 32 63) ∧
    decode 0b00010100_00_1_00011_00_000001_00_000000 = .ok (.getenum .w8 true 3 0 1) ∧
    decode 0b00010101_01_0_00000_00_000000_00_010000 = .ok (.setbit .w16 16) ∧
    decode 0b00010110_00_0_00000_00_000010_00_000000 = .ok (.setbits .w8 0 2) ∧
    decode 0b00010111_11_0_00000_00_000000_00_111111 = .ok (.togbit .w64 63) := by decide

theorem test_decode_formatR :
    decode 0b00100000_00000000_0000000010111001 = .ok (.regRd 0x00B9) ∧
    decode 0b00100001_00000000_0000000010111000 = .ok (.regWr 0x00B8) := by decide

theorem test_decode_formatT_driver :
    decode 0b01000000_0000000000000000_00000000 = .ok .twWait ∧
    decode 0b01000001_0000000000000000_00000000 = .ok .twStart ∧
    decode 0b01000010_0000000000000000_00000000 = .ok .twRstart ∧
    decode 0b01000011_0000000000000000_00000000 = .ok .twStop ∧
    decode 0b01000100_0000000000000000_01010000 = .ok (.twSlaw 0x50) ∧
    decode 0b01000101_0000000000000000_01111111 = .ok (.twSlar 0x7F) ∧
    decode 0b01000110_0000000000000000_11111111 = .ok (.twSendb 0xFF) ∧
    decode 0b01000111_0000000000000000_00000001 = .ok (.twRecvb true) ∧
    decode 0b01000111_0000000000000000_00000000 = .ok (.twRecvb false) ∧
    decode 0b01001000_0000000000000000_00000000 = .ok .twCfgm := by decide

theorem test_decode_formatT_transaction :
    decode 0b01010000_0000000000000000_00000000 = .ok .txnBegin ∧
    decode 0b01010001_0000000000000000_00000000 = .ok .txnEnd ∧
    decode 0b01010010_0000000000000000_01010000 = .ok (.txnXmit 0x50) ∧
    decode 0b01010011_0000000000000000_01010000 = .ok (.txnRecv 0x50) := by decide

/-- X1 to X3: opcodes that are not listed. -/
theorem test_decode_unlisted :
    [0x00000000, 0x18000000, 0x22000000, 0x49000000, 0x54000000, 0xFF000000].map decode =
      [0x00, 0x18, 0x22, 0x49, 0x54, 0xFF].map (fun op => .error (.unlistedOpcode op)) := by decide

/-- X4 to X14: listed opcodes with a must-be-zero bit set. -/
theorem test_decode_reserved :
    [0x11000107, 0x10200502, 0x10004502, 0x13000542, 0x204000B9, 0x210100B8, 0x440000D0, 0x47000002, 0x41000001,
      0x43000100, 0x50000001, 0x51800000, 0x46000100, 0x4600FF00, 0x48000001].map decode =
    [0x11, 0x10, 0x10, 0x13, 0x20, 0x21, 0x44, 0x47, 0x41, 0x43, 0x50, 0x51, 0x46, 0x46, 0x48].map
      (fun op => .error (.reservedBits op)) := by decide

theorem test_decodeTableWord :
    decodeTableWord 32 0x10400B04 = some (.bitmask .w16 4 11) ∧ decodeTableWord 32 0x00000000 = none := by decide

/-! ## The bit accessor (vectors B1 to B51) -/

/-- B5 and B9. -/
theorem test_bitmask : answer (exec (.bitmask .w16 4 11) (withOperands 0 0)) = some (ok (some 0x0FF0)) ∧
    answer (exec (.bitmask .w64 0 63) (withOperands 0 0)) = some (ok (some 0xFFFFFFFFFFFFFFFF)) := by decide

/-- B12. -/
theorem test_bitmask_range :
    seen (exec (.bitmask .w32 0 32) (withOperands 0 0)) = some (faulted .bitRange, [], .idle, .dirNone) := by decide

/-- B15: bit 8 of the latch is ignored, and B17. -/
theorem test_hasbit : answer (exec (.hasbit .w8 0) (withOperands 0x100 0)) = some (ok (some 0)) ∧
    answer (exec (.hasbit .w16 15) (withOperands 0x8000 0)) = some (ok (some 1)) := by decide

/-- B16. -/
theorem test_hasbit_range : answer (exec (.hasbit .w8 8) (withOperands 0xFF 0)) = some (faulted .bitRange) := by decide

/-- B19 and B20. -/
theorem test_getbit : answer (exec (.getbit .w32 31) (withOperands 0x7FFFFFFF 0)) = some (ok (some 0)) ∧
    answer (exec (.getbit .w64 63) (withOperands 0x8000000000000000 0)) = some (ok (some 1)) := by decide

/-- B21 and B25. -/
theorem test_getbits : answer (exec (.getbits .w8 2 5) (withOperands 0xB6 0)) = some (ok (some 0x0D)) ∧
    answer (exec (.getbits .w64 32 63) (withOperands 0xDEADBEEF00000000 0)) = some (ok (some 0xDEADBEEF)) := by decide

/-- B45, B46 and B48: the table, the default, the empty table. -/
theorem test_getenum : answer (exec (.getenum .w8 false 3 0 1) (withOperands 0xFD 0)) = some (ok (some 11)) ∧
    answer (exec (.getenum .w8 true 3 0 1) (withOperands 0x03 99)) = some (ok (some 99)) ∧
    answer (exec (.getenum .w8 true 4 0 1) (withOperands 0x00 5)) = some (ok (some 5)) := by decide

/-- B50: the fatal fault halts. -/
theorem test_getenum_fatal : answer (exec (.getenum .w8 false 3 0 1) (withOperands 0x03 0)) = some (faulted .enumFatal) ∧
    record (exec (.getenum .w8 false 3 0 1) (withOperands 0x03 0)) = some (false, false, .none, 0b000001, true) := by
  decide

/-- B28 and B31. -/
theorem test_setbit : answer (exec (.setbit .w8 0) (withOperands 0xFF 2)) = some (ok (some 0xFE)) ∧
    answer (exec (.setbit .w8 3) (withOperands 0xFF 0)) = some (ok (some 0xF7)) := by decide

/-- B32. -/
theorem test_setbit_range : answer (exec (.setbit .w16 16) (withOperands 0 1)) = some (faulted .bitRange) := by decide

/-- B33, HB's own example, and B34. -/
theorem test_setbits : answer (exec (.setbits .w8 0 2) (withOperands 0xA5 0xFA)) = some (ok (some 0xA2)) ∧
    answer (exec (.setbits .w8 4 7) (withOperands 0x0F 0xAB)) = some (ok (some 0xBF)) := by decide

/-- B37. -/
theorem test_setbits_16 : answer (exec (.setbits .w16 4 11) (withOperands 0xFFFF 0x5A5)) = some (ok (some 0xFA5F)) := by
  decide

/-- B41 and B43. -/
theorem test_togbit : answer (exec (.togbit .w8 7) (withOperands 0xFF 0)) = some (ok (some 0x7F)) ∧
    answer (exec (.togbit .w8 8) (withOperands 0 0)) = some (faulted .bitRange) := by decide

/-! ## Register access (vectors M1 to M8) -/

/-- M1. -/
theorem test_regRd : seen (exec (.regRd 0x00B9) (inPhase avr .idle .dirNone [0xF8])) =
    some (ok (some 0xF8), [rd 0xB9 0xF8], .idle, .dirNone) := by decide

/-- M3, at the top of the register space. -/
theorem test_regRd_top : seen (exec (.regRd 0xFFFF) (inPhase avr .idle .dirNone [0x00])) =
    some (ok (some 0), [rd 0xFFFF 0x00], .idle, .dirNone) := by decide

/-- M5: only the low byte of `opA` is written. -/
theorem test_regWr : seen (exec (.regWr 0x00B8) (withOperands 0x1234 0)) =
    some (ok none, [wr 0xB8 0x34], .idle, .dirNone) := by decide

theorem test_regWr_space : (after (exec (.regWr 0x00B8) (withOperands 0x1234 0))).handed 0xB8 = some 0x34 := by decide

/-! ## The driver (vectors T1 to T39) -/

/-- T38: ok on the third and last permitted read. -/
theorem test_twWait : seen (exec .twWait (inPhase avrP3 .addressSent .dirW [0x00, 0x00, 0x80])) =
    some (ok none, [rd 0xBC 0x00, rd 0xBC 0x00, rd 0xBC 0x80], .addressSent, .dirW) := by decide

/-- 95_test_vectors.md section 1.9: the timeout bound; no fourth read. -/
theorem test_twWait_timeout : seen (exec .twWait (inPhase avrP3 .idle .dirNone [0x00, 0x00, 0x00, 0x80])) =
    some (.failed .timeout, [rd 0xBC 0x00, rd 0xBC 0x00, rd 0xBC 0x00], .idle, .dirNone) := by decide

/-- T2: only bit 7 of each poll answer is tested. -/
theorem test_twStart : seen (exec .twStart (inPhase avr .idle .dirNone [0x00, 0x24, 0xA4, 0x08])) =
    some (ok none, [wr 0xBC 0xA4, rd 0xBC 0x00, rd 0xBC 0x24, rd 0xBC 0xA4, rd 0xB9 0x08], .startSent, .dirNone) := by
  decide

/-- T4: the bit-exact comparison. -/
theorem test_twStart_exact :
    seen (exec .twStart (inPhase { avr with statusMask := 0xFF } .idle .dirNone [0x80, 0x0B])) =
    some (.failed (.unexpectedStatus 0x0B), [wr 0xBC 0xA4, rd 0xBC 0x80, rd 0xB9 0x0B], .idle, .dirNone) := by decide

/-- T11. -/
theorem test_twRstart : seen (exec .twRstart (inPhase avr .dataTransferring .dirW [0x80, 0x10])) =
    some (ok none, [wr 0xBC 0xA4, rd 0xBC 0x80, rd 0xB9 0x10], .startSent, .dirNone) := by decide

/-- T10. -/
theorem test_twRstart_illegal : seen (exec .twRstart (inPhase avr .stopPending .dirNone [])) =
    some (faulted .illegalSequence, [], .stopPending, .dirNone) := by decide

/-- T34: the status register is not read. -/
theorem test_twStop : seen (exec .twStop (inPhase avr .dataTransferring .dirW [0x80])) =
    some (ok none, [wr 0xBC 0x94, rd 0xBC 0x80], .idle, .dirNone) := by decide

/-- T36. -/
theorem test_twStop_timeout : seen (exec .twStop (inPhase avrP3 .addressSent .dirR [0x14, 0x14, 0x14])) =
    some (.failed .timeout, [wr 0xBC 0x94, rd 0xBC 0x14, rd 0xBC 0x14, rd 0xBC 0x14], .stopPending, .dirNone) := by
  decide

/-- T13. -/
theorem test_twSlaw : seen (exec (.twSlaw 0x50) (inPhase avr .startSent .dirNone [0x80, 0x18])) =
    some (ok none, [wr 0xBB 0xA0, wr 0xBC 0x84, rd 0xBC 0x80, rd 0xB9 0x18], .addressSent, .dirW) := by decide

/-- T14: the raw byte, not the masked one. -/
theorem test_twSlaw_raw_status : seen (exec (.twSlaw 0x50) (inPhase avr .startSent .dirNone [0x80, 0x23])) =
    some (.failed (.unexpectedStatus 0x23), [wr 0xBB 0xA0, wr 0xBC 0x84, rd 0xBC 0x80, rd 0xB9 0x23], .startSent,
      .dirNone) := by decide

/-- T18. -/
theorem test_twSlar : seen (exec (.twSlar 0x50) (inPhase avr .startSent .dirNone [0x80, 0x40])) =
    some (ok none, [wr 0xBB 0xA1, wr 0xBC 0x84, rd 0xBC 0x80, rd 0xB9 0x40], .addressSent, .dirR) := by decide

/-- T20: the write code where the read code is required. -/
theorem test_twSlar_wrong_code : answer (exec (.twSlar 0x50) (inPhase avr .startSent .dirNone [0x80, 0x18])) =
    some (.failed (.unexpectedStatus 0x18)) := by decide

/-- T22. -/
theorem test_twSendb : seen (exec (.twSendb 0xAB) (inPhase avr .addressSent .dirW [0x80, 0x28])) =
    some (ok none, [wr 0xBB 0xAB, wr 0xBC 0x84, rd 0xBC 0x80, rd 0xB9 0x28], .dataTransferring, .dirW) := by decide

/-- T24: no direction in the precondition. -/
theorem test_twSendb_direction : seen (exec (.twSendb 0xAA) (inPhase avr .addressSent .dirR [0x80, 0x48])) =
    some (.failed (.unexpectedStatus 0x48), [wr 0xBB 0xAA, wr 0xBC 0x84, rd 0xBC 0x80, rd 0xB9 0x48], .addressSent,
      .dirR) := by decide

/-- T27. -/
theorem test_twRecvb : seen (exec (.twRecvb true) (inPhase avr .addressSent .dirR [0x80, 0x50, 0x5A])) =
    some (ok (some 0x5A), [wr 0xBC 0xC4, rd 0xBC 0x80, rd 0xB9 0x50, rd 0xBB 0x5A], .dataTransferring, .dirR) := by
  decide

/-- T30: the code of the other acknowledge; the data register is not read. -/
theorem test_twRecvb_wrong_code : seen (exec (.twRecvb false) (inPhase avr .addressSent .dirR [0x80, 0x50, 0x5A])) =
    some (.failed (.unexpectedStatus 0x50), [wr 0xBC 0x84, rd 0xBC 0x80, rd 0xB9 0x50], .addressSent, .dirR) := by decide

/-- 95_test_vectors.md section 1.4: 527,999,999 and 18,432,000 Hz. -/
theorem test_twCfgm : seen (exec .twCfgm (withOperands 527999999 0)) =
      some (ok none, [wr 0xB8 0xFF], .idle, .dirNone) ∧
    seen (exec .twCfgm (withOperands 18432000 0)) = some (ok none, [wr 0xB8 0x01], .idle, .dirNone) := by decide

/-- Section 1.4: 528,000,000 and 15,999,999 Hz. -/
theorem test_twCfgm_range : seen (exec .twCfgm (withOperands 528000000 0)) =
      some (faulted .configRange, [], .idle, .dirNone) ∧
    answer (exec .twCfgm (withOperands 15999999 0)) = some (faulted .configRange) := by decide

/-! ## Transactions (vectors V1 to V9, P3) -/

/-- V1: the start fails; the transaction is open and has failed. -/
theorem test_txnBegin : seen (exec .txnBegin (inPhase avr .idle .dirNone [0x80, 0x00])) =
      some (.failed (.unexpectedStatus 0x00), [wr 0xBC 0xA4, rd 0xBC 0x80, rd 0xB9 0x00], .idle, .dirNone) ∧
    record (exec .txnBegin (inPhase avr .idle .dirNone [0x80, 0x00])) =
      some (true, false, .unexpectedStatus 0x00, 0, false) := by decide

/-- V4: nested. -/
theorem test_txnBegin_nested : seen (exec .txnBegin (inTxn avr .startSent .dirNone false .none [])) =
    some (faulted .illegalSequence, [], .startSent, .dirNone) := by decide

/-- V2: a stop that times out does not replace the earlier failure. -/
theorem test_txnEnd : seen (exec .txnEnd (inTxn avrP3 .startSent .dirNone true (.unexpectedStatus 0x20) [0, 0, 0])) =
      some (.failed (.unexpectedStatus 0x20), [wr 0xBC 0x94, rd 0xBC 0, rd 0xBC 0, rd 0xBC 0], .stopPending, .dirNone) ∧
    record (exec .txnEnd (inTxn avrP3 .startSent .dirNone true (.unexpectedStatus 0x20) [0, 0, 0])) =
      some (false, false, .none, 0, false) := by decide

/-- V3: with no earlier failure the stop's timeout is the transaction's failure. -/
theorem test_txnEnd_timeout : answer (exec .txnEnd (inTxn avrP3 .startSent .dirNone false .none [0, 0, 0])) =
    some (.failed .timeout) := by decide

/-- P1, cp 1: the first transmit makes no repeated start. -/
theorem test_txnXmit : seen (exec (.txnXmit 0x50) (inTxn avr .startSent .dirNone false .none [0x80, 0x18])) =
      some (ok none, [wr 0xBB 0xA0, wr 0xBC 0x84, rd 0xBC 0x80, rd 0xB9 0x18], .addressSent, .dirW) ∧
    record (exec (.txnXmit 0x50) (inTxn avr .startSent .dirNone false .none [0x80, 0x18])) =
      some (true, true, .none, 0, false) := by decide

/-- V5: after a raw TW.SLAW the first transmit is rejected. -/
theorem test_txnXmit_illegal : seen (exec (.txnXmit 0x50) (inTxn avr .addressSent .dirW false .none [])) =
    some (faulted .illegalSequence, [], .addressSent, .dirW) := by decide

/-- P2, cp 3: the repeated start comes first. -/
theorem test_txnRecv :
    seen (exec (.txnRecv 0x50) (inTxn avr .dataTransferring .dirW true .none [0x80, 0x10, 0x80, 0x40])) =
    some (ok none, [wr 0xBC 0xA4, rd 0xBC 0x80, rd 0xB9 0x10, wr 0xBB 0xA1, wr 0xBC 0x84, rd 0xBC 0x80, rd 0xB9 0x40],
      .addressSent, .dirR) := by decide

/-- V6: the repeated start fails and the address phase is not attempted. -/
theorem test_txnRecv_restart_fails :
    seen (exec (.txnRecv 0x50) (inTxn avr .dataTransferring .dirW true .none [0x80, 0x38])) =
      some (.failed (.unexpectedStatus 0x38), [wr 0xBC 0xA4, rd 0xBC 0x80, rd 0xB9 0x38], .dataTransferring, .dirW) ∧
    record (exec (.txnRecv 0x50) (inTxn avr .dataTransferring .dirW true .none [0x80, 0x38])) =
      some (true, true, .unexpectedStatus 0x38, 0, false) := by decide

/-- V1: a skipped command makes no access and repeats the first failure; V7: REG.RD is not skipped. -/
theorem test_skip :
    seen (exec (.twSendb 0x10) (inTxn avr .idle .dirNone false (.unexpectedStatus 0x00) [0x80])) =
      some (⟨.noFault, true, .unexpectedStatus 0x00, none⟩, [], .idle, .dirNone) ∧
    answer (exec (.regRd 0xB9) (inTxn avr .idle .dirNone false (.unexpectedStatus 0x00) [0x33])) =
      some (ok (some 0x33)) := by decide

/-! ## One step, reset and the host's question -/

/-- P5, cp 6: an illegal word while halted is answered with the halt, not with the decode fault. -/
theorem test_step_halted_before_decode :
    answer (step { halt with inputs := [.command ⟨0x00000000, none, none⟩] }) = some (faulted .halted) ∧
    record (step { halt with inputs := [.command ⟨0x00000000, none, none⟩] }) =
      some (false, false, .none, 0b100001, true) := by decide

/-- X1. -/
theorem test_step_illegal :
    answer (step { inPhase avr .idle .dirNone [] with inputs := [.command ⟨0x00000000, none, none⟩] }) =
      some (faulted .illegalCommand) := by decide

/-- M4, as the host presents it. -/
theorem test_step_command :
    seen (step { inPhase avr .idle .dirNone [] with inputs := [.command ⟨0x210000B8, some 0x48, none⟩] }) =
      some (ok none, [wr 0xB8 0x48], .idle, .dirNone) := by decide

/-- R210: the reset input leaves the halt. -/
theorem test_step_reset : record (step { halt with inputs := [.reset] }) = some (false, false, .none, 0, false) := by
  decide

theorem test_withFetchWord_runs_the_word :
    answer (step (State.reset.withFetchWord 32 0x10400B04)) = some (ok (some 0x0FF0)) := by decide

/-! ## Pseudo-instructions (vectors H1 to H14, M6) -/

/-- H3: leading zero bytes are sent. -/
theorem test_expand_wrreg : (Helper.wrreg 0x50 0x10 3 0x0000FF).expand.map (fun cs => cs.map (fun c => c.word)) =
    some [0x50000000, 0x52000050, 0x46000010, 0x46000000, 0x46000000, 0x460000FF, 0x51000000] := by decide

/-- H6. -/
theorem test_expand_rdreg : (Helper.rdreg 0x50 0x10 2).expand.map (fun cs => cs.map (fun c => c.word)) =
    some [0x50000000, 0x52000050, 0x46000010, 0x53000050, 0x47000001, 0x47000000, 0x51000000] := by decide

/-- H11 and H12. -/
theorem test_expand_wrbuf :
    (Helper.wrbuf 0x50 0x20 0x21 [0x11, 0x22, 0x33]).expand.map (fun cs => cs.map (fun c => c.word)) =
      some [0x50000000, 0x52000050, 0x46000020, 0x46000011, 0x46000022, 0x51000000] ∧
    (Helper.wrbuf 0x50 0x20 0x22 [0x11, 0x22]).expand = none := by decide

/-- H4: a range write is the register write of the same bytes. -/
theorem test_expand_wrrange :
    (Helper.wrrange 0x50 0x10 0x11 0xABCD).expand = (Helper.wrreg 0x50 0x10 2 0xABCD).expand := by decide

/-- H9 and H10: what the buffer holds. -/
theorem test_buffer :
    bufferAfter [0, 0] [ok (some 1), ok (some 2), ok (some 3), ok (some 4), ok none] = some [1, 2] ∧
    bufferAfter [0xAA, 0xBB, 0xCC, 0xDD] [ok (some 1), ok (some 2), ok none] = some [1, 2, 0xCC, 0xDD] := by decide

/-- The single-bit forms (41_register_access.md R113): M7's edit with SETBIT, the second toggle of 95_test_vectors.md
section 1.5, and an index of 8, which stops before the write. -/
theorem test_rmw_single_bit :
    (issueEdit 0x25 (.setbit 5 1) (inPhase avr .idle .dirNone [0x00])).2.trace = [rd 0x25 0x00, wr 0x25 0x20] ∧
    (issueEdit 0x25 (.togbit 3) (inPhase avr .idle .dirNone [0x08])).2.trace = [rd 0x25 0x08, wr 0x25 0x00] ∧
    (issueEdit 0x25 (.togbit 8) (inPhase avr .idle .dirNone [0x00])).1 = [ok (some 0), faulted .bitRange] := by decide

/-- M8: an invalid field stops REG.RMW before the write. -/
theorem test_rmw_invalid : (issueRmw 0x25 5 8 1 (inPhase avr .idle .dirNone [0x00])).1 =
    [ok (some 0), faulted .bitRange] := by decide

/-! ## Assembler (30_encoding.md R81, R86) -/

/-- B46's line with its latches given. -/
theorem test_assemble_getenum :
    assemble ["GETENUM.8 [0,1] etab=3 default A=0x03 B=99 -- B46".toList] =
      some [.command ⟨0x14230100, some 3, some 99⟩] := by decide

/-- R81's example without `A=` is a line, and no program (log 17). -/
theorem test_assemble_getenum_example :
    parseLine "GETENUM.8 [0,1] etab=3 default B=7".toList =
      some (.stmt (.simple (.command ⟨0x14230100, none, some 7⟩))) ∧
    parseLine "GETENUM.8 [0,1] etab=3".toList = some (.stmt (.simple (.command ⟨0x14030100, none, none⟩))) ∧
    assemble ["GETENUM.8 [0,1] etab=3".toList] = none := by decide

/-- M6 as text, and the single-bit forms (log 17). -/
theorem test_assemble_rmw : assemble ["REG.RMW 0x00B9, [0,1], 0".toList, "REG.RMW 0x25, 5, 1".toList,
    "REG.RMW 0x25, 3".toList] =
      some [.rmw 0x00B9 (.setbits 0 1 0), .rmw 0x25 (.setbit 5 1), .rmw 0x25 (.togbit 3)] := by decide

/-- "a command that reads it must be given it" (R81). -/
theorem test_assemble_latch_missing : assemble ["REG.WR 0x00B8".toList] = none := by decide

/-- H13: NODE binds the address. -/
theorem test_assemble_node : assemble ["NODE 0x68".toList, "NODE.WRREG 0x6B, 1, 0x00".toList] =
    some ([0x50000000, 0x52000068, 0x4600006B, 0x46000000, 0x51000000].map (fun w => .command ⟨w, none, none⟩)) := by
  decide

/-- A helper inside TXN is rejected (43_twi_transaction.md R168). -/
theorem test_assemble_helper_in_txn :
    assemble ["TXN".toList ++ [' ', openBrace], "RDREG 0x50, 0x10, 1".toList, [closeBrace]] = none := by decide

/-- XMIT outside TXN is rejected (43_twi_transaction.md R157). -/
theorem test_assemble_xmit_outside :
    assemble ["XMIT 0x50 ".toList ++ [openBrace], "TW.SENDB 0x10".toList, [closeBrace]] = none := by decide

/-- NODE and XMIT inside other bodies (log 17). -/
theorem test_assemble_nesting :
    assemble ["TXN ".toList ++ [openBrace], "NODE 0x68".toList, "XMIT 0x50 ".toList ++ [openBrace],
        "RECV 0x51 ".toList ++ [openBrace], "TW.RECVB NACK".toList, [closeBrace], [closeBrace], [closeBrace],
        "NODE.RDREG 0x75, 1".toList] =
      some ([0x50000000, 0x52000050, 0x53000051, 0x47000000, 0x51000000,
        0x50000000, 0x52000068, 0x46000075, 0x53000068, 0x47000000, 0x51000000].map
          (fun w => .command ⟨w, none, none⟩)) := by decide

/-- P3's program. -/
theorem test_assemble_transaction :
    assemble ["TXN ".toList ++ [openBrace], "XMIT 0x50 ".toList ++ [openBrace], "TW.SENDB 0x10".toList,
        "TW.SENDB 0xAB".toList, [closeBrace], "RECV 0x50 ".toList ++ [openBrace], "TW.RECVB NACK".toList, [closeBrace],
        [closeBrace]] =
      some ([0x50000000, 0x52000050, 0x46000010, 0x460000AB, 0x53000050, 0x47000000, 0x51000000].map
        (fun w => .command ⟨w, none, none⟩)) := by decide

/-! ## Every hypothesis is met: for each statement with hypotheses, and each of its clauses, a state and operands -/

theorem test_witness_DecodeOfEncodeIsTheCommand : WellFormed (.getenum .w64 true 31 63 63) = true := by decide

theorem test_witness_EncodeOfDecodeIsTheWord : decode 0x14FF3F3F = .ok (.getenum .w64 true 31 63 63) := by decide

theorem test_witness_DecoderFollowsTheOneSelectedRow :
    (∃ r ∈ table, (0x4400007F : CmdWord) &&& r.mask = r.pattern) ∧
    (∀ r ∈ table, (0x18000000 : CmdWord) &&& r.mask ≠ r.pattern) := by decide

/-- A state in which the host presents one word. -/
def presenting (s : State) (w : CmdWord) : State := { s with inputs := [.command ⟨w, some 5, none⟩] }

theorem test_witness_StepRunsThePresentedCommand :
    (presenting (withOperands 0 0) 0x12000001).inputs = .command ⟨0x12000001, some 5, none⟩ :: [] ∧
    decode 0x12000001 = .ok (.getbit .w8 1) := by decide

theorem test_witness_IllegalWordRaisesIllegalCommand :
    (presenting (withOperands 0 0) 0x18000000).inputs = .command ⟨0x18000000, some 5, none⟩ :: [] ∧
    decode 0x18000000 = .error (.unlistedOpcode 0x18) ∧ (presenting (withOperands 0 0) 0x18000000).Live := by decide

theorem test_witness_HaltedBlockAnswersHalted :
    (presenting halt 0x41000000).inputs = .command ⟨0x41000000, some 5, none⟩ :: [] ∧
    (presenting halt 0x41000000).halted = true := by decide

theorem test_witness_ResetInputRestoresTheEngine :
    ({ halt with inputs := [.reset] } : State).inputs = .reset :: [] := by decide

/-- An open transaction in which a receive is presented: consistent, and the step answers. -/
def receiving : State :=
  presenting (inTxn avr .addressSent .dirR true .none [0x80, 0x50, 0x5A]) 0x47000001

theorem test_witness_EngineStateStaysConsistent :
    (receiving.EngineOk ∧ receiving.response.Ok) ∧ step receiving = .next (after (step receiving)) ∧
    (after (step receiving)).phase = .dataTransferring := ⟨by decide, rfl, by decide⟩

/-- A state with one write in its trace and its register space. -/
def written : State :=
  presenting { inPhase avr .idle .dirNone [0x80, 0x08] with mem := [(0xB8, 0x48)], trace := [wr 0xB8 0x48] } 0x41000000

theorem test_witness_RegisterSpaceFollowsTheTrace :
    written.SpaceOk ∧ step written = .next (after (step written)) ∧
    (after (step written)).handed 0xBC = some 0xA4 := by
  refine ⟨⟨by decide, fun a => ?_, by decide⟩, rfl, by decide⟩
  by_cases h : (0xB8 : Addr) = a
  · subst h
    decide
  · have h' : a.toNat ≠ 184 := fun e => h (BitVec.eq_of_toNat_eq (by simpa using e.symm))
    simp [State.handed, written, presenting, Memory.read, lastWritten, wr, h']
    exact fun e => h e

theorem test_witness_ConfigurationIsConstant : step receiving = .next (after (step receiving)) := rfl

theorem test_witness_EveryCommandAdvancesThePositionByOne :
    written.inputs = .command ⟨0x41000000, some 5, none⟩ :: [] ∧ step written = .next (after (step written)) ∧
    (after (step written)).cp = 1 := ⟨by decide, rfl, by decide⟩

theorem test_witness_CommandsLeaveLatchesAndPosition :
    exec .twStop (withOperands 7 9) = .next (after (exec .twStop (withOperands 7 9))) := rfl

theorem test_witness_FaultsArePrecise :
    exec (.getenum .w8 false 3 0 1) (withOperands 3 0) =
      .next (after (exec (.getenum .w8 false 3 0 1) (withOperands 3 0))) ∧
    (after (exec (.getenum .w8 false 3 0 1) (withOperands 3 0))).response.fault ≠ .noFault ∧
    runWord 0x18000000 (withOperands 3 0) = .next (after (runWord 0x18000000 (withOperands 3 0))) ∧
    (after (runWord 0x18000000 (withOperands 3 0))).response.fault ≠ .noFault := ⟨rfl, by decide, rfl, by decide⟩

theorem test_witness_FaultRecordIsSticky :
    receiving.inputs.head? ≠ some .reset ∧ step receiving = .next (after (step receiving)) := ⟨by decide, rfl⟩

theorem test_witness_OnlyEnumDecodeHalts :
    exec (.getenum .w8 false 4 0 1) (withOperands 0 0) =
      .next (after (exec (.getenum .w8 false 4 0 1) (withOperands 0 0))) ∧ (withOperands 0 0).halted = false ∧
    (after (exec (.getenum .w8 false 4 0 1) (withOperands 0 0))).halted = true := ⟨rfl, by decide, by decide⟩

theorem test_witness_AccessesAreAddedAndBounded :
    exec .twStart (inPhase avrP3 .idle .dirNone [0, 0, 0x80, 8]) =
      .next (after (exec .twStart (inPhase avrP3 .idle .dirNone [0, 0, 0x80, 8]))) := rfl

theorem test_witness_CommandsReachOnlyTheirOwnRegisters :
    exec (.twSlaw 0x50) (inPhase avr .startSent .dirNone [0x80, 0x18]) =
      .next (after (exec (.twSlaw 0x50) (inPhase avr .startSent .dirNone [0x80, 0x18]))) ∧
    (0xB8 : Addr) ∉ writesTo avr (.twSlaw 0x50) := ⟨rfl, by decide⟩

/-- A failed transaction. -/
def failed : State := inTxn avr .idle .dirNone false .timeout []

theorem test_witness_FailedTransactionSkips : Skippable (.txnXmit 0x50) = true ∧ failed.Skips := by decide

theorem test_witness_OffBusCommandsIgnoreTheProtocolState :
    OffBus (.regRd 0xB9) = true ∧ exec (.regRd 0xB9) failed = .next (after (exec (.regRd 0xB9) failed)) :=
  ⟨by decide, rfl⟩

/-! The ranges at their bounds: `hi = W-1` and `hi = W`, `lo = hi` and `lo = hi + 1`. -/

theorem test_witness_ranges :
    (withOperands 0 0).Live ∧ (7 ≤ 7 ∧ 7 ≤ 8 <<< Width.w8.code.toNat - 1) ∧
    (0 ≤ 63 ∧ 63 ≤ 8 <<< Width.w64.code.toNat - 1) ∧ ¬ (0 ≤ 8 ∧ 8 ≤ 8 <<< Width.w8.code.toNat - 1) ∧
    ¬ (4 ≤ 3 ∧ 3 ≤ 8 <<< Width.w8.code.toNat - 1) := by decide

theorem test_witness_indexes :
    (withOperands 0 0).Live ∧ 31 ≤ 8 <<< Width.w32.code.toNat - 1 ∧ ¬ 32 ≤ 8 <<< Width.w32.code.toNat - 1 := by decide

theorem test_witness_OutOfRangePolicyIsUniform :
    (withOperands 0 0).Live ∧ 8 <<< Width.w16.code.toNat - 1 < 16 ∧ (3 < 4 ∨ 8 <<< Width.w16.code.toNat - 1 < 3) ∧
    (16 < 0 ∨ 8 <<< Width.w16.code.toNat - 1 < 16) := by decide

/-- `e = 1`, a pattern of table 3, in the low two bits of `0xFD`. -/
theorem test_witness_GetenumDecodes_listed :
    (withOperands 0xFD 0).Live ∧ (withOperands 0xFD 0).cfg.Valid ∧
    (⟨3, 1, 11⟩ : EnumEntry) ∈ (withOperands 0xFD 0).cfg.enums ∧ (3 : BitVec 5) = BitVec.ofNat 5 3 ∧
    0 ≤ 1 ∧ 1 ≤ 8 <<< Width.w8.code.toNat - 1 ∧
    ∀ j, (1 : Latch).getLsbD j = (decide (j ≤ 1 - 0) && (withOperands 0xFD 0).opA.getLsbD (0 + j)) := by
  refine ⟨by decide, by decide, by decide, by decide, by decide, by decide, fun j => ?_⟩
  match j with
  | 0 => rfl
  | 1 => rfl
  | j + 2 => simp [BitVec.getLsbD_one]

/-- `e = 3`, no pattern of table 3. -/
theorem test_witness_GetenumDecodes_unlisted :
    (withOperands 3 0).Live ∧ (∀ x ∈ (withOperands 3 0).cfg.enums, x.etab = BitVec.ofNat 5 3 → x.pattern ≠ 3) ∧
    0 ≤ 1 ∧ 1 ≤ 8 <<< Width.w8.code.toNat - 1 ∧
    ∀ j, (3 : Latch).getLsbD j = (decide (j ≤ 1 - 0) && (withOperands 3 0).opA.getLsbD (0 + j)) := by
  refine ⟨by decide, by decide, by decide, by decide, fun j => ?_⟩
  match j with
  | 0 => rfl
  | 1 => rfl
  | j + 2 =>
    have h : Nat.testBit 3 (j + 2) = false := by simp [Nat.testBit_succ]
    rw [show (3 : Latch).getLsbD (j + 2) = _ from BitVec.getLsbD_ofNat .., h]
    simp

theorem test_witness_WritingBackAFieldChangesNothing :
    (withOperands 0xB6 0).Live ∧ 2 ≤ 5 ∧ 5 ≤ 8 <<< Width.w8.code.toNat - 1 ∧
    exec (.getbits .w8 2 5) (withOperands 0xB6 0) = .next (after (exec (.getbits .w8 2 5) (withOperands 0xB6 0))) ∧
    (after (exec (.getbits .w8 2 5) (withOperands 0xB6 0))).response.result = some 0x0D :=
  ⟨by decide, by decide, by decide, rfl, by decide⟩

theorem test_witness_TogglingTwiceRestores :
    (withOperands 0 0).Live ∧ 3 ≤ 8 <<< Width.w8.code.toNat - 1 ∧
    exec (.togbit .w8 3) (withOperands 0 0) = .next (after (exec (.togbit .w8 3) (withOperands 0 0))) ∧
    (after (exec (.togbit .w8 3) (withOperands 0 0))).response.result = some 8 :=
  ⟨by decide, by decide, rfl, by decide⟩

/-- REG.RD, REG.WR and the free answer need a live block alone, halted transaction or not. -/
theorem test_witness_register_access : failed.Live ∧ (withOperands 0x1234 0).Live := by decide

theorem test_witness_RmwReadsThenWritesTheField :
    (withOperands 0 0).Live ∧ (0 < 64 ∧ 7 < 64 ∧ 0 ≤ 7 ∧ 7 ≤ 7) ∧ (5 < 64 ∧ 8 < 64 ∧ ¬ (5 ≤ 8 ∧ 8 ≤ 7)) := by decide

theorem test_witness_SingleBitRmwChangesOneBit :
    (withOperands 0 0).Live ∧ (7 < 64 ∧ 7 ≤ 7) ∧ (8 < 64 ∧ 7 < 8) ∧ (63 < 64 ∧ 7 < 63) := by decide

/-! The three ends of a poll: the flag in the last permitted read, the status expected or another, and no flag. -/

/-- The flag comes in the third of three polls and the status is the one given. -/
def polled (p : Phase) (d : Dir) (status : Byte) : State := inPhase avrP3 p d [0x00, 0x24, 0x80, status, 0x5A]

/-- The flag never comes. -/
def deaf (p : Phase) (d : Dir) : State := inPhase avrP3 p d [0x00, 0x7F, 0x00]

theorem test_witness_TwWaitPolls :
    (polled .idle .dirNone 0).Ready ∧ (polled .idle .dirNone 0).ReadyAfter 2 ∧
    (deaf .idle .dirNone).Ready ∧ (deaf .idle .dirNone).NeverReady := by decide

theorem test_witness_EveryPollLengthIsPossible :
    (deaf .idle .dirNone).Ready ∧ 1 ≤ 3 ∧ 3 ≤ (deaf .idle .dirNone).cfg.pollOuter := by decide

theorem test_witness_TwStartIssuesAStart :
    (polled .stopPending .dirNone 0x08).Ready ∧ (polled .stopPending .dirNone 0x08).ReadyAfter 2 ∧
    StatusIs avrP3 ((polled .stopPending .dirNone 0x0B).upcoming 3) 0x08 ∧
    ¬ StatusIs avrP3 ((polled .stopPending .dirNone 0x10).upcoming 3) 0x08 ∧
    (deaf .stopPending .dirNone).NeverReady := by decide

theorem test_witness_TwRstartIssuesARepeatedStart :
    (polled .addressSent .dirR 0x10).Ready ∧ (polled .addressSent .dirR 0x10).ReadyAfter 2 ∧
    StatusIs avrP3 ((polled .addressSent .dirR 0x10).upcoming 3) 0x10 ∧
    ¬ StatusIs avrP3 ((polled .addressSent .dirR 0x08).upcoming 3) 0x10 ∧
    (deaf .addressSent .dirR).NeverReady ∧ (polled .idle .dirNone 0).Ready := by decide

theorem test_witness_TwStopIssuesAStop :
    (polled .idle .dirNone 0).Ready ∧ (polled .idle .dirNone 0).ReadyAfter 2 ∧ (deaf .addressSent .dirW).Ready ∧
    (deaf .addressSent .dirW).NeverReady := by decide

theorem test_witness_address_phases :
    (polled .startSent .dirNone 0x18).Ready ∧ (polled .startSent .dirNone 0x18).ReadyAfter 2 ∧
    StatusIs avrP3 ((polled .startSent .dirNone 0x18).upcoming 3) 0x18 ∧
    ¬ StatusIs avrP3 ((polled .startSent .dirNone 0x18).upcoming 3) 0x40 ∧
    StatusIs avrP3 ((polled .startSent .dirNone 0x40).upcoming 3) 0x40 ∧
    ¬ StatusIs avrP3 ((polled .startSent .dirNone 0x40).upcoming 3) 0x18 ∧
    (deaf .startSent .dirNone).NeverReady ∧ (polled .addressSent .dirW 0).Ready := by decide

theorem test_witness_TwSendbSendsTheByte :
    (polled .dataTransferring .dirR 0x28).Ready ∧ (polled .dataTransferring .dirR 0x28).ReadyAfter 2 ∧
    StatusIs avrP3 ((polled .dataTransferring .dirR 0x28).upcoming 3) 0x28 ∧
    ¬ StatusIs avrP3 ((polled .dataTransferring .dirR 0x30).upcoming 3) 0x28 ∧
    (deaf .dataTransferring .dirR).NeverReady ∧ (polled .startSent .dirNone 0).Ready := by decide

theorem test_witness_TwRecvbReceivesAByte :
    (polled .addressSent .dirR 0x50).Ready ∧ (polled .addressSent .dirR 0x50).ReadyAfter 2 ∧
    StatusIs avrP3 ((polled .addressSent .dirR 0x50).upcoming 3) 0x50 ∧
    ¬ StatusIs avrP3 ((polled .addressSent .dirR 0x50).upcoming 3) 0x58 ∧
    StatusIs avrP3 ((polled .addressSent .dirR 0x58).upcoming 3) 0x58 ∧
    ¬ StatusIs avrP3 ((polled .addressSent .dirR 0x58).upcoming 3) 0x50 ∧
    (deaf .addressSent .dirR).NeverReady ∧
    ¬ (((polled .addressSent .dirW 0).phase = .addressSent ∨ (polled .addressSent .dirW 0).phase = .dataTransferring) ∧
      (polled .addressSent .dirW 0).dir = .dirR) := by decide

theorem test_witness_TwCfgmWritesTheBitRate :
    (16000000 ≤ (withOperands 16000000 0).opA.toNat ∧ (withOperands 16000000 0).opA.toNat < 528000000) ∧
    (16000000 ≤ (withOperands 527999999 0).opA.toNat ∧ (withOperands 527999999 0).opA.toNat < 528000000) ∧
    (withOperands 15999999 0).opA.toNat < 16000000 ∧ 528000000 ≤ (withOperands 528000000 0).opA.toNat ∧
    (withOperands 528000000 0).Live := by decide

theorem test_witness_PhaseTransitionsFollowTheTable :
    exec .twStop (deaf .addressSent .dirW) = .next (after (exec .twStop (deaf .addressSent .dirW))) ∧
    (after (exec .twStop (deaf .addressSent .dirW))).response = .failed .timeout ∧
    exec .twStop halt = .next (after (exec .twStop halt)) ∧
    (after (exec .twStop halt)).response ≠ .success (after (exec .twStop halt)).response.result ∧
    (after (exec .twStop halt)).response ≠ .failed .timeout ∧
    exec .twRstart (deaf .addressSent .dirW) = .next (after (exec .twRstart (deaf .addressSent .dirW))) ∧
    (after (exec .twRstart (deaf .addressSent .dirW))).response ≠
      .success (after (exec .twRstart (deaf .addressSent .dirW))).response.result ∧
    exec (.twSlar 0x50) (polled .startSent .dirNone 0x40) =
      .next (after (exec (.twSlar 0x50) (polled .startSent .dirNone 0x40))) ∧
    (after (exec (.twSlar 0x50) (polled .startSent .dirNone 0x40))).response =
      .success (after (exec (.twSlar 0x50) (polled .startSent .dirNone 0x40))).response.result :=
  ⟨rfl, by decide, rfl, by decide, by decide, rfl, by decide, rfl, by decide⟩

theorem test_witness_TxnBeginOpensATransaction :
    (polled .stopPending .dirNone 0x08).Live ∧ (polled .stopPending .dirNone 0x08).txnOpen = false ∧
    (polled .stopPending .dirNone 0x08).ReadyAfter 2 ∧
    StatusIs avrP3 ((polled .stopPending .dirNone 0x08).upcoming 3) 0x08 ∧
    ¬ StatusIs avrP3 ((polled .stopPending .dirNone 0x00).upcoming 3) 0x08 ∧
    (deaf .idle .dirNone).NeverReady ∧ failed.Live ∧ failed.txnOpen = true := by decide

theorem test_witness_TxnEndStopsAndCloses :
    failed.Live ∧ failed.txnOpen = true ∧ State.ReadyAfter { failed with answers := [0x80] } 0 ∧
    (inTxn avrP3 .idle .dirNone false .none [0, 0, 0]).NeverReady ∧
    (inTxn avrP3 .idle .dirNone false .none [0, 0, 0]).txnOpen = true ∧ (deaf .idle .dirNone).txnOpen = false := by decide

/-- A transaction before its first link, after it, and in a phase that no link accepts. -/
def unlinked (status : Byte) : State := inTxn avrP3 .startSent .dirNone false .none [0x00, 0x24, 0x80, status]
def linked (status : Byte) : State := inTxn avrP3 .dataTransferring .dirW true .none [0x00, 0x24, 0x80, status, 0x80, 0x18]

theorem test_witness_links_first :
    (unlinked 0x18).Ready ∧ (unlinked 0x18).txnOpen = true ∧ (unlinked 0x18).txnStarted = false ∧
    (unlinked 0x18).phase = .startSent ∧ State.ReadyAfter { unlinked 0x18 with txnStarted := true } 2 ∧
    StatusIs avrP3 ((unlinked 0x18).upcoming 3) 0x18 ∧ ¬ StatusIs avrP3 ((unlinked 0x20).upcoming 3) 0x18 ∧
    StatusIs avrP3 ((unlinked 0x40).upcoming 3) 0x40 ∧ ¬ StatusIs avrP3 ((unlinked 0x48).upcoming 3) 0x40 ∧
    (inTxn avrP3 .startSent .dirNone false .none [0, 0, 0]).NeverReady := by decide

theorem test_witness_links_later :
    (linked 0x10).Ready ∧ (linked 0x10).txnOpen = true ∧ (linked 0x10).txnStarted = true ∧
    (linked 0x10).phase = .dataTransferring ∧ (linked 0x10).ReadyAfter 2 ∧
    StatusIs avrP3 ((linked 0x10).upcoming 3) 0x10 ∧ ¬ StatusIs avrP3 ((linked 0x38).upcoming 3) 0x10 ∧
    (inTxn avrP3 .dataTransferring .dirW true .none [0, 0, 0]).NeverReady := by decide

theorem test_witness_links_illegal :
    (deaf .startSent .dirNone).Ready ∧ (deaf .startSent .dirNone).txnOpen = false ∧
    (inTxn avr .idle .dirNone true .none []).Ready ∧ (inTxn avr .addressSent .dirW false .none []).Ready := by decide

theorem test_witness_StopTriggersComeFromStopAndEnd :
    avr.Valid ∧ avr.twdatAddr ≠ avr.twctlAddr ∧ avr.twbrAddr ≠ avr.twctlAddr ∧
    exec .twStart (inPhase avr .idle .dirNone [0x80, 8]) =
      .next (after (exec .twStart (inPhase avr .idle .dirNone [0x80, 8]))) ∧
    (inPhase avr .idle .dirNone [0x80]).Ready ∧
    exec .twStop (inPhase avr .idle .dirNone [0x80]) =
      .next (after (exec .twStop (inPhase avr .idle .dirNone [0x80]))) ∧
    exec .txnEnd { failed with answers := [0x80] } = .next (after (exec .txnEnd { failed with answers := [0x80] })) :=
  ⟨by decide, by decide, by decide, rfl, by decide, rfl, rfl⟩

theorem test_witness_TransactionReturnsItsFirstFailure :
    (deaf .idle .dirNone).Live ∧ (deaf .idle .dirNone).txnOpen = false ∧
    ∀ i ∈ [Instr.txnXmit 0x50, .twSendb 0x10, .txnRecv 0x50, .twRecvb false],
      Skippable i = true ∧ WellFormed i = true := by decide

theorem test_witness_HelpersNeverFault :
    (deaf .idle .dirNone).Live ∧ (deaf .idle .dirNone).txnOpen = false ∧
    (Helper.rdrange 0x50 0x10 0x11).expand = some ((Helper.rdrange 0x50 0x10 0x11).expand.getD []) := by decide

theorem test_witness_SplitThenJoinIsTheValue : 1 ≤ 2 ∧ 0xABCD < 2 ^ (8 * 2) ∧ splitBytes 0xABCD 2 = [0xAB, 0xCD] := by
  decide

end Sys2Proof.Tests
end

section
/-! The engine state over steps (10_state.md): what every command keeps, the consistency invariant, the fault record,
the command position, and the states after reset. -/

namespace Sys2Proof.Machine

/-! ## What a step leaves of the state -/

theorem Accessed.latches {rs ws : List Addr} {n : Nat} {s t : State} (h : Accessed rs ws n s t) :
    t.opA = s.opA ∧ t.opB = s.opB := by
  obtain ⟨_, -, -, -, -, -, -, -, hA, hB, -⟩ := h
  exact ⟨hA, hB⟩

theorem Accessed.position {rs ws : List Addr} {n : Nat} {s t : State} (h : Accessed rs ws n s t) :
    t.cp = s.cp ∧ t.inputs = s.inputs := by
  obtain ⟨_, -, -, -, -, -, -, -, -, -, hcp, hin, -⟩ := h
  exact ⟨hcp, hin⟩

/-- Settles O15: a wait and a reset do not write the configuration, and no command does. -/
theorem configurationIsConstant : Obligations.ConfigurationIsConstant := by
  intro s t h
  rcases step_cases h with ⟨-, rfl⟩ | ⟨rest, -, rfl⟩ | ⟨c, rest, i, -, -, he⟩ | ⟨c, rest, e, -, -, rfl⟩
  · rfl
  · rfl
  · exact (exec_accessed he).cfg
  · rfl

/-- Settles O16: `present` advances `cp`, and neither a command nor the rejection of a word moves it again. -/
theorem everyCommandAdvancesThePositionByOne : Obligations.EveryCommandAdvancesThePositionByOne := by
  intro s t c rest hs h
  cases hd : decode c.word with
  | ok i =>
    rw [step_command hs hd] at h
    exact (exec_accessed h).position
  | error e =>
    rw [step_illegal hs hd] at h
    exact (command_accessed (rs := []) (ws := []) (raiseFault_accessed .illegalCommand _) h).position

/-- Settles O5: the latches are those that `present` loads. -/
theorem stepRunsThePresentedCommand : Obligations.StepRunsThePresentedCommand := by
  intro s c rest i hs hd
  exact ⟨_, _, _, fun v hv => latchValue_given hv s.latchDraws, fun v hv => latchValue_given hv (s.latchDraws + 1),
    step_command hs hd⟩

/-! ## The engine state stays consistent (R22 to R26, R28) -/

/-- The invariant: the engine state is consistent and the response is one the spec allows. -/
def State.Consistent (s : State) : Prop := s.EngineOk ∧ s.response.Ok

theorem Response.cleared_ok : Response.cleared.Ok := by
  simp [Response.Ok, Response.cleared]

/-- A fault comes with every other field 0 (60_exceptions.md R193). -/
theorem Response.ofFault_ok (c : FaultCause) : (Response.ofFault c).Ok := by
  simp [Response.Ok, Response.ofFault]

theorem Response.ofSkip_ok {f : Failure} (h : f ≠ .none) : (Response.ofSkip f).Ok := by
  simp [Response.Ok, Response.ofSkip, h]

/-- Cause code 1 has bit 0 of `FLT`, so `EnumFatal` alone sets it (10_state.md R26). -/
theorem faultBit_getLsbD_zero (c : FaultCause) : (faultBit c).getLsbD 0 = (c == .enumFatal) := by
  cases c <;> rfl

/-- A fault sets the halt together with the `EnumFatal` bit. -/
theorem raiseFault_consistent (c : FaultCause) {s : State} (h : s.EngineOk) : (raiseFault c s).Consistent := by
  obtain ⟨htxn, hdir, hhalt⟩ := h
  refine ⟨⟨htxn, hdir, ?_⟩, Response.ofFault_ok c⟩
  rw [raiseFault_halted, raiseFault_flt, BitVec.getLsbD_or, faultBit_getLsbD_zero, Bool.or_eq_true, Bool.or_eq_true,
    hhalt]

theorem skip_consistent {s : State} (h : s.EngineOk) (hs : s.Skips) :
    State.Consistent { s with response := .ofSkip s.firstFail } :=
  ⟨h, Response.ofSkip_ok hs.2.2⟩

theorem Executed.consistent {s t : State} (h : Executed s t) (hs : s.EngineOk) : t.Consistent := by
  obtain ⟨hflt, hhalted, ⟨f, v, hresp, hv⟩, hdir, htxn⟩ := h
  obtain ⟨stxn, sdir, shalt⟩ := hs
  refine ⟨⟨htxn stxn, hdir sdir, by rw [hflt, hhalted]; exact shalt⟩, ?_⟩
  rw [hresp]
  exact ⟨fun hf => absurd rfl hf, by simp, hv⟩

/-- Rejected, skipped or executed, a command keeps the invariant. -/
theorem exec_consistent {i : Instr} {s t : State} (h : exec i s = .next t) (hs : s.EngineOk) : t.Consistent := by
  rcases exec_ends h with ⟨c, -, rfl, -⟩ | ⟨hskip, -, rfl⟩ | ⟨-, hx⟩
  · exact raiseFault_consistent c hs
  · exact skip_consistent hs hskip
  · exact hx.consistent hs

theorem resetEngine_consistent (s : State) : (resetEngine s).Consistent := by
  refine ⟨⟨fun _ => ⟨rfl, rfl⟩, ?_, ?_⟩, Response.cleared_ok⟩ <;> simp

/-- Settles O11: each of the four things a step can do keeps the invariant; a presented word leaves the engine state to
the command or to the rejection. -/
theorem engineStateStaysConsistent : Obligations.EngineStateStaysConsistent := by
  intro s t hs h
  rcases step_cases h with ⟨-, rfl⟩ | ⟨rest, -, rfl⟩ | ⟨c, rest, i, -, -, he⟩ | ⟨c, rest, e, -, -, rfl⟩
  · exact hs
  · exact resetEngine_consistent _
  · exact exec_consistent he hs.1
  · exact raiseFault_consistent _ hs.1

/-! ## The fault record is sticky (R26, R196) -/

/-- Every bit of `FLT` set in `s` is set in `t`, and if `s` is halted so is `t`. -/
def FaultsKept (s t : State) : Prop :=
  (∀ b, s.flt.getLsbD b = true → t.flt.getLsbD b = true) ∧ (s.halted = true → t.halted = true)

theorem faultsKept_of_eq {s t : State} (hflt : t.flt = s.flt) (hhalted : t.halted = s.halted) : FaultsKept s t :=
  ⟨fun b hb => by rw [hflt]; exact hb, fun hh => hhalted.trans hh⟩

theorem raiseFault_faultsKept (c : FaultCause) (s : State) : FaultsKept s (raiseFault c s) :=
  ⟨fun b hb => by simp [hb], fun hh => by simp [hh]⟩

theorem exec_faultsKept {i : Instr} {s t : State} (h : exec i s = .next t) : FaultsKept s t := by
  rcases exec_ends h with ⟨c, -, rfl, -⟩ | ⟨-, -, rfl⟩ | ⟨-, hflt, hhalted, -⟩
  · exact raiseFault_faultsKept c s
  · exact faultsKept_of_eq rfl rfl
  · exact faultsKept_of_eq hflt hhalted

/-- Settles O18: a wait changes nothing, and a presented word can only add to the record. -/
theorem faultRecordIsSticky : Obligations.FaultRecordIsSticky := by
  intro s t hr h
  show FaultsKept s t
  rcases step_cases h with ⟨-, rfl⟩ | ⟨rest, hi, -⟩ | ⟨c, rest, i, -, -, he⟩ | ⟨c, rest, e, -, -, rfl⟩
  · exact faultsKept_of_eq rfl rfl
  · exact absurd (by rw [hi]; rfl) hr
  · exact exec_faultsKept (s := present c (withInputs rest s)) he
  · exact raiseFault_faultsKept _ (present c (withInputs rest s))

/-! ## No command reads `cp` (R29) -/

/-- The state with another command position. -/
def setCp (n : Nat) (s : State) : State := { s with cp := n }

/-- An update of the state that does the same at every command position. -/
def IgnoresCp (body : State → State) : Prop := ∀ n s, body (setCp n s) = setCp n (body s)

/-- A procedure of the driver that does the same, and fails the same, at every command position. -/
def ProcIgnoresCp (proc : State → Failure × State) : Prop :=
  ∀ n s, proc (setCp n s) = ((proc s).1, setCp n (proc s).2)

theorem waitUntilReady_ignoresCp : ProcIgnoresCp waitUntilReady := by
  intro n s
  rcases readyAfter_or_never s with ⟨k, hk⟩ | hn
  · rw [waitUntilReady_ready hk, waitUntilReady_ready (s := setCp n s) hk]
    rfl
  · rw [waitUntilReady_timeout hn, waitUntilReady_timeout (s := setCp n s) hn]
    rfl

theorem primitive_ignoresCp (ev : BusEvent) : ProcIgnoresCp (primitive ev) := by
  intro n s
  rcases readyAfter_or_never s with ⟨k, hk⟩ | hn
  · cases he : eventStatus s.cfg ev with
    | none =>
      rw [primitive_unchecked he hk, primitive_unchecked (s := setCp n s) he hk]
      rfl
    | some code =>
      rw [primitive_checked he hk, primitive_checked (s := setCp n s) he hk]
      rfl
  · rw [primitive_timeout ev hn, primitive_timeout ev (s := setCp n s) hn]
    rfl

theorem onSuccess_ignoresCp {move : State → State} {proc : State → Failure × State} (hm : IgnoresCp move)
    (hp : ProcIgnoresCp proc) : ProcIgnoresCp (fun s => onSuccess move (proc s)) := by
  intro n s
  simp only [hp n s]
  rcases proc s with ⟨_ | _ | _, t⟩
  · simp only [onSuccess, hm n t]
  · rfl
  · rfl

theorem startProc_ignoresCp : ProcIgnoresCp startProc :=
  onSuccess_ignoresCp (fun _ _ => rfl) (primitive_ignoresCp .start)

theorem rstartProc_ignoresCp : ProcIgnoresCp rstartProc :=
  onSuccess_ignoresCp (fun _ _ => rfl) (primitive_ignoresCp .rstart)

theorem stopProc_ignoresCp : ProcIgnoresCp stopProc :=
  fun n s => onSuccess_ignoresCp (move := moveTo .idle .dirNone) (fun _ _ => rfl) (primitive_ignoresCp .stop) n
    (moveTo .stopPending .dirNone s)

theorem slawProc_ignoresCp (a : BitVec 7) : ProcIgnoresCp (slawProc a) :=
  onSuccess_ignoresCp (fun _ _ => rfl) (primitive_ignoresCp (.addressW a))

theorem slarProc_ignoresCp (a : BitVec 7) : ProcIgnoresCp (slarProc a) :=
  onSuccess_ignoresCp (fun _ _ => rfl) (primitive_ignoresCp (.addressR a))

theorem sendbProc_ignoresCp (b : Byte) : ProcIgnoresCp (sendbProc b) :=
  onSuccess_ignoresCp (fun _ _ => rfl) (primitive_ignoresCp (.tx b))

/-- A linked address phase ignores `cp` as its address phase does. -/
theorem linkProc_ignoresCp {address : State → Failure × State} (h : ProcIgnoresCp address) :
    ProcIgnoresCp (linkProc address) := by
  intro n s
  have hst : (setCp n s).txnStarted = s.txnStarted := rfl
  simp only [linkProc, hst, rstartProc_ignoresCp n s]
  split
  · rcases rstartProc s with ⟨_ | _ | _, t⟩
    · exact h n t
    · rfl
    · rfl
  · exact h n (setTxn s.txnOpen true s.firstFail s)

theorem runProc_ignoresCp {proc : State → Failure × State} (h : ProcIgnoresCp proc) : IgnoresCp (runProc proc) := by
  intro n s
  simp only [runProc, h n s]
  rfl

theorem receiveByte_ignoresCp (ack : Bool) : IgnoresCp (receiveByte ack) := by
  intro n s
  simp only [receiveByte, primitive_ignoresCp (.rx ack) n s]
  rcases primitive (.rx ack) s with ⟨_ | _ | _, t⟩ <;> rfl

theorem beginTxn_ignoresCp : IgnoresCp beginTxn := by
  intro n s
  have h : startProc (setTxn true false .none (setCp n s)) = _ := startProc_ignoresCp n (setTxn true false .none s)
  simp only [beginTxn, h]
  rfl

theorem endTxn_ignoresCp : IgnoresCp endTxn := by
  intro n s
  simp only [endTxn, stopProc_ignoresCp n s]
  rfl

theorem decodeEnum_ignoresCp (d : Bool) (etab : Nat) (e : Latch) : IgnoresCp (decodeEnum d etab e) := by
  intro n s
  have hcfg : (setCp n s).cfg = s.cfg := rfl
  simp only [decodeEnum, hcfg]
  cases enumCase s.cfg etab e with
  | some case => rfl
  | none => cases d <;> rfl

theorem configureMaster_ignoresCp (clockHz : Nat) : IgnoresCp (configureMaster clockHz) := by
  intro n s
  simp only [configureMaster]
  cases bitRate clockHz <;> rfl

theorem require_ignoresCp {g : State → Bool} {body : State → State} (hg : ∀ n s, g (setCp n s) = g s)
    (h : IgnoresCp body) : IgnoresCp (fun s => require (g s) body s) := by
  intro n s
  simp only [require, hg n s]
  split
  · exact h n s
  · rfl

theorem inRange_ignoresCp (valid : Bool) {body : State → State → State}
    (h : IgnoresCp (fun s => body s s)) : IgnoresCp (fun s => inRange valid (body s) s) := by
  intro n s
  cases valid
  · rfl
  · exact h n s

theorem command_ignoresCp {body : State → State} {s t : State} (he : command body s = .next t) (n : Nat)
    (h : IgnoresCp body) : command body (setCp n s) = .next (setCp n t) := by
  have hh : (setCp n s).halted = s.halted := rfl
  cases he
  simp only [command, hh, h n s]
  split <;> rfl

theorem skippable_ignoresCp {body : State → State} {s t : State} (he : skippable body s = .next t) (n : Nat)
    (h : IgnoresCp body) : skippable body (setCp n s) = .next (setCp n t) := by
  refine command_ignoresCp he n fun n s => ?_
  have hs : (setCp n s).skipping = s.skipping := rfl
  simp only [hs, h n s]
  split <;> rfl

/-- Whatever the command and the state, `exec` does the same at every command position. -/
theorem exec_ignoresCp {i : Instr} {s t : State} (n : Nat) (h : exec i s = .next t) :
    exec i (setCp n s) = .next (setCp n t) := by
  cases i
  case bitmask => exact command_ignoresCp h n (inRange_ignoresCp _ fun _ _ => rfl)
  case hasbit => exact command_ignoresCp h n (inRange_ignoresCp _ fun _ _ => rfl)
  case getbit => exact command_ignoresCp h n (inRange_ignoresCp _ fun _ _ => rfl)
  case getbits => exact command_ignoresCp h n (inRange_ignoresCp _ fun _ _ => rfl)
  case getenum => exact command_ignoresCp h n (inRange_ignoresCp _ fun n s => decodeEnum_ignoresCp _ _ _ n s)
  case setbit => exact command_ignoresCp h n (inRange_ignoresCp _ fun _ _ => rfl)
  case setbits => exact command_ignoresCp h n (inRange_ignoresCp _ fun _ _ => rfl)
  case togbit => exact command_ignoresCp h n (inRange_ignoresCp _ fun _ _ => rfl)
  case regRd a => exact command_ignoresCp (body := readRegister a) h n fun _ _ => rfl
  case regWr a =>
    exact command_ignoresCp (body := fun s => respond (.ofFailure .none none) (memWrite a (operand 8 s.opA) s)) h n
      fun _ _ => rfl
  case twWait => exact skippable_ignoresCp h n (runProc_ignoresCp waitUntilReady_ignoresCp)
  case twStart => exact skippable_ignoresCp h n (runProc_ignoresCp startProc_ignoresCp)
  case twRstart =>
    exact skippable_ignoresCp h n (require_ignoresCp (fun _ _ => rfl) (runProc_ignoresCp rstartProc_ignoresCp))
  case twStop => exact skippable_ignoresCp h n (runProc_ignoresCp stopProc_ignoresCp)
  case twSlaw a =>
    exact skippable_ignoresCp h n (require_ignoresCp (fun _ _ => rfl) (runProc_ignoresCp (slawProc_ignoresCp a)))
  case twSlar a =>
    exact skippable_ignoresCp h n (require_ignoresCp (fun _ _ => rfl) (runProc_ignoresCp (slarProc_ignoresCp a)))
  case twSendb b =>
    exact skippable_ignoresCp h n (require_ignoresCp (fun _ _ => rfl) (runProc_ignoresCp (sendbProc_ignoresCp b)))
  case twRecvb ack =>
    exact skippable_ignoresCp h n (require_ignoresCp (fun _ _ => rfl) (receiveByte_ignoresCp ack))
  case twCfgm =>
    exact command_ignoresCp (body := fun s => configureMaster s.opA.toNat s) h n
      fun n s => configureMaster_ignoresCp s.opA.toNat n s
  case txnBegin => exact command_ignoresCp h n (require_ignoresCp (fun _ _ => rfl) beginTxn_ignoresCp)
  case txnEnd => exact command_ignoresCp h n (require_ignoresCp (fun _ _ => rfl) endTxn_ignoresCp)
  case txnXmit a =>
    exact skippable_ignoresCp h n (require_ignoresCp (fun _ _ => rfl)
      (runProc_ignoresCp (linkProc_ignoresCp (slawProc_ignoresCp a))))
  case txnRecv a =>
    exact skippable_ignoresCp h n (require_ignoresCp (fun _ _ => rfl)
      (runProc_ignoresCp (linkProc_ignoresCp (slarProc_ignoresCp a))))

/-- Settles O24: the frame is that of the accesses of a command; the other half is `exec_ignoresCp`. -/
theorem commandsLeaveLatchesAndPosition : Obligations.CommandsLeaveLatchesAndPosition := by
  intro i s t n h
  have ha := exec_accessed h
  exact ⟨ha.latches.1, ha.latches.2, ha.position.1, ha.position.2, exec_ignoresCp n h⟩

/-! ## The state after reset (R38, R211) -/

/-- Settles O9: the fields as R38 lists them, and the space and the trace empty. -/
theorem resetStateIsAsTheSpecGives : Obligations.ResetStateIsAsTheSpecGives :=
  ⟨rfl, rfl, rfl, rfl, rfl, rfl, rfl, rfl, rfl, rfl, rfl⟩

/-- Settles O12: the reset input leaves a consistent state, and the state after reset is one it leaves as it is. -/
theorem engineStateConsistentAfterReset : Obligations.EngineStateConsistentAfterReset :=
  resetEngine_consistent State.reset

/-- Settles O14: nothing is listed, nothing was accessed, nothing was drawn. -/
theorem registerSpaceCleanAfterReset : Obligations.RegisterSpaceCleanAfterReset :=
  ⟨Memory.wf_nil, fun _ => rfl, rfl⟩

/-! ## The peripheral's answers are free (R21) -/

/-- Settles O37: the environment whose one pending answer is the byte. -/
theorem everyAnswerIsPossible : Obligations.EveryAnswerIsPossible := by
  intro s a b hl
  exact ⟨[b], _, command_live (s := { s with answers := [b] }) hl (readRegister a), rfl, rfl, rfl⟩

end Sys2Proof.Machine
end

section
/-! The register space and the trace (20_memory.md): what the accesses of a command leave of them, the invariant that the
space follows the trace, and the registers a command reaches. -/

namespace Sys2Proof.Machine

/-! ## The register space follows the trace (R51, R62) -/

/-- The invariant speaks of the register space, the trace and the draw counter alone. -/
theorem spaceOk_of_eq {s t : State} (hmem : t.mem = s.mem) (htrace : t.trace = s.trace) (hdraws : t.draws = s.draws)
    (h : s.SpaceOk) : t.SpaceOk := by
  simpa only [State.SpaceOk, State.handed, hmem, htrace, hdraws] using h

/-- Accesses that are each recorded once, and handed over or drawn once, keep the invariant. -/
theorem Accessed.spaceOk {rs ws : List Addr} {n : Nat} {s t : State} (h : Accessed rs ws n s t) (hs : s.SpaceOk) :
    t.SpaceOk := by
  obtain ⟨l, -, htrace, hdraws, -, hwf, hhanded, -⟩ := h
  obtain ⟨swf, shanded, sdraws⟩ := hs
  refine ⟨hwf swf, fun a => ?_, ?_⟩
  · rw [hhanded, shanded, htrace, lastWritten_append]
  · rw [hdraws, sdraws, htrace, List.countP_append]

/-- Settles O13: a wait, a reset and the rejection of a word make no access; a command keeps the invariant by its
accesses. -/
theorem registerSpaceFollowsTheTrace : Obligations.RegisterSpaceFollowsTheTrace := by
  intro s t hs h
  rcases step_cases h with ⟨-, rfl⟩ | ⟨rest, -, rfl⟩ | ⟨c, rest, i, -, -, he⟩ | ⟨c, rest, e, -, -, rfl⟩
  · exact hs
  · exact spaceOk_of_eq rfl rfl rfl hs
  · exact (exec_accessed he).spaceOk (spaceOk_of_eq rfl rfl rfl hs)
  · exact spaceOk_of_eq rfl rfl rfl hs

/-! ## A command reaches its own registers alone (R52) -/

/-- The accesses added to the trace are within the addresses given. -/
theorem Accessed.trace_within {rs ws : List Addr} {n : Nat} {s t : State} (h : Accessed rs ws n s t) :
    ∃ l, t.trace = s.trace ++ l ∧ ∀ x ∈ l, x.Within rs ws := by
  obtain ⟨l, ⟨-, hl⟩, htrace, -⟩ := h
  exact ⟨l, htrace, hl⟩

/-- An address outside those written holds what it held. -/
theorem Accessed.handed_of_not_mem {rs ws : List Addr} {n : Nat} {s t : State} (h : Accessed rs ws n s t) {a : Addr}
    (ha : a ∉ ws) : t.handed a = s.handed a := by
  obtain ⟨l, ⟨-, hl⟩, -, -, -, -, hhanded, -⟩ := h
  rw [hhanded, lastWritten_of_not_mem ha _ hl]

/-- Settles O21: the accesses of a command are at the addresses named for it. -/
theorem commandsReachOnlyTheirOwnRegisters : Obligations.CommandsReachOnlyTheirOwnRegisters := by
  intro i s t h
  have ha := exec_accessed h
  exact ⟨ha.trace_within, fun _ hn => ha.handed_of_not_mem hn⟩

end Sys2Proof.Machine
end

section
/-! The encoding (30_encoding.md): the decoder follows the one row a word selects, and the encoder and the decoder are
inverse to each other, on well-formed commands and on legal words; an illegal word is rejected. -/

namespace Sys2Proof

open Laws

/-! ## The selected row (R79) -/

/-- A word selects at most one row. -/
theorem row_eq_of_selects {r r' : Row} (hr : r ∈ table) (hr' : r' ∈ table) {w : CmdWord} (h : r.selects w = true)
    (h' : r'.selects w = true) : r = r' :=
  Option.some.inj ((find_unique (table_exclusive w) hr h).symm.trans (find_unique (table_exclusive w) hr' h'))

/-- Settles O3: two selected rows are the same row, and a word that decodes selects one. -/
theorem decoderFollowsTheOneSelectedRow : Obligations.DecoderFollowsTheOneSelectedRow := by
  intro w
  refine ⟨fun r hr h => decode_of_selects hr (beq_iff_eq.mpr h), fun r hr r' hr' h h' => ?_, fun hnone => ?_⟩
  · rw [row_eq_of_selects hr hr' (beq_iff_eq.mpr h) (beq_iff_eq.mpr h')]
  · cases hd : decode w with
    | ok i =>
      obtain ⟨r, hr, hs, -⟩ := selects_of_decode hd
      exact absurd (beq_iff_eq.mp hs) (hnone r hr)
    | error e => exact ⟨e, rfl⟩

/-- Settles O4: the decoder is run on each of the nine words. -/
theorem wordsOfTheSpecDecodeAsTheSpecSays : Obligations.WordsOfTheSpecDecodeAsTheSpecSays := by
  unfold Obligations.WordsOfTheSpecDecodeAsTheSpecSays
  decide

/-! ## Decoding the word of a command (R71 to R75) -/

/-- The mnemonics of the table are pairwise different. -/
theorem table_mnemonics_nodup : (table.map Row.mnemonic).Nodup := by decide

/-- A command decodes back if the `k`-th row has its mnemonic and reads its fields back. -/
theorem decode_encode_of_row {i : Instr} (hown : OwnRow.Statement i) (k : Fin 23)
    (hm : (table.get k).mnemonic = mnemonicOf i) (hb : (table.get k).build (encode i) = i) :
    decode (encode i) = .ok i := by
  obtain ⟨r, hr, hrm, hs⟩ := hown
  have he : r = table.get k :=
    List.inj_on_of_nodup_map table_mnemonics_nodup hr (List.get_mem table k) (hrm.trans hm.symm)
  rw [decode_of_selects hr hs, he, hb]

theorem mod_of_indexFits {i : Nat} (h : indexFits i = true) : i % 64 = i := Nat.mod_eq_of_lt (of_decide_eq_true h)

theorem mod_of_tableFits {t : Nat} (h : tableFits t = true) : t % 32 = t := Nat.mod_eq_of_lt (of_decide_eq_true h)

/-- The fields of a range command are read back. -/
theorem rangeFields_formatB (f : Width → Nat → Nat → Instr) (op : BitVec 8) (w : Width) {lo hi : Nat}
    (h : (indexFits lo && indexFits hi) = true) :
    f (fieldWsel (formatB op w false 0 hi lo)) (fieldLo (formatB op w false 0 hi lo))
      (fieldHi (formatB op w false 0 hi lo)) = f w lo hi := by
  obtain ⟨hlo, hhi⟩ := Bool.and_eq_true_iff.mp h
  rw [fieldWsel_formatB, fieldLo_formatB, fieldHi_formatB, mod_of_indexFits hlo, mod_of_indexFits hhi]

/-- The fields of a single-bit command are read back. -/
theorem indexFields_formatB (f : Width → Nat → Instr) (op : BitVec 8) (w : Width) {lo : Nat}
    (h : indexFits lo = true) :
    f (fieldWsel (formatB op w false 0 0 lo)) (fieldLo (formatB op w false 0 0 lo)) = f w lo := by
  rw [fieldWsel_formatB, fieldLo_formatB, mod_of_indexFits h]

/-- The fields of GETENUM are read back. -/
theorem enumFields_formatB (f : Width → Bool → Nat → Nat → Nat → Instr) (op : BitVec 8) (w : Width) (d : Bool)
    {etab lo hi : Nat} (h : (tableFits etab && indexFits lo && indexFits hi) = true) :
    f (fieldWsel (formatB op w d etab hi lo)) (fieldHasdef (formatB op w d etab hi lo))
      (fieldEtab (formatB op w d etab hi lo)) (fieldLo (formatB op w d etab hi lo))
      (fieldHi (formatB op w d etab hi lo)) = f w d etab lo hi := by
  obtain ⟨h', hhi⟩ := Bool.and_eq_true_iff.mp h
  obtain ⟨het, hlo⟩ := Bool.and_eq_true_iff.mp h'
  rw [fieldWsel_formatB, fieldHasdef_formatB, fieldEtab_formatB, fieldLo_formatB, fieldHi_formatB,
    mod_of_tableFits het, mod_of_indexFits hlo, mod_of_indexFits hhi]

/-- Settles O1: the word of each command selects the command's own row, and the row reads back the fields that the
format holds. -/
theorem decodeOfEncodeIsTheCommand : Obligations.DecodeOfEncodeIsTheCommand := by
  intro i h
  cases i with
  | bitmask w lo hi =>
    exact decode_encode_of_row (OwnRow.bitmask w lo hi) 0 rfl (rangeFields_formatB .bitmask 0x10 w h)
  | hasbit w lo => exact decode_encode_of_row (OwnRow.hasbit w lo) 1 rfl (indexFields_formatB .hasbit 0x11 w h)
  | getbit w lo => exact decode_encode_of_row (OwnRow.getbit w lo) 2 rfl (indexFields_formatB .getbit 0x12 w h)
  | getbits w lo hi =>
    exact decode_encode_of_row (OwnRow.getbits w lo hi) 3 rfl (rangeFields_formatB .getbits 0x13 w h)
  | getenum w d etab lo hi =>
    exact decode_encode_of_row (OwnRow.getenum w d etab lo hi) 4 rfl (enumFields_formatB .getenum 0x14 w d h)
  | setbit w lo => exact decode_encode_of_row (OwnRow.setbit w lo) 5 rfl (indexFields_formatB .setbit 0x15 w h)
  | setbits w lo hi =>
    exact decode_encode_of_row (OwnRow.setbits w lo hi) 6 rfl (rangeFields_formatB .setbits 0x16 w h)
  | togbit w lo => exact decode_encode_of_row (OwnRow.togbit w lo) 7 rfl (indexFields_formatB .togbit 0x17 w h)
  | regRd a => exact Machine.decode_regRd a
  | regWr a => exact Machine.decode_regWr a
  | twWait => exact decode_encode_of_row OwnRow.twWait 10 rfl rfl
  | twStart => exact decode_encode_of_row OwnRow.twStart 11 rfl rfl
  | twRstart => exact decode_encode_of_row OwnRow.twRstart 12 rfl rfl
  | twStop => exact decode_encode_of_row OwnRow.twStop 13 rfl rfl
  | twSlaw a => exact decode_encode_of_row (OwnRow.twSlaw a) 14 rfl (congrArg Instr.twSlaw (fieldAddr7_formatT _ a))
  | twSlar a => exact decode_encode_of_row (OwnRow.twSlar a) 15 rfl (congrArg Instr.twSlar (fieldAddr7_formatT _ a))
  | twSendb b => exact decode_encode_of_row (OwnRow.twSendb b) 16 rfl (congrArg Instr.twSendb (fieldImm8_formatT _ b))
  | twRecvb ack =>
    exact decode_encode_of_row (OwnRow.twRecvb ack) 17 rfl (congrArg Instr.twRecvb (fieldAck_formatT _ ack))
  | twCfgm => exact decode_encode_of_row OwnRow.twCfgm 18 rfl rfl
  | txnBegin => exact decode_encode_of_row OwnRow.txnBegin 19 rfl rfl
  | txnEnd => exact decode_encode_of_row OwnRow.txnEnd 20 rfl rfl
  | txnXmit a => exact decode_encode_of_row (OwnRow.txnXmit a) 21 rfl (congrArg Instr.txnXmit (fieldAddr7_formatT _ a))
  | txnRecv a => exact decode_encode_of_row (OwnRow.txnRecv a) 22 rfl (congrArg Instr.txnRecv (fieldAddr7_formatT _ a))

/-! ## The word of a decoded command (R71 to R74, R80) -/

/-- Under the mask `m` the word is the opcode `op` alone: every must-be-zero bit is clear (R70, R74). -/
def Masked (w m : CmdWord) (op : BitVec 8) : Prop := w &&& m = op ++ 0#24

namespace Masked

variable {w m : CmdWord} {op : BitVec 8}

/-- A smaller mask that still covers the opcode. -/
theorem weaken {m' : CmdWord} (h : Masked w m op) (hm : m &&& m' = m' ∧ 0xFF000000 &&& m' = 0xFF000000) :
    Masked w m' op := by
  obtain ⟨hsub, hop⟩ := hm
  have hpat : (op ++ 0#24 : CmdWord) = (op ++ 0#24) &&& 0xFF000000 := by
    refine Eq.trans ?_ (BitVec.and_append (x₁ := op) (x₂ := 0xFF#8) (y₁ := 0#24) (y₂ := 0#24)).symm
    rw [BitVec.and_self, show op &&& 0xFF#8 = op from BitVec.and_allOnes]
  calc w &&& m' = (w &&& m) &&& m' := by rw [BitVec.and_assoc, hsub]
    _ = (op ++ 0#24) &&& 0xFF000000 &&& m' := by rw [show w &&& m = op ++ 0#24 from h, ← hpat]
    _ = op ++ 0#24 := by rw [BitVec.and_assoc, hop, ← hpat]

/-- A masked bit below the opcode is clear. -/
theorem bit_clear (h : Masked w m op) {j : Nat} (hj : j < 24) (hm : m.getLsbD j = true) : w.getLsbD j = false := by
  have hp : (op ++ 0#24 : CmdWord).getLsbD j = false := by
    rw [show (op ++ 0#24 : CmdWord).getLsbD j = _ from BitVec.getLsbD_append, if_pos hj, BitVec.getLsbD_zero]
  rw [← h, BitVec.getLsbD_and, hm, Bool.and_true] at hp
  exact hp

/-- The opcode, which the mask covers, is `op`. -/
theorem opcode_eq (h : Masked w m op) (hm : opcode m = 0xFF#8) : opcode w = op := by
  have ho : opcode w &&& opcode m = opcode (op ++ 0#24) := by
    rw [← show w &&& m = op ++ 0#24 from h, opcode, opcode, opcode, BitVec.extractLsb_and]
  rw [hm] at ho
  calc opcode w = opcode w &&& 0xFF#8 := (BitVec.and_allOnes (x := opcode w)).symm
    _ = opcode (op ++ 0#24) := ho
    _ = op := BitVec.extractLsb'_append_eq_left

/-- A field of masked bits is 0. -/
theorem field_eq_zero (h : Masked w m op) {hi lo : Nat}
    (hm : ∀ i < hi - lo + 1, lo + i < 24 ∧ m.getLsbD (lo + i) = true) : field w hi lo = 0 := by
  have hz : w.extractLsb hi lo = 0#(hi - lo + 1) := by
    apply BitVec.eq_of_getLsbD_eq
    intro i hi
    obtain ⟨hlt, hbit⟩ := hm i hi
    rw [BitVec.extractLsb, BitVec.getLsbD_extractLsb', h.bit_clear hlt hbit, Bool.and_false, BitVec.getLsbD_zero]
  simp [field, hz]

/-- Clearing masked bits alone changes nothing. -/
theorem and_eq_self (h : Masked w m op) {keep : CmdWord}
    (hk : ∀ j < 32, keep.getLsbD j = true ∨ j < 24 ∧ m.getLsbD j = true) : w &&& keep = w := by
  apply BitVec.eq_of_getLsbD_eq
  intro j hj
  rw [BitVec.getLsbD_and]
  rcases hk j hj with hkeep | ⟨hlt, hbit⟩
  · rw [hkeep, Bool.and_true]
  · rw [h.bit_clear hlt hbit, Bool.false_and]

/-! The low byte, when its unused bits are masked. -/

theorem imm8_addr7 (h : Masked w 0xFFFFFF80 op) : fieldImm8 w = 0#1 ++ fieldAddr7 w := by
  apply BitVec.eq_of_getLsbD_eq
  intro j hj
  rw [show (0#1 ++ fieldAddr7 w : Byte).getLsbD j = _ from BitVec.getLsbD_append]
  simp only [fieldImm8, fieldAddr7, BitVec.extractLsb, BitVec.getLsbD_extractLsb', Nat.zero_add]
  by_cases hlow : j < 7
  · simp [hlow, hj]
  · have hclear : w.getLsbD j = false := h.bit_clear (by omega) (by rw [show j = 7 by omega]; decide)
    simp [hlow, hclear]

theorem imm8_ack (h : Masked w 0xFFFFFFFE op) : fieldImm8 w = 0#7 ++ BitVec.ofBool (fieldAck w) := by
  apply BitVec.eq_of_getLsbD_eq
  intro j hj
  rw [show (0#7 ++ BitVec.ofBool (fieldAck w) : Byte).getLsbD j = _ from BitVec.getLsbD_append]
  simp only [fieldImm8, fieldAck, BitVec.extractLsb, BitVec.getLsbD_extractLsb', Nat.zero_add]
  by_cases hlow : j < 1
  · simp [show j = 0 by omega]
  · have hclear : w.getLsbD j = false := h.bit_clear (by omega) (by interval_cases j <;> decide)
    simp [hlow, hclear]

theorem imm8_zero (h : Masked w 0xFFFFFFFF op) : fieldImm8 w = 0 :=
  BitVec.eq_of_toNat_eq (h.field_eq_zero (hi := 7) (lo := 0) (by decide))

/-! The word of each shape of command, rebuilt from its fields. -/

theorem formatB_enum (h : Masked w 0xFF00C0C0 op) :
    formatB op (fieldWsel w) (fieldHasdef w) (fieldEtab w) (fieldHi w) (fieldLo w) = w := by
  rw [← h.opcode_eq (by decide), formatB_of_fields, h.and_eq_self (by decide)]

theorem formatB_range (h : Masked w 0xFF3FC0C0 op) :
    formatB op (fieldWsel w) false 0 (fieldHi w) (fieldLo w) = w := by
  have hdef : fieldHasdef w = false := h.bit_clear (by decide) (by decide)
  have hetab : fieldEtab w = 0 := h.field_eq_zero (by decide)
  simpa only [hdef, hetab] using (h.weaken (by decide)).formatB_enum

theorem formatB_index (h : Masked w 0xFF3FFFC0 op) : formatB op (fieldWsel w) false 0 0 (fieldLo w) = w := by
  have hhi : fieldHi w = 0 := h.field_eq_zero (by decide)
  simpa only [hhi] using (h.weaken (by decide)).formatB_range

theorem formatR_addr (h : Masked w 0xFFFF0000 op) : formatR op (fieldAddr w) = w := by
  rw [← h.opcode_eq (by decide), formatR_of_fields, h.and_eq_self (by decide)]

theorem formatT_byte (h : Masked w 0xFFFFFF00 op) : formatT op (fieldImm8 w) = w := by
  rw [← h.opcode_eq (by decide), formatT_of_fields, h.and_eq_self (by decide)]

theorem formatT_addr7 (h : Masked w 0xFFFFFF80 op) : formatT op (0#1 ++ fieldAddr7 w) = w := by
  rw [← h.imm8_addr7, (h.weaken (by decide)).formatT_byte]

theorem formatT_ack (h : Masked w 0xFFFFFFFE op) : formatT op (0#7 ++ BitVec.ofBool (fieldAck w)) = w := by
  rw [← h.imm8_ack, (h.weaken (by decide)).formatT_byte]

theorem formatT_zero (h : Masked w 0xFFFFFFFF op) : formatT op 0 = w := by
  rw [← h.imm8_zero, (h.weaken (by decide)).formatT_byte]

end Masked

theorem field_lt (w : CmdWord) (hi lo : Nat) : field w hi lo < 2 ^ (hi - lo + 1) := BitVec.isLt _

theorem fieldLo_fits (w : CmdWord) : indexFits (fieldLo w) = true := decide_eq_true (field_lt w 5 0)

theorem fieldHi_fits (w : CmdWord) : indexFits (fieldHi w) = true := decide_eq_true (field_lt w 13 8)

theorem fieldEtab_fits (w : CmdWord) : tableFits (fieldEtab w) = true := decide_eq_true (field_lt w 20 16)

theorem fieldRange_fits (w : CmdWord) : (indexFits (fieldLo w) && indexFits (fieldHi w)) = true :=
  Bool.and_eq_true_iff.mpr ⟨fieldLo_fits w, fieldHi_fits w⟩

theorem fieldEnum_fits (w : CmdWord) :
    (tableFits (fieldEtab w) && indexFits (fieldLo w) && indexFits (fieldHi w)) = true :=
  Bool.and_eq_true_iff.mpr ⟨Bool.and_eq_true_iff.mpr ⟨fieldEtab_fits w, fieldLo_fits w⟩, fieldHi_fits w⟩

/-- Every word that is the row's opcode under the row's mask is the word of the command the row builds, and that command
is well formed. -/
def Row.RoundTrips (r : Row) : Prop :=
  ∀ w, Masked w r.mask (opcode r.pattern) → encode (r.build w) = w ∧ WellFormed (r.build w) = true

theorem tableB_roundTrips : ∀ r ∈ tableB, r.RoundTrips := by
  simp only [tableB, List.forall_mem_cons]
  exact ⟨fun w h => ⟨h.formatB_range, fieldRange_fits w⟩, fun w h => ⟨h.formatB_index, fieldLo_fits w⟩,
    fun w h => ⟨h.formatB_index, fieldLo_fits w⟩, fun w h => ⟨h.formatB_range, fieldRange_fits w⟩,
    fun w h => ⟨h.formatB_enum, fieldEnum_fits w⟩, fun w h => ⟨h.formatB_index, fieldLo_fits w⟩,
    fun w h => ⟨h.formatB_range, fieldRange_fits w⟩, fun w h => ⟨h.formatB_index, fieldLo_fits w⟩,
    List.forall_mem_nil _⟩

theorem tableR_roundTrips : ∀ r ∈ tableR, r.RoundTrips := by
  simp only [tableR, List.forall_mem_cons]
  exact ⟨fun _ h => ⟨h.formatR_addr, rfl⟩, fun _ h => ⟨h.formatR_addr, rfl⟩, List.forall_mem_nil _⟩

theorem tableTw_roundTrips : ∀ r ∈ tableTw, r.RoundTrips := by
  simp only [tableTw, List.forall_mem_cons]
  exact ⟨fun _ h => ⟨h.formatT_zero, rfl⟩, fun _ h => ⟨h.formatT_zero, rfl⟩, fun _ h => ⟨h.formatT_zero, rfl⟩,
    fun _ h => ⟨h.formatT_zero, rfl⟩, fun _ h => ⟨h.formatT_addr7, rfl⟩, fun _ h => ⟨h.formatT_addr7, rfl⟩,
    fun _ h => ⟨h.formatT_byte, rfl⟩, fun _ h => ⟨h.formatT_ack, rfl⟩, fun _ h => ⟨h.formatT_zero, rfl⟩,
    List.forall_mem_nil _⟩

theorem tableTxn_roundTrips : ∀ r ∈ tableTxn, r.RoundTrips := by
  simp only [tableTxn, List.forall_mem_cons]
  exact ⟨fun _ h => ⟨h.formatT_zero, rfl⟩, fun _ h => ⟨h.formatT_zero, rfl⟩, fun _ h => ⟨h.formatT_addr7, rfl⟩,
    fun _ h => ⟨h.formatT_addr7, rfl⟩, List.forall_mem_nil _⟩

theorem table_roundTrips : ∀ r ∈ table, r.RoundTrips := by
  simp only [table, List.forall_mem_append]
  exact ⟨⟨⟨tableB_roundTrips, tableR_roundTrips⟩, tableTw_roundTrips⟩, tableTxn_roundTrips⟩

/-- The pattern of a row is its opcode, every other bit 0 (R74). -/
theorem table_patterns : ∀ r ∈ table, r.pattern = opcode r.pattern ++ 0#24 := by decide

theorem masked_of_selects {r : Row} (hr : r ∈ table) {w : CmdWord} (h : r.selects w = true) :
    Masked w r.mask (opcode r.pattern) :=
  (beq_iff_eq.mp h).trans (table_patterns r hr)

/-- Settles O2: a decoded word selects a row of the table, and every row gives back the words that select it. -/
theorem encodeOfDecodeIsTheWord : Obligations.EncodeOfDecodeIsTheWord := by
  intro w i h
  obtain ⟨r, hr, hs, rfl⟩ := selects_of_decode h
  exact table_roundTrips r hr w (masked_of_selects hr hs)

end Sys2Proof

namespace Sys2Proof.Machine

/-! ## An illegal word (R80) -/

/-- In a live block an illegal word is rejected on the state that `present` leaves. -/
theorem step_illegal_live {s : State} {c : Command} {rest : List Input} {e : DecodeReject}
    (hs : s.inputs = .command c :: rest) (hd : decode c.word = .error e) (hl : s.Live) :
    step s = .next ((present c (withInputs rest s)).rejected 4 .illegalCommand) := by
  have hlive : (present c (withInputs rest s)).Live := hl
  rw [step_illegal hs hd, rejectWord, command_live hlive, raiseFault_eq_rejected _ (by decide) (by decide)]
  rfl

/-- Settles O6: the latches are those that `present` loads. -/
theorem illegalWordRaisesIllegalCommand : Obligations.IllegalWordRaisesIllegalCommand := by
  intro s c rest e hs hd hl
  exact ⟨_, _, _, fun v hv => latchValue_given hv s.latchDraws, fun v hv => latchValue_given hv (s.latchDraws + 1),
    step_illegal_live hs hd hl⟩

end Sys2Proof.Machine
end

section
/-! The bit accessor (40_bit_accessor.md): each command as its check and the value it delivers, the out-of-range policy,
the two round trips of R100, what halts the block, and the commands that know nothing of the protocol state. -/

namespace Sys2Proof.Machine

/-! ## The check of the index or range (R91) -/

section Checks

variable {s : State} {valid : Bool}

theorem command_inRange_valid (hl : s.Live) (hv : valid = true) (body : State → State) :
    command (inRange valid body) s = .next (body s) := by
  rw [command_live hl, inRange_valid hv]

theorem command_inRange_invalid (hl : s.Live) (hv : valid = false) (body : State → State) :
    command (inRange valid body) s = .next (s.rejected 2 .bitRange) := by
  rw [command_live hl, inRange_invalid hv]

/-- After a check that holds, `BitRange` can come from the body alone. -/
theorem command_inRange_fault_ne {t : State} (hl : s.Live) (hv : valid = true) {body : State → State}
    (hb : (body s).response.fault ≠ .bitRange) (h : command (inRange valid body) s = .next t) :
    t.response.fault ≠ .bitRange := by
  rw [command_inRange_valid hl hv] at h
  cases h
  exact hb

end Checks

/-! ## Each command as its check and its value (R92 to R99) -/

section Equations

variable (s : State) (w : Width) (lo hi : Nat)

theorem exec_bitmask : exec (.bitmask w lo hi) s =
    command (inRange (rangeValid (widthBits w) lo hi) (deliver (zext64 (bitMask (widthBits w) lo hi)))) s := by
  simp only [exec, execBitmask]

theorem exec_hasbit : exec (.hasbit w lo) s = command (inRange (indexValid (widthBits w) lo)
    (deliver (zext64 (bitAt (operand (widthBits w) s.opA) lo)))) s := by
  simp only [exec, execHasbit, command]

theorem exec_getbit : exec (.getbit w lo) s = command (inRange (indexValid (widthBits w) lo)
    (deliver (zext64 (bitAt (operand (widthBits w) s.opA) lo)))) s := by
  simp only [exec, execGetbit, command]

theorem exec_getbits : exec (.getbits w lo hi) s = command (inRange (rangeValid (widthBits w) lo hi)
    (deliver (zext64 (bitsAt (operand (widthBits w) s.opA) lo hi)))) s := by
  simp only [exec, execGetbits, command]

theorem exec_getenum (hasdef : Bool) (etab : Nat) : exec (.getenum w hasdef etab lo hi) s =
    command (inRange (rangeValid (widthBits w) lo hi)
      (decodeEnum hasdef etab (zext64 (bitsAt (operand (widthBits w) s.opA) lo hi)))) s := by
  simp only [exec, execGetenum, command]

theorem exec_setbit : exec (.setbit w lo) s = command (inRange (indexValid (widthBits w) lo)
    (deliver (zext64 (withBit (operand (widthBits w) s.opA) lo (s.opB.getLsbD 0))))) s := by
  simp only [exec, execSetbit, command]

theorem exec_setbits : exec (.setbits w lo hi) s = command (inRange (rangeValid (widthBits w) lo hi)
    (deliver (zext64 (withBits (operand (widthBits w) s.opA) lo hi (operand (widthBits w) s.opB))))) s := by
  simp only [exec, execSetbits, command]

theorem exec_togbit : exec (.togbit w lo) s = command (inRange (indexValid (widthBits w) lo)
    (deliver (zext64 (toggledBit (operand (widthBits w) s.opA) lo)))) s := by
  simp only [exec, execTogbit, command]

end Equations

/-- The greatest valid index is below W. -/
theorem lt_width_of_le_pred {w : Width} {i : Nat} (h : i ≤ 8 <<< w.code.toNat - 1) : i < 8 <<< w.code.toNat := by
  have hpos := widthBits_pos w
  rw [widthBits_eq] at hpos
  omega

/-! ## What each command delivers -/

/-- Settles O25: bit by bit, the value is the mask. -/
theorem bitmaskDelivers : Obligations.BitmaskDelivers := by
  intro s w lo hi hl
  rw [← widthBits_eq, exec_bitmask]
  exact ⟨fun hlo hhi => ⟨_, command_inRange_valid hl (rangeValid_iff.2 ⟨hlo, hhi⟩) _, bitMask_result w hhi⟩,
    fun h => command_inRange_invalid hl (rangeValid_of_not h) _⟩

/-- Settles O26: both commands deliver the same single bit. -/
theorem hasbitAndGetbitDeliver : Obligations.HasbitAndGetbitDeliver := by
  intro s w lo hl
  rw [← widthBits_eq, exec_hasbit, exec_getbit]
  refine ⟨fun h => ?_, fun h => ?_⟩
  · have hv := indexValid_iff.2 h
    rw [← bitAt_result w s.opA h]
    exact ⟨command_inRange_valid hl hv _, command_inRange_valid hl hv _⟩
  · have hv := indexValid_of_not h
    exact ⟨command_inRange_invalid hl hv _, command_inRange_invalid hl hv _⟩

/-- Settles O27: bit by bit, the value is the field shifted down. -/
theorem getbitsDelivers : Obligations.GetbitsDelivers := by
  intro s w lo hi hl
  rw [← widthBits_eq, exec_getbits]
  exact ⟨fun hlo hhi => ⟨_, command_inRange_valid hl (rangeValid_iff.2 ⟨hlo, hhi⟩) _,
    bitsAt_result w s.opA hlo hhi⟩, fun h => command_inRange_invalid hl (rangeValid_of_not h) _⟩

/-- Settles O29: bit by bit, the value is `opA` with the one bit replaced. -/
theorem setbitDelivers : Obligations.SetbitDelivers := by
  intro s w lo hl
  rw [← widthBits_eq, exec_setbit]
  exact ⟨fun h => ⟨_, command_inRange_valid hl (indexValid_iff.2 h) _, withBit_result w s.opA _ h⟩,
    fun h => command_inRange_invalid hl (indexValid_of_not h) _⟩

/-- Settles O30: bit by bit, the value is `opA` with the field replaced. -/
theorem setbitsDelivers : Obligations.SetbitsDelivers := by
  intro s w lo hi hl
  rw [← widthBits_eq, exec_setbits]
  exact ⟨fun hlo hhi => ⟨_, command_inRange_valid hl (rangeValid_iff.2 ⟨hlo, hhi⟩) _,
    withBits_result w s.opA s.opB hhi⟩, fun h => command_inRange_invalid hl (rangeValid_of_not h) _⟩

/-- Settles O31: bit by bit, the value is `opA` with the one bit inverted. -/
theorem togbitDelivers : Obligations.TogbitDelivers := by
  intro s w lo hl
  rw [← widthBits_eq, exec_togbit]
  exact ⟨fun h => ⟨_, command_inRange_valid hl (indexValid_iff.2 h) _, toggledBit_result w s.opA h⟩,
    fun h => command_inRange_invalid hl (indexValid_of_not h) _⟩

/-! ## The three ends of GETENUM (R98) -/

section DecodeEnum

variable {s : State} {etab : Nat} {e : Latch}

theorem decodeEnum_listed {v : Latch} (h : enumCase s.cfg etab e = some v) (hasdef : Bool) :
    decodeEnum hasdef etab e s = { s with response := .success (some v) } := by
  rw [decodeEnum, h]
  rfl

theorem decodeEnum_default (h : enumCase s.cfg etab e = none) :
    decodeEnum true etab e s = { s with response := .success (some s.opB) } := by
  rw [decodeEnum, h]
  rfl

theorem decodeEnum_fatal (h : enumCase s.cfg etab e = none) :
    decodeEnum false etab e s = { s.rejected 1 .enumFatal with halted := true } := by
  rw [decodeEnum, h]
  exact raiseFault_enumFatal s

theorem decodeEnum_fault_ne (hasdef : Bool) : (decodeEnum hasdef etab e s).response.fault ≠ .bitRange := by
  cases h : enumCase s.cfg etab e with
  | some v => simp [decodeEnum_listed h]
  | none =>
    cases hasdef with
    | true => simp [decodeEnum_default h]
    | false => simp [decodeEnum_fatal h, State.rejected]

end DecodeEnum

/-- Settles O28: the pattern looked up is the field of `opA`, and the table decides between the three ends. -/
theorem getenumDecodes : Obligations.GetenumDecodes := by
  intro s w etab lo hi hl
  rw [← widthBits_eq]
  simp only [exec_getenum]
  refine ⟨fun e hlo hhi hbits => ?_, fun _ h => command_inRange_invalid hl (rangeValid_of_not h) _⟩
  have he : zext64 (bitsAt (operand (widthBits w) s.opA) lo hi) = e :=
    BitVec.eq_of_getLsbD_eq fun j _ => (bitsAt_result w s.opA hlo hhi j).trans (hbits j).symm
  rw [he]
  simp only [command_inRange_valid hl (rangeValid_iff.2 ⟨hlo, hhi⟩)]
  refine ⟨fun hasdef x hv hx ht hp => ?_, fun h => ?_⟩
  · subst hp
    rw [decodeEnum_listed (enumCase_listed hv hx ht)]
  · have hnone := enumCase_unlisted h
    rw [decodeEnum_default hnone, decodeEnum_fatal hnone]
    exact ⟨rfl, rfl⟩

/-! ## The out-of-range policy (R91) -/

theorem deliver_fault_ne (v : Latch) (s : State) : (deliver v s).response.fault ≠ .bitRange := by
  simp [Response.ofFailure]

/-- Settles O32: each command makes its check first, and what it does after the check raises no `BitRange`. -/
theorem outOfRangePolicyIsUniform : Obligations.OutOfRangePolicyIsUniform := by
  intro s w lo hi hasdef etab hl
  rw [← widthBits_eq]
  refine ⟨fun h => ?_, fun h => ?_, fun h => ?_, fun hlo hhi => ?_⟩ <;>
    simp only [List.forall_mem_cons, exec_bitmask, exec_hasbit, exec_getbit, exec_getbits, exec_getenum, exec_setbit,
      exec_setbits, exec_togbit]
  · have hv : indexValid (widthBits w) lo = false := indexValid_of_not (by omega)
    refine ⟨?_, ?_, ?_, ?_, List.forall_mem_nil _⟩ <;> exact command_inRange_invalid hl hv _
  · have hv : rangeValid (widthBits w) lo hi = false := rangeValid_of_not (by omega)
    refine ⟨?_, ?_, ?_, ?_, List.forall_mem_nil _⟩ <;> exact command_inRange_invalid hl hv _
  · have hv := indexValid_iff.2 h
    refine ⟨?_, ?_, ?_, ?_, List.forall_mem_nil _⟩ <;>
      exact fun _ => command_inRange_fault_ne hl hv (deliver_fault_ne _ s)
  · have hv := rangeValid_iff.2 ⟨hlo, hhi⟩
    refine ⟨?bitmask, ?getbits, ?setbits, ?getenum, List.forall_mem_nil _⟩
    case getenum => exact fun _ => command_inRange_fault_ne hl hv (decodeEnum_fault_ne hasdef)
    all_goals exact fun _ => command_inRange_fault_ne hl hv (deliver_fault_ne _ s)

/-! ## The round trips (R100) -/

/-- Settles O33: at a bit of the field SETBITS takes the bit of `opB` that GETBITS took from there. -/
theorem writingBackAFieldChangesNothing : Obligations.WritingBackAFieldChangesNothing := by
  intro s t w lo hi g hl hlo hhi hget hg
  obtain ⟨v, hv, hvbits⟩ := (getbitsDelivers s w lo hi hl).1 hlo hhi
  obtain ⟨r, hr, hrbits⟩ := (setbitsDelivers { s with opB := g } w lo hi hl).1 hlo hhi
  cases hv.symm.trans hget
  cases hg
  refine ⟨r, hr, fun j => ?_⟩
  rw [hrbits]
  by_cases hj : lo ≤ j ∧ j ≤ hi
  · have hfield : j - lo ≤ hi - lo := by omega
    have hwidth := lt_width_of_le_pred (hj.2.trans hhi)
    rw [if_pos hj, hvbits, Nat.add_sub_cancel' hj.1, decide_eq_true hfield, decide_eq_true hwidth]
  · rw [if_neg hj]

/-- Settles O34: the second inversion undoes the first. -/
theorem togglingTwiceRestores : Obligations.TogglingTwiceRestores := by
  intro s t w lo r hl hlo htog hr
  obtain ⟨v, hv, hvbits⟩ := (togbitDelivers s w lo hl).1 hlo
  obtain ⟨u, hu, hubits⟩ := (togbitDelivers { s with opA := r } w lo hl).1 hlo
  cases hv.symm.trans htog
  cases hr
  refine ⟨u, hu, fun j => ?_⟩
  rw [hubits, hvbits]
  by_cases hj : j = lo
  · rw [if_pos hj, if_pos hj, Bool.not_not, hj, decide_eq_true (lt_width_of_le_pred hlo), Bool.true_and]
  · rw [if_neg hj, if_neg hj, ← Bool.and_assoc, Bool.and_self]

/-! ## What halts the block (R98, R196) -/

/-- Settles O19: of the ways a command can end, the fault `EnumFatal` alone sets the halt. -/
theorem onlyEnumDecodeHalts : Obligations.OnlyEnumDecodeHalts := by
  intro i s t h hl ht
  rcases exec_ends h with ⟨c, -, rfl, hfatal⟩ | ⟨-, -, rfl⟩ | ⟨-, -, hhalted, -⟩
  · have hc : c = .enumFatal := by simpa [hl] using ht
    exact ⟨(hfatal hc).2, hc⟩
  · exact absurd (hl.symm.trans ht) (by decide)
  · exact absurd (hl.symm.trans (hhalted.symm.trans ht)) (by decide)

/-! ## The commands that know nothing of the protocol state (R90, R110, R151) -/

/-- The state `s` with the protocol and the transaction state of `q`. -/
def withProtocolOf (q s : State) : State :=
  moveTo q.phase q.dir (setTxn q.txnOpen q.txnStarted q.firstFail s)

/-- An update of the state that neither reads nor writes the protocol and the transaction state. -/
def IgnoresProtocol (body : State → State) : Prop :=
  ∀ q s, body (withProtocolOf q s) = withProtocolOf q (body s)

theorem deliver_ignoresProtocol (v : Latch) : IgnoresProtocol (deliver v) := fun _ _ => rfl

theorem readRegister_ignoresProtocol (a : Addr) : IgnoresProtocol (readRegister a) := fun _ _ => rfl

theorem decodeEnum_ignoresProtocol (hasdef : Bool) (etab : Nat) (e : Latch) :
    IgnoresProtocol (decodeEnum hasdef etab e) := by
  intro q s
  have hcfg : (withProtocolOf q s).cfg = s.cfg := rfl
  simp only [decodeEnum, hcfg]
  cases enumCase s.cfg etab e with
  | some case => rfl
  | none => cases hasdef <;> rfl

theorem configureMaster_ignoresProtocol (clockHz : Nat) : IgnoresProtocol (configureMaster clockHz) := by
  intro q s
  simp only [configureMaster]
  cases bitRate clockHz <;> rfl

theorem inRange_ignoresProtocol {valid : Bool} {body : State → State} (h : IgnoresProtocol body) :
    IgnoresProtocol (inRange valid body) := by
  intro q s
  cases valid
  · rfl
  · exact h q s

theorem command_ignoresProtocol {body : State → State} {s t : State} (he : command body s = .next t) (q : State)
    (h : IgnoresProtocol body) : command body (withProtocolOf q s) = .next (withProtocolOf q t) := by
  have hh : (withProtocolOf q s).halted = s.halted := rfl
  cases he
  simp only [command, hh, h q s]
  split <;> rfl

/-- A command that is, in both states, one check and then one body. -/
theorem checked_ignoresProtocol {i : Instr} {q s t : State} {valid : Bool} {body : State → State}
    (he : exec i s = .next t) (h : exec i s = command (inRange valid body) s)
    (hq : exec i (withProtocolOf q s) = command (inRange valid body) (withProtocolOf q s))
    (hb : IgnoresProtocol body) : exec i (withProtocolOf q s) = .next (withProtocolOf q t) := by
  rw [h] at he
  rw [hq]
  exact command_ignoresProtocol he q (inRange_ignoresProtocol hb)

/-- Each of the eleven commands checks the halt and then runs a body that ignores the protocol state. -/
theorem exec_ignoresProtocol {i : Instr} {s t : State} (q : State) (hoff : OffBus i = true)
    (he : exec i s = .next t) : exec i (withProtocolOf q s) = .next (withProtocolOf q t) := by
  cases i with
  | bitmask w lo hi =>
    exact checked_ignoresProtocol he (exec_bitmask s w lo hi) (exec_bitmask _ w lo hi) (deliver_ignoresProtocol _)
  | hasbit w lo =>
    exact checked_ignoresProtocol he (exec_hasbit s w lo) (exec_hasbit _ w lo) (deliver_ignoresProtocol _)
  | getbit w lo =>
    exact checked_ignoresProtocol he (exec_getbit s w lo) (exec_getbit _ w lo) (deliver_ignoresProtocol _)
  | getbits w lo hi =>
    exact checked_ignoresProtocol he (exec_getbits s w lo hi) (exec_getbits _ w lo hi) (deliver_ignoresProtocol _)
  | getenum w hasdef etab lo hi =>
    exact checked_ignoresProtocol he (exec_getenum s w lo hi hasdef etab) (exec_getenum _ w lo hi hasdef etab)
      (decodeEnum_ignoresProtocol hasdef etab _)
  | setbit w lo =>
    exact checked_ignoresProtocol he (exec_setbit s w lo) (exec_setbit _ w lo) (deliver_ignoresProtocol _)
  | setbits w lo hi =>
    exact checked_ignoresProtocol he (exec_setbits s w lo hi) (exec_setbits _ w lo hi) (deliver_ignoresProtocol _)
  | togbit w lo =>
    exact checked_ignoresProtocol he (exec_togbit s w lo) (exec_togbit _ w lo) (deliver_ignoresProtocol _)
  | regRd a => exact command_ignoresProtocol he q (readRegister_ignoresProtocol a)
  | regWr a =>
    exact command_ignoresProtocol (body := fun s => respond (.ofFailure .none none) (memWrite a (operand 8 s.opA) s))
      he q fun _ _ => rfl
  | twCfgm =>
    exact command_ignoresProtocol (body := fun s => configureMaster s.opA.toNat s) he q
      fun q s => configureMaster_ignoresProtocol s.opA.toNat q s
  | _ => cases hoff

/-- Settles O23: the other values are those of a state `q`. -/
theorem offBusCommandsIgnoreTheProtocolState : Obligations.OffBusCommandsIgnoreTheProtocolState :=
  fun _ s _ p d o st f hoff he => exec_ignoresProtocol (moveTo p d (setTxn o st f s)) hoff he

end Sys2Proof.Machine
end

section
/-! Register access (41_register_access.md): the read and the write of one byte, and the read-modify-write, whose middle
command is one of the bit accessor. -/

namespace Sys2Proof.Machine

/-! ## One byte read, one byte written (R111, R112) -/

/-- Settles O35: MemRead is one read, and its answer is the result. -/
theorem regRdReadsOneByte : Obligations.RegRdReadsOneByte := by
  intro s a hl
  rw [exec, execRegRd, command_live hl, readRegister, memRead_eq]
  rfl

/-- A byte operand is the low byte of its latch (30_encoding.md R76). -/
theorem operand_eq_extractLsb' (v : Latch) : operand 8 v = v.extractLsb' 0 8 :=
  BitVec.setWidth_eq_extractLsb' (by decide)

/-- Settles O36: the register space after it is the one with that byte written, which the laws of `Memory.write`
describe. -/
theorem regWrWritesOneByte : Obligations.RegWrWritesOneByte := by
  intro s a hl
  rw [← operand_eq_extractLsb', exec, execRegWr, command_live hl]
  exact ⟨_, rfl, memWrite_handed_same s a _, fun _ hb => memWrite_handed_other s _ hb⟩

/-! ## The command in the middle of a read-modify-write (R113) -/

/-- The command in the middle, without its latches. -/
def Edit.instr : Edit → Instr
  | .setbits lo hi _ => .setbits .w8 lo hi
  | .setbit i _ => .setbit .w8 i
  | .togbit i => .togbit .w8 i

theorem Edit.command_word (e : Edit) (v : Latch) : (e.command v).word = encode e.instr := by
  cases e <;> rfl

theorem Edit.command_opA (e : Edit) (v : Latch) : (e.command v).opA = some v := by
  cases e <;> rfl

/-- The state in which the middle command runs: the byte is read, and the host has presented the command with it. -/
def State.atEdit (s : State) (a : Addr) (e : Edit) : State :=
  present (e.command (zext64 (s.upcoming 0))) (s.afterRead a)

theorem atEdit_opA (s : State) (a : Addr) (e : Edit) : (s.atEdit a e).opA = zext64 (s.upcoming 0) := by
  rw [State.atEdit, present_opA, latchValue_given (e.command_opA _)]

theorem atEdit_trace (s : State) (a : Addr) (e : Edit) :
    (s.atEdit a e).trace = s.trace ++ [.read a (s.upcoming 0)] := by
  rw [State.atEdit, present_trace, afterRead_trace]

section

variable {s : State} {a : Addr} {e : Edit}

/-- The host gets the response of the middle command. -/
theorem issue_edit {t : State} (hw : WellFormed e.instr = true) (hx : exec e.instr (s.atEdit a e) = .next t) :
    issue (e.command (zext64 (s.upcoming 0))) (s.afterRead a) = (t.response, t) := by
  refine issue_of_exec ?_ hx
  rw [e.command_word, decodeOfEncodeIsTheCommand _ hw]

/-- A bit of the middle command's `opA` is that bit of the byte read. -/
theorem atEdit_opA_bit (j : Nat) : (s.atEdit a e).opA.getLsbD j = (s.upcoming 0).getLsbD j := by
  rw [atEdit_opA, zext64_bit _ (by decide)]

/-- A middle command that delivers its 8-bit `opA` with new bits in some places: one read, and one write of the byte
read with the new bits there. -/
theorem issueEdit_writes {place : Nat → Prop} [DecidablePred place] {new : Nat → Bool} (hl : s.Live)
    (hw : WellFormed e.instr = true)
    (hx : ∃ v : Latch, exec e.instr (s.atEdit a e) = .next { s.atEdit a e with response := .success (some v) } ∧
      ∀ j, v.getLsbD j =
        if place j then new j else decide (j < 8 <<< Width.w8.code.toNat) && (s.atEdit a e).opA.getLsbD j) :
    ∃ b : Byte, (issueEdit a e s).2.trace = s.trace ++ [.read a (s.upcoming 0), .write a b] ∧
      ∀ j < 8, b.getLsbD j = if place j then new j else (s.upcoming 0).getLsbD j := by
  obtain ⟨v, hexec, hbits⟩ := hx
  refine ⟨operand 8 v, ?_, fun j hj => ?_⟩
  · rw [issueEdit_trace hl (issue_edit hw hexec) rfl hl]
    simp [atEdit_trace]
  · have hwidth : decide (j < 8 <<< Width.w8.code.toNat) = true := decide_eq_true hj
    rw [operand_bit, decide_eq_true hj, Bool.true_and, hbits, hwidth, Bool.true_and, atEdit_opA_bit]

/-- A middle command that answers `BitRange`: the read alone, and that response. -/
theorem issueEdit_rejected (hl : s.Live) (hw : WellFormed e.instr = true)
    (hx : exec e.instr (s.atEdit a e) = .next ((s.atEdit a e).rejected 2 .bitRange)) :
    (issueEdit a e s).2.trace = s.trace ++ [.read a (s.upcoming 0)] ∧
      (issueEdit a e s).2.response.fault = .bitRange := by
  rw [issueEdit_stops hl (issue_edit hw hx) rfl]
  exact ⟨atEdit_trace s a e, rfl⟩

end

/-! ## The three forms of REG.RMW (R113) -/

/-- Settles O38: SETBITS stands in the middle. -/
theorem rmwReadsThenWritesTheField : Obligations.RmwReadsThenWritesTheField := by
  intro s a lo hi x hl hlo hhi
  have hw : WellFormed (Edit.setbits lo hi x).instr = true :=
    Bool.and_eq_true_iff.2 ⟨decide_eq_true hlo, decide_eq_true hhi⟩
  obtain ⟨hvalid, hinvalid⟩ := setbitsDelivers (s.atEdit a (.setbits lo hi x)) .w8 lo hi hl
  exact ⟨fun h1 h2 => issueEdit_writes hl hw (hvalid h1 h2), fun h => issueEdit_rejected hl hw (hinvalid h)⟩

/-- Settles O58: SETBIT or TOGBIT stands in the middle. -/
theorem singleBitRmwChangesOneBit : Obligations.SingleBitRmwChangesOneBit := by
  intro s a i x hl hi
  have hwset : WellFormed (Edit.setbit i x).instr = true := decide_eq_true hi
  have hwtog : WellFormed (Edit.togbit i).instr = true := decide_eq_true hi
  obtain ⟨hset, hsetinv⟩ := setbitDelivers (s.atEdit a (.setbit i x)) .w8 i hl
  obtain ⟨htog, htoginv⟩ := togbitDelivers (s.atEdit a (.togbit i)) .w8 i hl
  refine ⟨fun h => ⟨issueEdit_writes hl hwset (hset h), ?_⟩, fun h => ?_⟩
  · simpa only [atEdit_opA_bit] using issueEdit_writes hl hwtog (htog h)
  · have hinvalid : ¬ i ≤ 8 <<< Width.w8.code.toNat - 1 := Nat.not_le.2 h
    rw [List.forall_mem_cons, List.forall_mem_singleton]
    exact ⟨issueEdit_rejected hl hwset (hsetinv hinvalid), issueEdit_rejected hl hwtog (htoginv hinvalid)⟩

end Sys2Proof.Machine
end

section
/-! The driver commands (42_twi_driver.md): what each does when the readiness flag comes and when it does not, and how
`phase` and `dir` move. -/

namespace Sys2Proof.Machine

/-! ## A command whose body is a procedure (R125) -/

theorem runProc_succeeds {proc : State → Failure × State} {s t : State} (h : proc s = (.none, t)) :
    runProc proc s = { t with response := .success none } := by
  rw [runProc, h]
  exact finish_success none t

theorem runProc_fails {proc : State → Failure × State} {s t : State} {f : Failure} (h : proc s = (f, t))
    (hf : f ≠ .none) : runProc proc s = { t with firstFail := t.failRecord f, response := .failed f } := by
  rw [runProc, h]
  exact finish_failed hf t

theorem timeout_ne_none : Failure.timeout ≠ .none := by decide

/-! ## The wait and the stop condition (R126, R129) -/

/-- Settles O39: the poll is the whole command. -/
theorem twWaitPolls : Obligations.TwWaitPolls := by
  intro s hr
  have hexec : exec .twWait s = .next (runProc waitUntilReady s) := skippable_ready hr _
  refine ⟨fun k hk => ?_, fun hn => ?_⟩
  · rw [hexec, runProc_succeeds (waitUntilReady_ready hk)]
  · rw [hexec, runProc_fails (waitUntilReady_timeout hn) timeout_ne_none]
    rfl

/-- Settles O43: the stop condition is the primitive without a status check. -/
theorem twStopIssuesAStop : Obligations.TwStopIssuesAStop := by
  intro s hr
  have hexec : exec .twStop s = .next (runProc stopProc s) := skippable_ready hr _
  rw [hexec, ← eventWrites_stop]
  refine ⟨fun k hk => ?_, fun hn => ?_⟩
  · rw [runProc_succeeds (stopProc_ready hk)]
  · rw [runProc_fails (stopProc_timeout hn) timeout_ne_none]
    rfl

/-! ## Every poll length (R121) -/

/-- The state `s` before a peripheral that answers `bs` next. -/
def answering (bs : List Byte) (s : State) : State := { s with answers := bs }

/-- `k` answers with every bit clear, then one with every bit set. -/
def readyAtLast (k : Nat) : List Byte := List.replicate k 0 ++ [BitVec.allOnes 8]

theorem readyAnswer_of_getElem {bs : List Byte} {k : Nat} {b : Byte} (h : bs[k]? = some b) (s : State) :
    (answering bs s).readyAnswer k = b.getLsbD s.cfg.rdyBit.val := by
  simp [State.readyAnswer, State.upcoming, answering, h]

theorem readyAnswer_quiet {k j : Nat} (h : j < k) (tail : List Byte) (s : State) :
    (answering (List.replicate k 0 ++ tail) s).readyAnswer j = false := by
  rw [readyAnswer_of_getElem (b := 0) (by simp [List.getElem?_append, h])]
  exact BitVec.getLsbD_zero

theorem readyAfter_readyAtLast {s : State} {k : Nat} (h : k < s.cfg.pollOuter) :
    (answering (readyAtLast k) s).ReadyAfter k := by
  refine ⟨h, fun j hj => readyAnswer_quiet hj _ s, ?_⟩
  rw [readyAnswer_of_getElem (b := BitVec.allOnes 8) (by simp [readyAtLast]), BitVec.getLsbD_allOnes]
  exact decide_eq_true s.cfg.rdyBit.isLt

theorem neverReady_quiet (s : State) : (answering (List.replicate s.cfg.pollOuter 0) s).NeverReady := by
  intro j hj
  have hquiet := readyAnswer_quiet (k := s.cfg.pollOuter) hj [] s
  rwa [List.append_nil] at hquiet

theorem afterPolls_trace_length (s : State) (n : Nat) :
    (s.afterAccesses [] (s.polls n)).trace.length = s.trace.length + n := by
  simp

/-- Settles O40: `k - 1` answers without the flag and one with it, or `POLL_OUTER` answers without it. -/
theorem everyPollLengthIsPossible : Obligations.EveryPollLengthIsPossible := by
  intro s hr
  refine ⟨fun k h1 hk => ?_, ?_⟩
  · obtain ⟨n, rfl⟩ := Nat.exists_eq_add_of_le' h1
    have hready : (answering (readyAtLast n) s).ReadyAfter n := readyAfter_readyAtLast hk
    exact ⟨readyAtLast n, _, (twWaitPolls (answering (readyAtLast n) s) hr).1 n hready, rfl,
      afterPolls_trace_length (answering _ s) (n + 1)⟩
  · have hquiet : (answering (List.replicate s.cfg.pollOuter 0) s).NeverReady := neverReady_quiet s
    exact ⟨List.replicate s.cfg.pollOuter 0, _,
      (twWaitPolls (answering (List.replicate s.cfg.pollOuter 0) s) hr).2 hquiet, rfl,
      afterPolls_trace_length (answering _ s) s.cfg.pollOuter⟩

/-! ## The commands with a precondition and the checked primitives (R127, R128, R132 to R134) -/

/-- Settles O41: TW.START has no precondition. -/
theorem twStartIssuesAStart : Obligations.TwStartIssuesAStart := by
  intro s hr
  rw [← eventWrites_start]
  exact checkedPrimitive_of_runProc (ev := .start) (fun _ _ => rfl) (skippable_ready hr _) rfl

theorem exec_twRstart (s : State) : exec .twRstart s =
    skippable (fun s => require (midTransaction s.phase) (runProc rstartProc) s) s := rfl

theorem exec_twSlaw (a : BitVec 7) (s : State) : exec (.twSlaw a) s =
    skippable (fun s => require (s.phase == .startSent) (runProc (slawProc a)) s) s := rfl

theorem exec_twSlar (a : BitVec 7) (s : State) : exec (.twSlar a) s =
    skippable (fun s => require (s.phase == .startSent) (runProc (slarProc a)) s) s := rfl

theorem exec_twSendb (b : Byte) (s : State) : exec (.twSendb b) s =
    skippable (fun s => require (afterAddress s.phase) (runProc (sendbProc b)) s) s := rfl

theorem exec_twRecvb (ack : Bool) (s : State) : exec (.twRecvb ack) s =
    skippable (fun s => require (afterAddress s.phase && s.dir == .dirR) (receiveByte ack) s) s := rfl

/-- A command that is a precondition and then one checked primitive. -/
theorem guarded_checkedPrimitive {i : Instr} {s : State} {g : State → Bool} {ev : BusEvent} {code : Byte} {p : Phase}
    {d : Dir} {move : State → State} (hr : s.Ready)
    (hexec : exec i s = skippable (fun s => require (g s) (runProc fun t => onSuccess move (primitive ev t)) s) s)
    (hmove : ∀ ws rs, move (s.afterAccesses ws rs) = { s.afterAccesses ws rs with phase := p, dir := d })
    (he : eventStatus s.cfg ev = some code) :
    (g s = true → CheckedPrimitive i s s (eventWrites s.cfg ev) code p d) ∧
      (g s = false → exec i s = .next (s.rejected 3 .illegalSequence)) :=
  ⟨fun hg => checkedPrimitive_of_runProc hmove (hexec.trans (guarded_holds hr hg _)) he,
    fun hg => hexec.trans (guarded_fails hr hg _)⟩

/-- Settles O42: `MidTransaction` is the precondition. -/
theorem twRstartIssuesARepeatedStart : Obligations.TwRstartIssuesARepeatedStart := by
  intro s hr
  rw [← eventWrites_rstart, ← midTransaction_iff, ← not_midTransaction_iff]
  exact guarded_checkedPrimitive hr (exec_twRstart s) (fun _ _ => rfl) rfl

/-- Settles O44: `StartSent` is the precondition. -/
theorem twSlawSendsTheWriteAddress : Obligations.TwSlawSendsTheWriteAddress := by
  intro s a hr
  rw [← eventWrites_addressW, ← beq_eq_false_iff_ne, ← beq_iff_eq (a := s.phase)]
  exact guarded_checkedPrimitive hr (exec_twSlaw a s) (fun _ _ => rfl) rfl

/-- Settles O45: `StartSent` is the precondition. -/
theorem twSlarSendsTheReadAddress : Obligations.TwSlarSendsTheReadAddress := by
  intro s a hr
  rw [← eventWrites_addressR, ← beq_eq_false_iff_ne, ← beq_iff_eq (a := s.phase)]
  exact guarded_checkedPrimitive hr (exec_twSlar a s) (fun _ _ => rfl) rfl

/-- Settles O46: an address phase in either direction is the precondition. -/
theorem twSendbSendsTheByte : Obligations.TwSendbSendsTheByte := by
  intro s b hr
  rw [← eventWrites_tx, ← afterAddress_iff, Bool.not_eq_true]
  exact guarded_checkedPrimitive hr (exec_twSendb b s) (fun _ _ => rfl) rfl

/-! ## The receive (R136) -/

theorem eventStatus_rx (c : Config) (ack : Bool) :
    eventStatus c (.rx ack) = some (if ack then c.stRxdataAck else c.stRxdataNack) := by
  cases ack <;> rfl

theorem receiveByte_succeeds {ack : Bool} {s t : State} (h : primitive (.rx ack) s = (.none, t)) :
    receiveByte ack s = { t.afterAccesses [] [t.cfg.twdatAddr] with
      phase := .dataTransferring, response := .success (some ((t.upcoming 0).setWidth 64)) } := by
  simp only [receiveByte, h, memRead_eq]
  exact finish_success _ _

theorem receiveByte_fails {ack : Bool} {s t : State} {f : Failure} (h : primitive (.rx ack) s = (f, t))
    (hf : f ≠ .none) : receiveByte ack s = { t with firstFail := t.failRecord f, response := .failed f } := by
  have hfinish : receiveByte ack s = finish f none t := by
    rw [receiveByte, h]
    cases f with
    | none => exact absurd rfl hf
    | unexpectedStatus v => rfl
    | timeout => rfl
  rw [hfinish, finish_failed hf]

theorem receiver_iff {s : State} : (afterAddress s.phase && s.dir == .dirR) = true ↔
    (s.phase = .addressSent ∨ s.phase = .dataTransferring) ∧ s.dir = .dirR := by
  rw [Bool.and_eq_true, afterAddress_iff, beq_iff_eq]

/-- Settles O47: the data register is read exactly when the primitive succeeded. -/
theorem twRecvbReceivesAByte : Obligations.TwRecvbReceivesAByte := by
  intro s ack hr ws code
  have hws : ws = eventWrites s.cfg (.rx ack) := (eventWrites_rx s.cfg ack).symm
  rw [hws, ← receiver_iff, Bool.not_eq_true, exec_twRecvb]
  refine ⟨fun hp => ?_, fun hp => guarded_fails hr hp _⟩
  rw [guarded_holds hr hp]
  refine ⟨fun k hk hs => ?_, fun k hk hs => ?_, fun hn => ?_⟩
  · have hprim := primitive_checked (eventStatus_rx s.cfg ack) hk
    rw [if_pos (statusMatches_iff.2 hs)] at hprim
    rw [receiveByte_succeeds hprim, afterAccesses_reads]
    simp
  · have hprim := primitive_checked (eventStatus_rx s.cfg ack) hk
    rw [if_neg (mt statusMatches_iff.1 hs)] at hprim
    rw [receiveByte_fails hprim (by simp)]
    rfl
  · rw [receiveByte_fails (primitive_timeout (.rx ack) hn) timeout_ne_none]
    rfl

/-! ## The bit rate (R140) -/

/-- Settles O48: the two ranges of the clock are those of the formula. -/
theorem twCfgmWritesTheBitRate : Obligations.TwCfgmWritesTheBitRate := by
  intro s hl
  have hexec : exec .twCfgm s = .next (configureMaster s.opA.toNat s) := command_live hl _
  refine ⟨fun h1 h2 => ⟨BitVec.ofNat 8 ((s.opA.toNat / 1000000 - 16) / 2), ?_, ?_⟩, fun h => ?_⟩
  · rw [BitVec.toNat_ofNat]
    omega
  · rw [hexec, configureMaster, bitRate_inside h1 h2]
    dsimp only
    rw [memWrite_eq]
    rfl
  · rw [hexec, configureMaster, bitRate_outside h]
    exact congrArg _ (raiseFault_eq_rejected s (by decide) (by decide))

/-! ## The transitions of `phase` and `dir` (R131) -/

/-- `phase` and `dir` are as they were, and the response is one of a command that did not execute: neither a success nor
a failure of its own. -/
def Unmoved (s t : State) : Prop :=
  t.phase = s.phase ∧ t.dir = s.dir ∧ t.response ≠ .success t.response.result ∧ t.response ≠ .failed .timeout

theorem raiseFault_unmoved {c : FaultCause} (hc : c ≠ .noFault) (s : State) : Unmoved s (raiseFault c s) :=
  ⟨rfl, rfl, fun h => hc (congrArg Response.fault h), fun h => hc (congrArg Response.fault h)⟩

theorem skip_unmoved (f : Failure) (s : State) : Unmoved s (respond (.ofSkip f) s) :=
  ⟨rfl, rfl, fun h => Bool.noConfusion (congrArg Response.skipped h),
    fun h => Bool.noConfusion (congrArg Response.skipped h)⟩

section

variable {s t : State} {body : State → State}

theorem command_runs_or_unmoved (h : command body s = .next t) : t = body s ∨ Unmoved s t := by
  cases h
  split
  · exact .inr (raiseFault_unmoved (by decide) s)
  · exact .inl rfl

theorem skippable_runs_or_unmoved (h : skippable body s = .next t) : t = body s ∨ Unmoved s t := by
  rcases command_runs_or_unmoved h with rfl | hu
  · split
    · exact .inr (skip_unmoved s.firstFail s)
    · exact .inl rfl
  · exact .inr hu

theorem guarded_runs_or_unmoved {i : Instr} {g : State → Bool}
    (hexec : exec i s = skippable (fun s => require (g s) body s) s) (h : exec i s = .next t) :
    t = body s ∨ Unmoved s t := by
  rcases skippable_runs_or_unmoved (hexec.symm.trans h) with rfl | hu
  · cases hg : g s
    · exact .inr (raiseFault_unmoved (by decide) s)
    · exact .inl (require_holds rfl body s)
  · exact .inr hu

end

/-- A row of the table: `phase` and `dir` are `p` and `d` on success, and else as they were. -/
def Moves (s : State) (p : Phase) (d : Dir) (t : State) : Prop :=
  (t.response = .success t.response.result → t.phase = p ∧ t.dir = d) ∧
  (t.response ≠ .success t.response.result → t.phase = s.phase ∧ t.dir = s.dir)

section

variable {s t u : State} {p : Phase} {d : Dir}

theorem moves_of_success {v : Option Latch} (h : t.response = .success v) (hp : t.phase = p) (hd : t.dir = d) :
    Moves s p d t :=
  ⟨fun _ => ⟨hp, hd⟩, fun hne => absurd (by rw [h]) hne⟩

theorem moves_of_failure {f : Failure} (hf : f ≠ .none) (h : t.response = .failed f) (hp : t.phase = s.phase)
    (hd : t.dir = s.dir) : Moves s p d t :=
  ⟨fun hs => absurd (congrArg Response.failure (h.symm.trans hs)) hf, fun _ => ⟨hp, hd⟩⟩

theorem Unmoved.moves (h : Unmoved s t) : Moves s p d t := by
  obtain ⟨hp, hd, hs, -⟩ := h
  exact ⟨fun h => absurd h hs, fun _ => ⟨hp, hd⟩⟩

theorem Moves.of_runs_or_unmoved (hu : Moves s p d u) (h : t = u ∨ Unmoved s t) : Moves s p d t := by
  rcases h with rfl | h
  · exact hu
  · exact h.moves

theorem runProc_moves {proc : State → Failure × State} (h : ProcEnds s p d s.phase s.dir (proc s)) :
    Moves s p d (runProc proc s) := by
  rcases h with ⟨-, ⟨hf, hp, hd⟩ | ⟨hf, hp, hd⟩⟩
  · exact moves_of_success (v := none) (congrArg Response.failed hf) hp hd
  · exact moves_of_failure hf rfl hp hd

theorem receiveByte_moves (ack : Bool) (s : State) : Moves s .dataTransferring s.dir (receiveByte ack s) := by
  obtain ⟨f, rs, h, -⟩ := primitive_accesses (.rx ack) s
  by_cases hf : f = .none
  · subst hf
    rw [receiveByte_succeeds h]
    exact moves_of_success rfl rfl rfl
  · rw [receiveByte_fails h hf]
    exact moves_of_failure hf rfl rfl rfl

theorem configureMaster_moves (clockHz : Nat) (s : State) :
    Moves s s.phase s.dir (configureMaster clockHz s) := by
  rw [configureMaster]
  cases bitRate clockHz with
  | some r => exact moves_of_success rfl rfl rfl
  | none => exact (raiseFault_unmoved (by decide) s).moves

end

section

variable {s t : State}

theorem twStart_moves (h : exec .twStart s = .next t) : Moves s .startSent .dirNone t :=
  (runProc_moves (startProc_ends s)).of_runs_or_unmoved (skippable_runs_or_unmoved h)

theorem twRstart_moves (h : exec .twRstart s = .next t) : Moves s .startSent .dirNone t :=
  (runProc_moves (rstartProc_ends s)).of_runs_or_unmoved (guarded_runs_or_unmoved (exec_twRstart s) h)

theorem twSlaw_moves {a : BitVec 7} (h : exec (.twSlaw a) s = .next t) : Moves s .addressSent .dirW t :=
  (runProc_moves (slawProc_ends a s)).of_runs_or_unmoved (guarded_runs_or_unmoved (exec_twSlaw a s) h)

theorem twSlar_moves {a : BitVec 7} (h : exec (.twSlar a) s = .next t) : Moves s .addressSent .dirR t :=
  (runProc_moves (slarProc_ends a s)).of_runs_or_unmoved (guarded_runs_or_unmoved (exec_twSlar a s) h)

theorem twSendb_moves {b : Byte} (h : exec (.twSendb b) s = .next t) : Moves s .dataTransferring s.dir t :=
  (runProc_moves (sendbProc_ends b s)).of_runs_or_unmoved (guarded_runs_or_unmoved (exec_twSendb b s) h)

theorem twRecvb_moves {ack : Bool} (h : exec (.twRecvb ack) s = .next t) : Moves s .dataTransferring s.dir t :=
  (receiveByte_moves ack s).of_runs_or_unmoved (guarded_runs_or_unmoved (exec_twRecvb ack s) h)

theorem twWait_moves (h : exec .twWait s = .next t) : Moves s s.phase s.dir t :=
  (runProc_moves (waitUntilReady_ends s)).of_runs_or_unmoved (skippable_runs_or_unmoved h)

theorem twCfgm_moves (h : exec .twCfgm s = .next t) : Moves s s.phase s.dir t :=
  (configureMaster_moves s.opA.toNat s).of_runs_or_unmoved
    (command_runs_or_unmoved (body := fun s => configureMaster s.opA.toNat s) h)

end

/-- The row of TW.STOP: a stop that timed out has already moved to `StopPending`. -/
def StopMoves (s t : State) : Prop :=
  (t.response = .success t.response.result → t.phase = .idle ∧ t.dir = .dirNone) ∧
  (t.response ≠ .success t.response.result →
    (t.response = .failed .timeout → t.phase = .stopPending ∧ t.dir = .dirNone) ∧
    (t.response ≠ .failed .timeout → t.phase = s.phase ∧ t.dir = s.dir))

theorem runStop_moves (s : State) : StopMoves s (runProc stopProc s) := by
  rcases readyAfter_or_never s with ⟨k, hk⟩ | hn
  · rw [runProc_succeeds (stopProc_ready hk)]
    exact ⟨fun _ => ⟨rfl, rfl⟩, fun hne => absurd rfl hne⟩
  · rw [runProc_fails (stopProc_timeout hn) timeout_ne_none]
    exact ⟨fun hs => absurd (congrArg Response.failure hs) timeout_ne_none,
      fun _ => ⟨fun _ => ⟨rfl, rfl⟩, fun hne => absurd rfl hne⟩⟩

theorem twStop_moves {s t : State} (h : exec .twStop s = .next t) : StopMoves s t := by
  rcases skippable_runs_or_unmoved h with rfl | ⟨hp, hd, hs, hto⟩
  · exact runStop_moves s
  · exact ⟨fun h => absurd h hs, fun _ => ⟨fun h => absurd h hto, fun _ => ⟨hp, hd⟩⟩⟩

/-- Settles O49: one row of the table per command, and a row of its own for TW.STOP. -/
theorem phaseTransitionsFollowTheTable : Obligations.PhaseTransitionsFollowTheTable := by
  intro s t i a b ack hi he
  simp only [List.mem_cons, List.not_mem_nil, or_false] at hi
  rcases hi with rfl | rfl | rfl | rfl | rfl | rfl | rfl | rfl | rfl
  · simpa [Moves] using twStart_moves he
  · simpa [Moves] using twRstart_moves he
  · simpa [Moves] using twSlaw_moves he
  · simpa [Moves] using twSlar_moves he
  · simpa [Moves] using twSendb_moves he
  · simpa [Moves] using twRecvb_moves he
  · simpa [StopMoves] using twStop_moves he
  · simpa [Moves] using twWait_moves he
  · simpa [Moves] using twCfgm_moves he

end Sys2Proof.Machine
end

section
/-! The transaction commands (43_twi_transaction.md R150 to R155): the skip rule, and what TXN.BEGIN, TXN.END, TXN.XMIT
and TXN.RECV do when they execute and when they are rejected. -/

namespace Sys2Proof.Machine

/-! ## The skip rule (R151) -/

/-- Settles O22: every skippable command goes through the skip rule before anything else. -/
theorem failedTransactionSkips : Obligations.FailedTransactionSkips := by
  intro i s hi hs
  obtain ⟨body, hexec⟩ := exec_is_skippable hi
  rw [hexec]
  exact skippable_skips hs body

/-! ## One checked primitive, in its three outcomes (42_twi_driver.md R123, R125) -/

section

variable {ev : BusEvent} {code : Byte} {s : State} {k : Nat}

theorem onSuccess_primitive_matched (move : State → State) (he : eventStatus s.cfg ev = some code)
    (hk : s.ReadyAfter k) (hs : StatusIs s.cfg (s.upcoming (k + 1)) code) :
    onSuccess move (primitive ev s) =
      (.none, move (s.afterAccesses (eventWrites s.cfg ev) (s.polls (k + 1) ++ [s.cfg.twstatAddr]))) := by
  rw [primitive_checked he hk, if_pos (statusMatches_iff.2 hs), onSuccess_none rfl]

theorem onSuccess_primitive_mismatched (move : State → State) (he : eventStatus s.cfg ev = some code)
    (hk : s.ReadyAfter k) (hs : ¬ StatusIs s.cfg (s.upcoming (k + 1)) code) :
    onSuccess move (primitive ev s) =
      (.unexpectedStatus (s.upcoming (k + 1)),
        s.afterAccesses (eventWrites s.cfg ev) (s.polls (k + 1) ++ [s.cfg.twstatAddr])) := by
  rw [primitive_checked he hk, if_neg (mt statusMatches_iff.1 hs), onSuccess_failed (by simp)]

theorem onSuccess_primitive_timeout (move : State → State) (ev : BusEvent) (hn : s.NeverReady) :
    onSuccess move (primitive ev s) =
      (.timeout, s.afterAccesses (eventWrites s.cfg ev) (s.polls s.cfg.pollOuter)) := by
  rw [primitive_timeout ev hn, onSuccess_failed timeout_ne_none]

end

/-! ## TXN.BEGIN and TXN.END (R150, R153) -/

theorem exec_txnBegin (s : State) : exec .txnBegin s = command (fun s => require (!s.txnOpen) beginTxn s) s := rfl

theorem exec_txnEnd (s : State) : exec .txnEnd s = command (fun s => require s.txnOpen endTxn s) s := rfl

section

variable {s t : State} {f : Failure}

theorem exec_txnBegin_opens (hl : s.Live) (ho : s.txnOpen = false) : exec .txnBegin s = .next (beginTxn s) := by
  rw [exec_txnBegin, command_live hl, require_holds (by rw [ho]; rfl)]

theorem exec_txnBegin_nested (hl : s.Live) (ho : s.txnOpen = true) :
    exec .txnBegin s = .next (s.rejected 3 .illegalSequence) := by
  rw [exec_txnBegin, command_live hl, require_fails (by rw [ho]; rfl)]

theorem exec_txnEnd_closes (hl : s.Live) (ho : s.txnOpen = true) : exec .txnEnd s = .next (endTxn s) := by
  rw [exec_txnEnd, command_live hl, require_holds ho]

theorem exec_txnEnd_outside (hl : s.Live) (ho : s.txnOpen = false) :
    exec .txnEnd s = .next (s.rejected 3 .illegalSequence) := by
  rw [exec_txnEnd, command_live hl, require_fails ho]

/-- The start's failure is the first failure and the answer. -/
theorem beginTxn_of_startProc (h : startProc (setTxn true false .none s) = (f, t)) :
    beginTxn s = { t with txnOpen := true, txnStarted := false, firstFail := f, response := .failed f } := by
  rw [beginTxn, h]
  rfl

/-- The stop's failure is answered only when nothing failed before it. -/
theorem endTxn_of_stopProc (h : stopProc s = (f, t)) :
    endTxn s = { t with
      txnOpen := false, txnStarted := false, firstFail := .none, response := .failed (firstOf s.firstFail f) } := by
  rw [endTxn, h]
  rfl

end

/-! ## The failure TXN.END returns (R153) -/

theorem firstOf_none_left (f : Failure) : firstOf .none f = f := rfl

theorem firstOf_of_ne {f : Failure} (h : f ≠ .none) (g : Failure) : firstOf f g = f := by
  rw [firstOf, if_pos (bne_iff_ne.2 h)]

theorem firstOf_none_right (f : Failure) : firstOf f .none = f := by
  cases f <;> rfl

theorem firstOf_eq_ite (f g : Failure) : firstOf f g = if f = .none then g else f := by
  cases f <;> rfl

/-! ## The outcomes of TXN.BEGIN and TXN.END -/

/-- Settles O50: the start condition runs with the transaction already open, in its three outcomes. -/
theorem txnBeginOpensATransaction : Obligations.TxnBeginOpensATransaction := by
  intro s hl ws
  have hws : ws = eventWrites s.cfg .start := (eventWrites_start s.cfg).symm
  rw [hws]
  refine ⟨fun ho => ?_, exec_txnBegin_nested hl⟩
  rw [exec_txnBegin_opens hl ho]
  refine ⟨fun k hk hs => ?_, fun k hk hs => ?_, fun hn => ?_⟩
  · rw [beginTxn_of_startProc (onSuccess_primitive_matched (s := setTxn true false .none s) _ rfl hk hs)]
    rfl
  · rw [beginTxn_of_startProc (onSuccess_primitive_mismatched (s := setTxn true false .none s) _ rfl hk hs)]
    rfl
  · rw [beginTxn_of_startProc (onSuccess_primitive_timeout (s := setTxn true false .none s) _ .start hn)]
    rfl

/-- Settles O51: the stop condition in its two outcomes. -/
theorem txnEndStopsAndCloses : Obligations.TxnEndStopsAndCloses := by
  intro s hl ws
  have hws : ws = eventWrites s.cfg .stop := (eventWrites_stop s.cfg).symm
  rw [hws]
  refine ⟨fun ho => ?_, exec_txnEnd_outside hl⟩
  rw [exec_txnEnd_closes hl ho]
  refine ⟨fun k hk => ?_, fun hn => ?_⟩
  · rw [endTxn_of_stopProc (stopProc_ready hk), firstOf_none_right]
  · rw [endTxn_of_stopProc (stopProc_timeout hn), firstOf_eq_ite]

/-! ## TXN.XMIT and TXN.RECV (R154, R155) -/

section Link

variable {address : State → Failure × State} {s t : State}

/-- The first link sets `txnStarted` and makes no repeated start. -/
theorem linkProc_first (hst : s.txnStarted = false) : linkProc address s = address { s with txnStarted := true } := by
  rw [linkProc, hst]
  rfl

theorem linkProc_later (hst : s.txnStarted = true) (h : rstartProc s = (.none, t)) :
    linkProc address s = address t := by
  rw [linkProc, if_pos hst, h]

/-- If the repeated start fails the address phase is not attempted. -/
theorem linkProc_restart_fails {f : Failure} (hst : s.txnStarted = true) (h : rstartProc s = (f, t))
    (hf : f ≠ .none) : linkProc address s = (f, t) := by
  rw [linkProc, if_pos hst, h]
  cases f with
  | none => exact absurd rfl hf
  | unexpectedStatus v => rfl
  | timeout => rfl

theorem linkLegal_first (ho : s.txnOpen = true) (hst : s.txnStarted = false) (hp : s.phase = .startSent) :
    s.linkLegal = true := by
  simp [State.linkLegal, ho, hst, hp]

theorem linkLegal_later (ho : s.txnOpen = true) (hst : s.txnStarted = true) (hp : midTransaction s.phase = true) :
    s.linkLegal = true := by
  simp [State.linkLegal, ho, hst, hp]

theorem linkLegal_eq_false (h : s.txnOpen = false ∨ (s.txnStarted = true ∧ ¬ midTransaction s.phase = true) ∨
    (s.txnStarted = false ∧ s.phase ≠ .startSent)) : s.linkLegal = false := by
  rcases h with ho | ⟨hst, hp⟩ | ⟨hst, hp⟩
  · simp [State.linkLegal, ho]
  · simp [State.linkLegal, hst, hp]
  · simp [State.linkLegal, hst, hp]

/-- The failure of the repeated start is the first failure of the open transaction. -/
theorem runLink_restart_fails {f : Failure} (hst : s.txnStarted = true) (h : rstartProc s = (f, t)) (hf : f ≠ .none)
    (ho : t.txnOpen = true) :
    runProc (linkProc address) s = { t with firstFail := f, response := .failed f } := by
  rw [runProc_fails (linkProc_restart_fails hst h hf) hf, State.failRecord, if_pos ho]

end Link

/-- What a link does with the writes of the repeated start (`restart`) and of the address phase (`address`), the status
that the address phase expects, and the direction it gives: R154 and R155 differ in these alone. -/
def Links (i : Instr) (s : State) (restart address : List (Addr × Byte)) (code : Byte) (d : Dir) (mid : Prop) : Prop :=
  (s.txnOpen = true → s.txnStarted = false → s.phase = .startSent →
    CheckedPrimitive i s { s with txnStarted := true } address code .addressSent d) ∧
  (s.txnOpen = true → s.txnStarted = true → mid →
    (∀ k, s.ReadyAfter k → StatusIs s.cfg (s.upcoming (k + 1)) s.cfg.stRstart →
      CheckedPrimitive i s
        { s.afterAccesses restart (s.polls (k + 1) ++ [s.cfg.twstatAddr]) with phase := .startSent, dir := .dirNone }
        address code .addressSent d) ∧
    (∀ k, s.ReadyAfter k → ¬ StatusIs s.cfg (s.upcoming (k + 1)) s.cfg.stRstart →
      exec i s = .next { s.afterAccesses restart (s.polls (k + 1) ++ [s.cfg.twstatAddr]) with
        firstFail := .unexpectedStatus (s.upcoming (k + 1))
        response := .failed (.unexpectedStatus (s.upcoming (k + 1))) }) ∧
    (s.NeverReady →
      exec i s = .next { s.afterAccesses restart (s.polls s.cfg.pollOuter) with
        firstFail := .timeout, response := .failed .timeout })) ∧
  (s.txnOpen = false ∨ (s.txnStarted = true ∧ ¬ mid) ∨ (s.txnStarted = false ∧ s.phase ≠ .startSent) →
    exec i s = .next (s.rejected 3 .illegalSequence))

/-- A command that is the precondition of R154 and then a link around one checked primitive. -/
theorem links_of_exec {i : Instr} {s : State} {ev : BusEvent} {code : Byte} {d : Dir} (hr : s.Ready)
    (hexec : exec i s = skippable (fun s => require s.linkLegal
      (runProc (linkProc fun t => onSuccess (moveTo .addressSent d) (primitive ev t))) s) s)
    (he : eventStatus s.cfg ev = some code) :
    Links i s (eventWrites s.cfg .rstart) (eventWrites s.cfg ev) code d (midTransaction s.phase = true) := by
  refine ⟨fun ho hst hp => ?_, fun ho hst hp => ?_,
    fun h => hexec.trans (guarded_fails hr (linkLegal_eq_false h) _)⟩
  · have hrun := hexec.trans (guarded_holds hr (linkLegal_first ho hst hp) _)
    rw [runProc, linkProc_first hst] at hrun
    exact checkedPrimitive_of_runProc (fun _ _ => rfl) hrun he
  · have hrun := hexec.trans (guarded_holds hr (linkLegal_later ho hst hp) _)
    refine ⟨fun k hk hs => ?_, fun k hk hs => ?_, fun hn => ?_⟩
    · rw [runProc, linkProc_later hst (onSuccess_primitive_matched _ rfl hk hs)] at hrun
      exact checkedPrimitive_of_runProc (fun _ _ => rfl) hrun he
    · rw [hrun, runLink_restart_fails hst (onSuccess_primitive_mismatched _ rfl hk hs) (by simp) ho]
    · rw [hrun, runLink_restart_fails hst (onSuccess_primitive_timeout _ .rstart hn) timeout_ne_none ho]

theorem exec_txnXmit (a : BitVec 7) (s : State) : exec (.txnXmit a) s =
    skippable (fun s => require s.linkLegal (runProc (linkProc (slawProc a))) s) s := rfl

theorem exec_txnRecv (a : BitVec 7) (s : State) : exec (.txnRecv a) s =
    skippable (fun s => require s.linkLegal (runProc (linkProc (slarProc a))) s) s := rfl

/-- Settles O52: the link around the address+W phase. -/
theorem txnXmitLinksAWrite : Obligations.TxnXmitLinksAWrite := by
  intro s a hr
  rw [← eventWrites_addressW, ← eventWrites_rstart, ← midTransaction_iff]
  exact links_of_exec hr (exec_txnXmit a s) rfl

/-- Settles O53: the link around the address+R phase. -/
theorem txnRecvLinksARead : Obligations.TxnRecvLinksARead := by
  intro s a hr
  rw [← eventWrites_addressR, ← eventWrites_rstart, ← midTransaction_iff]
  exact links_of_exec hr (exec_txnRecv a s) rfl

end Sys2Proof.Machine
end

section
/-! Where stop triggers come from (43_twi_transaction.md R156, 42_twi_driver.md R122, R129): how many control writes
with the stop flag set each command adds to the trace. -/

namespace Sys2Proof.Machine

/-! ## The flags of a control value (42_twi_driver.md R122) -/

/-- The five flags stand at five positions (00_scope.md R8). -/
theorem flagBit_injective {c : Config} (hv : c.Valid) {f g : CtlFlag} (h : flagBit c f = flagBit c g) : f = g := by
  have hall : ∀ f : CtlFlag, f ∈ [CtlFlag.start, .stop, .int, .en, .acken] := fun f => by cases f <;> decide
  have hnodup : ([CtlFlag.start, .stop, .int, .en, .acken].map (flagBit c)).Nodup := hv.2.1
  exact List.inj_on_of_nodup_map hnodup (hall f) (hall g) h

/-- The bit of one flag in a control value to which more flags are added. -/
theorem addFlags_bit {c : Config} (hv : c.Valid) (f : CtlFlag) (flags : List CtlFlag) (b : Byte) :
    (flags.foldl (fun b f => b ||| (1#8 <<< (flagBit c f).val)) b).getLsbD (flagBit c f).val =
      (b.getLsbD (flagBit c f).val || decide (f ∈ flags)) := by
  induction flags generalizing b with
  | nil => simp
  | cons g flags ih =>
    have hbit : (1#8 <<< (flagBit c g).val).getLsbD (flagBit c f).val = decide (f = g) := by
      rw [oneBit_bit _ (flagBit c g).isLt, decide_eq_decide, Fin.val_inj]
      exact ⟨flagBit_injective hv, congrArg (flagBit c)⟩
    rw [List.foldl_cons, ih, BitVec.getLsbD_or, hbit, Bool.or_assoc]
    simp only [List.mem_cons, Bool.decide_or]

/-- A control value has the bits of its flags set and no other flag's bit. -/
theorem controlByte_bit {c : Config} (hv : c.Valid) (f : CtlFlag) (flags : List CtlFlag) :
    (controlByte c flags).getLsbD (flagBit c f).val = decide (f ∈ flags) := by
  rw [controlByte, addFlags_bit hv, BitVec.getLsbD_zero, Bool.false_or]

/-! ## The stop triggers between two states -/

/-- From `s` to `t` the trace gained `n` control writes with the stop flag set. -/
def AddsStops (n : Nat) (s t : State) : Prop :=
  t.cfg = s.cfg ∧ controlWrites s.cfg s.cfg.stopBit t.trace = controlWrites s.cfg s.cfg.stopBit s.trace + n

theorem addsStops_of_eq {s t : State} (hcfg : t.cfg = s.cfg) (htrace : t.trace = s.trace) : AddsStops 0 s t :=
  ⟨hcfg, by rw [htrace, Nat.add_zero]⟩

theorem AddsStops.trans {n m : Nat} {s t u : State} (h : AddsStops n s t) (h' : AddsStops m t u) :
    AddsStops (n + m) s u := by
  obtain ⟨hc, hn⟩ := h
  obtain ⟨hc', hm⟩ := h'
  rw [hc] at hm hc'
  exact ⟨hc', by rw [hm, hn, Nat.add_assoc]⟩

/-- The control writes with the stop flag set among the writes of a primitive. -/
def stopsOf (ev : BusEvent) : Nat := if .stop ∈ eventFlags ev then 1 else 0

theorem controlWrites_append (c : Config) (bit : Fin 8) (l l' : List Access) :
    controlWrites c bit (l ++ l') = controlWrites c bit l + controlWrites c bit l' := List.countP_append

theorem controlWrites_reads (c : Config) (bit : Fin 8) (g : Addr × Nat → Byte) (rs : List (Addr × Nat)) :
    controlWrites c bit (rs.map fun r => Access.read r.1 (g r)) = 0 := by
  simp [controlWrites, List.countP_map, List.countP_eq_zero]

/-- Accesses without a write of the control register add no control write. -/
theorem controlWrites_eq_zero {c : Config} (bit : Fin 8) {rs ws : List Addr} {l : List Access}
    (h : ∀ x ∈ l, x.Within rs ws) (hc : c.twctlAddr ∉ ws) : controlWrites c bit l = 0 := by
  rw [controlWrites, List.countP_eq_zero]
  intro x hx
  cases x with
  | read a v => simp
  | write a v =>
    have ha : a ≠ c.twctlAddr := fun he => hc (he ▸ h _ hx)
    simp [ha]

/-- A command that does not write the control register adds no stop trigger. -/
theorem Accessed.addsStops {rs ws : List Addr} {n : Nat} {s t : State} (h : Accessed rs ws n s t)
    (hc : s.cfg.twctlAddr ∉ ws) : AddsStops 0 s t := by
  obtain ⟨l, htrace, hl⟩ := h.trace_within
  exact ⟨h.cfg, by rw [htrace, controlWrites_append, controlWrites_eq_zero _ hl hc]⟩

/-! ## The driver -/

section Driver

variable {s t : State}

/-- The writes of a primitive hold the stop flag once for the stop condition, and else never. -/
theorem controlWrites_eventWrites {c : Config} (hv : c.Valid) (hd : c.twdatAddr ≠ c.twctlAddr) (ev : BusEvent) :
    controlWrites c c.stopBit ((eventWrites c ev).map fun w => Access.write w.1 w.2) = stopsOf ev := by
  have hbit : (controlByte c (eventFlags ev)).getLsbD c.stopBit.val = decide (.stop ∈ eventFlags ev) :=
    controlByte_bit hv .stop _
  cases h : eventData ev <;> simp [controlWrites, eventWrites, h, hd, hbit, List.countP_cons, stopsOf,
    -BitVec.getLsbD_eq_getElem]

theorem primitive_addsStops (hv : s.cfg.Valid) (hd : s.cfg.twdatAddr ≠ s.cfg.twctlAddr) (ev : BusEvent) :
    AddsStops (stopsOf ev) s (primitive ev s).2 := by
  obtain ⟨f, rs, h, -⟩ := primitive_accesses ev s
  rw [h]
  refine ⟨rfl, ?_⟩
  rw [afterAccesses_trace, controlWrites_append, controlWrites_append, controlWrites_eventWrites hv hd]
  rw [controlWrites_reads s.cfg s.cfg.stopBit (fun r => s.upcoming r.2), Nat.add_zero]

theorem onSuccess_addsStops {n : Nat} {r : Failure × State} {move : State → State} (h : AddsStops n s r.2)
    (hm : ∀ t, AddsStops 0 t (move t)) : AddsStops n s (onSuccess move r).2 := by
  obtain ⟨f, t⟩ := r
  cases f with
  | none => exact h.trans (hm t)
  | unexpectedStatus v => exact h
  | timeout => exact h

/-- A procedure of the driver: a primitive, and a move on success. -/
theorem proc_addsStops (hv : s.cfg.Valid) (hd : s.cfg.twdatAddr ≠ s.cfg.twctlAddr) (ev : BusEvent)
    (p : State → Phase) (d : State → Dir) :
    AddsStops (stopsOf ev) s (onSuccess (fun t => moveTo (p t) (d t) t) (primitive ev s)).2 :=
  onSuccess_addsStops (primitive_addsStops hv hd ev) fun _ => addsStops_of_eq rfl rfl

theorem stopsOf_rx (ack : Bool) : stopsOf (.rx ack) = 0 := by
  cases ack <;> rfl

theorem receiveByte_addsStops (hv : s.cfg.Valid) (hd : s.cfg.twdatAddr ≠ s.cfg.twctlAddr) (ack : Bool) :
    AddsStops 0 s (receiveByte ack s) := by
  have hp := primitive_addsStops hv hd (.rx ack)
  rw [stopsOf_rx] at hp
  rcases h : primitive (.rx ack) s with ⟨f, t⟩
  rw [h] at hp
  by_cases hf : f = .none
  · subst hf
    have hread : AddsStops 0 t (memRead t.cfg.twdatAddr t).2 :=
      Accessed.addsStops (rs := [t.cfg.twdatAddr]) (ws := []) (memRead_accessed List.mem_cons_self t) List.not_mem_nil
    rw [receiveByte, h]
    exact hp.trans hread
  · rw [receiveByte_fails h hf]
    exact hp

theorem linkProc_addsStops {address : State → Failure × State} (hv : s.cfg.Valid)
    (hd : s.cfg.twdatAddr ≠ s.cfg.twctlAddr) (ha : ∀ t, t.cfg = s.cfg → AddsStops 0 t (address t).2) :
    AddsStops 0 s (linkProc address s).2 := by
  have hr : AddsStops 0 s (rstartProc s).2 := proc_addsStops hv hd .rstart _ _
  cases hst : s.txnStarted with
  | false =>
    rw [linkProc_first hst]
    exact ha _ rfl
  | true =>
    rcases h : rstartProc s with ⟨f, t⟩
    rw [h] at hr
    by_cases hf : f = .none
    · subst hf
      rw [linkProc_later hst h]
      exact hr.trans (ha t hr.1)
    · rw [linkProc_restart_fails hst h hf]
      exact hr

end Driver

/-! ## The commands -/

section Commands

variable {s t : State} {body : State → State}

theorem command_addsStops (h : command body s = .next t) (hb : AddsStops 0 s (body s)) : AddsStops 0 s t := by
  cases h
  split
  · exact addsStops_of_eq rfl rfl
  · exact hb

theorem skippable_addsStops (h : skippable body s = .next t) (hb : AddsStops 0 s (body s)) : AddsStops 0 s t := by
  refine command_addsStops h ?_
  split
  · exact addsStops_of_eq rfl rfl
  · exact hb

theorem require_addsStops {p : Bool} (hb : AddsStops 0 s (body s)) : AddsStops 0 s (require p body s) := by
  cases p with
  | false => exact addsStops_of_eq rfl rfl
  | true => exact hb

/-- No command but TW.STOP, TXN.END and REG.WR adds a stop trigger. -/
theorem exec_addsStops_zero {i : Instr} (hv : s.cfg.Valid) (hd : s.cfg.twdatAddr ≠ s.cfg.twctlAddr)
    (hb : s.cfg.twbrAddr ≠ s.cfg.twctlAddr) (h : exec i s = .next t) (h1 : i ≠ .twStop) (h2 : i ≠ .txnEnd)
    (h3 : ∀ a, i ≠ .regWr a) : AddsStops 0 s t := by
  cases i with
  | twStart => exact skippable_addsStops h (proc_addsStops hv hd .start _ _)
  | twRstart => exact skippable_addsStops h (require_addsStops (proc_addsStops hv hd .rstart _ _))
  | twSlaw a => exact skippable_addsStops h (require_addsStops (proc_addsStops hv hd (.addressW a) _ _))
  | twSlar a => exact skippable_addsStops h (require_addsStops (proc_addsStops hv hd (.addressR a) _ _))
  | twSendb b => exact skippable_addsStops h (require_addsStops (proc_addsStops hv hd (.tx b) _ _))
  | twRecvb ack => exact skippable_addsStops h (require_addsStops (receiveByte_addsStops hv hd ack))
  | txnBegin =>
    exact command_addsStops h
      (require_addsStops (proc_addsStops (s := setTxn true false .none s) hv hd .start _ _))
  | txnXmit a =>
    refine skippable_addsStops h (require_addsStops (linkProc_addsStops hv hd fun t ht => ?_))
    exact proc_addsStops (ht ▸ hv) (ht ▸ hd) (.addressW a) _ _
  | txnRecv a =>
    refine skippable_addsStops h (require_addsStops (linkProc_addsStops hv hd fun t ht => ?_))
    exact proc_addsStops (ht ▸ hv) (ht ▸ hd) (.addressR a) _ _
  | twStop => exact absurd rfl h1
  | txnEnd => exact absurd rfl h2
  | regWr a => exact absurd rfl (h3 a)
  | twCfgm => exact (exec_accessed h).addsStops (by simp [writesTo, hb.symm])
  | _ => exact (exec_accessed h).addsStops (by simp [writesTo])

theorem stopProc_addsStops (hv : s.cfg.Valid) (hd : s.cfg.twdatAddr ≠ s.cfg.twctlAddr) :
    AddsStops 1 s (stopProc s).2 :=
  proc_addsStops (s := moveTo .stopPending .dirNone s) hv hd .stop _ _

end Commands

/-- Settles O54: the stop condition is the one primitive whose trigger holds the stop flag. -/
theorem stopTriggersComeFromStopAndEnd : Obligations.StopTriggersComeFromStopAndEnd := by
  intro i s t hv hd hb h
  refine ⟨fun h1 h2 h3 => (exec_addsStops_zero hv hd hb h h1 h2 h3).2, ?_, ?_⟩
  · rintro rfl hr
    cases (skippable_ready hr (runProc stopProc)).symm.trans h
    exact (stopProc_addsStops hv hd).2
  · rintro rfl hl ho
    cases (exec_txnEnd_closes hl ho).symm.trans h
    exact (stopProc_addsStops hv hd).2

end Sys2Proof.Machine
end

section
/-! A whole transaction (43_twi_transaction.md R150, R151, R153, R156): what TXN.BEGIN, a body of skippable commands and
TXN.END answer when the host presents them in order. -/

namespace Sys2Proof.Machine

/-! ## The host's list of commands (30_encoding.md R85) -/

theorem issueAll_cons (c : Command) (cs : List Command) (s : State) : issueAll (c :: cs) s =
    ((issue c s).1 :: (issueAll cs (issue c s).2).1, (issueAll cs (issue c s).2).2) := rfl

theorem issueAll_append (cs ds : List Command) (s : State) : issueAll (cs ++ ds) s =
    ((issueAll cs s).1 ++ (issueAll ds (issueAll cs s).2).1, (issueAll ds (issueAll cs s).2).2) := by
  induction cs generalizing s with
  | nil => rfl
  | cons c cs ih => rw [List.cons_append, issueAll_cons, ih, issueAll_cons, List.cons_append]

theorem issue_plain {i : Instr} {s t : State} (hw : WellFormed i = true)
    (he : exec i (present (plain i) s) = .next t) : issue (plain i) s = (t.response, t) :=
  issue_of_exec (decodeOfEncodeIsTheCommand i hw) he

/-! ## The first failure in a list of responses -/

theorem firstOf_assoc (f g h : Failure) : firstOf (firstOf f g) h = firstOf f (firstOf g h) := by
  cases f <;> rfl

theorem firstOf_self_left (f g : Failure) : firstOf f (firstOf f g) = firstOf f g := by
  cases f <;> rfl

theorem firstFailureOf_cons (r : Response) (rs : List Response) :
    firstFailureOf (r :: rs) = firstOf r.failure (firstFailureOf rs) := by
  by_cases h : r.failure = .none
  · simp [firstFailureOf, h, firstOf_none_left]
  · simp [firstFailureOf, h, firstOf_of_ne]

theorem firstFailureOf_singleton (r : Response) : firstFailureOf [r] = r.failure :=
  (firstFailureOf_cons r []).trans (firstOf_none_right r.failure)

theorem firstFailureOf_append (rs rs' : List Response) :
    firstFailureOf (rs ++ rs') = firstOf (firstFailureOf rs) (firstFailureOf rs') := by
  induction rs with
  | nil => rfl
  | cons r rs ih => rw [List.cons_append, firstFailureOf_cons, firstFailureOf_cons, ih, firstOf_assoc]

/-! ## One command inside a transaction (R151) -/

/-- In a live block a transaction is open, and its first failure is the failure of the last response. -/
structure State.Recorded (s : State) : Prop where
  live : s.Live
  isOpen : s.txnOpen = true
  firstFail_eq : s.firstFail = s.response.failure

/-- In a live block a transaction is open that has not failed. -/
structure State.Unfailed (s : State) : Prop where
  live : s.Live
  isOpen : s.txnOpen = true
  unfailed : s.firstFail = .none

theorem State.Unfailed.ready {s : State} (h : s.Unfailed) : s.Ready := ⟨h.live, .inr h.unfailed⟩

/-- What a procedure leaves: `txnStarted` is `st`, on success `phase` and `dir` are `p` and `d`, and the halt and the
rest of the transaction state are as they were. -/
def Leaves (s : State) (st : Bool) (p : Phase) (d : Dir) (r : Failure × State) : Prop :=
  (r.2.halted = s.halted ∧ r.2.txnOpen = s.txnOpen ∧ r.2.txnStarted = st ∧ r.2.firstFail = s.firstFail) ∧
  (r.1 = .none → r.2.phase = p ∧ r.2.dir = d)

theorem ProcEnds.leaves {s : State} {p p' : Phase} {d d' : Dir} {r : Failure × State} (h : ProcEnds s p d p' d' r) :
    Leaves s s.txnStarted p d r := by
  obtain ⟨⟨-, hh, ho, hst, hf⟩, ⟨-, hpd⟩ | ⟨hne, -⟩⟩ := h
  · exact ⟨⟨hh, ho, hst, hf⟩, fun _ => hpd⟩
  · exact ⟨⟨hh, ho, hst, hf⟩, fun he => absurd he hne⟩

theorem linkProc_leaves {address : State → Failure × State} {d : Dir}
    (h : ∀ t, ProcEnds t .addressSent d t.phase t.dir (address t)) (s : State) :
    Leaves s true .addressSent d (linkProc address s) := by
  obtain ⟨⟨-, hh, ho, hst, hf⟩, ⟨-, hpd⟩ | ⟨hne, -⟩⟩ := linkProc_ends h s
  · exact ⟨⟨hh, ho, hst, hf⟩, fun _ => hpd⟩
  · exact ⟨⟨hh, ho, hst, hf⟩, fun he => absurd he hne⟩

/-- A command of an open transaction executed: no fault, its failure recorded, and on success `phase` and `dir` are `p`
and `d`. -/
structure State.Answers (t : State) (st : Bool) (p : Phase) (d : Dir) : Prop where
  recorded : t.Recorded
  faultless : t.response.fault = .noFault
  started : t.txnStarted = st
  moved : t.firstFail = .none → t.phase = p ∧ t.dir = d

section Unfailed

variable {s t : State} {st : Bool} {p : Phase} {d : Dir}

theorem finish_recorded (hs : s.Unfailed) (f : Failure) (v : Option Latch) : (finish f v s).Recorded := by
  obtain ⟨hl, ho, hf⟩ := hs
  refine ⟨hl, ho, ?_⟩
  cases f <;> simp [ho, hf, Response.ofFailure]

theorem runProc_answers {proc : State → Failure × State} (hs : s.Unfailed) (h : Leaves s st p d (proc s)) :
    (runProc proc s).Answers st p d := by
  obtain ⟨⟨hh, ho, hst, hf⟩, hpd⟩ := h
  have hu : (proc s).2.Unfailed := ⟨hh.trans hs.live, ho.trans hs.isOpen, hf.trans hs.unfailed⟩
  have hrec : (runProc proc s).Recorded := finish_recorded hu (proc s).1 none
  exact ⟨hrec, rfl, hst, fun hnone => hpd (hrec.firstFail_eq.symm.trans hnone)⟩

theorem receiveByte_answers (hs : s.Unfailed) (ack : Bool) :
    (receiveByte ack s).Answers s.txnStarted .dataTransferring s.dir := by
  obtain ⟨f, rs, h, -⟩ := primitive_accesses (.rx ack) s
  by_cases hf : f = .none
  · subst hf
    rw [receiveByte_succeeds h]
    exact ⟨⟨hs.live, hs.isOpen, hs.unfailed⟩, rfl, rfl, fun _ => ⟨rfl, rfl⟩⟩
  · have hrecord : State.failRecord (s.afterAccesses (eventWrites s.cfg (.rx ack)) rs) f = f := if_pos hs.isOpen
    rw [receiveByte_fails h hf, hrecord]
    exact ⟨⟨hs.live, hs.isOpen, rfl⟩, rfl, rfl, fun hnone => absurd hnone hf⟩

theorem require_recorded {holds : Bool} {body : State → State} (hs : s.Unfailed) (h : (body s).Recorded) :
    (require holds body s).Recorded := by
  cases holds with
  | true => exact h
  | false =>
    rw [require_fails rfl]
    exact ⟨hs.live, hs.isOpen, hs.unfailed⟩

theorem skippable_recorded {body : State → State} (hs : s.Unfailed) (h : (body s).Recorded)
    (he : skippable body s = .next t) : t.Recorded := by
  cases (skippable_ready hs.ready body).symm.trans he
  exact h

/-- Rejected or executed, a skippable command records its failure. -/
theorem exec_recorded_of_unfailed {i : Instr} (hi : Skippable i = true) (hs : s.Unfailed) (he : exec i s = .next t) :
    t.Recorded := by
  cases i with
  | twWait => exact skippable_recorded hs (runProc_answers hs (waitUntilReady_ends s).leaves).recorded he
  | twStart => exact skippable_recorded hs (runProc_answers hs (startProc_ends s).leaves).recorded he
  | twRstart =>
    exact skippable_recorded hs (require_recorded hs (runProc_answers hs (rstartProc_ends s).leaves).recorded) he
  | twStop => exact skippable_recorded hs (runProc_answers hs (stopProc_ends s).leaves).recorded he
  | twSlaw a =>
    exact skippable_recorded hs (require_recorded hs (runProc_answers hs (slawProc_ends a s).leaves).recorded) he
  | twSlar a =>
    exact skippable_recorded hs (require_recorded hs (runProc_answers hs (slarProc_ends a s).leaves).recorded) he
  | twSendb b =>
    exact skippable_recorded hs (require_recorded hs (runProc_answers hs (sendbProc_ends b s).leaves).recorded) he
  | twRecvb ack => exact skippable_recorded hs (require_recorded hs (receiveByte_answers hs ack).recorded) he
  | txnXmit a =>
    exact skippable_recorded hs (require_recorded hs
      (runProc_answers hs (linkProc_leaves (slawProc_ends a) s)).recorded) he
  | txnRecv a =>
    exact skippable_recorded hs (require_recorded hs
      (runProc_answers hs (linkProc_leaves (slarProc_ends a) s)).recorded) he
  | _ => cases hi

end Unfailed

/-- In an open transaction the host gets an answer to every skippable command, its failure is recorded, and after a
failure the answer repeats it. -/
theorem issue_skippable {i : Instr} {s : State} (hi : Skippable i = true) (hw : WellFormed i = true)
    (hs : s.Recorded) : ∃ t, issue (plain i) s = (t.response, t) ∧ t.Recorded ∧
      (s.firstFail ≠ .none → t.response = .ofSkip s.firstFail) := by
  obtain ⟨hl, ho, -⟩ := hs
  by_cases hf : s.firstFail = .none
  · obtain ⟨t, he⟩ := exec_answers i (present (plain i) s)
    exact ⟨t, issue_plain hw he, exec_recorded_of_unfailed hi (s := present (plain i) s) ⟨hl, ho, hf⟩ he,
      fun h => absurd hf h⟩
  · have he := failedTransactionSkips i (present (plain i) s) hi ⟨hl, ho, hf⟩
    exact ⟨_, issue_plain hw he, ⟨hl, ho, rfl⟩, fun _ => rfl⟩

/-! ## The beginning and the end (R150, R153) -/

theorem beginTxn_answers {s : State} (hl : s.Live) : (beginTxn s).Answers false .startSent .dirNone := by
  obtain ⟨⟨hh, -⟩, hpd⟩ := (startProc_ends (setTxn true false .none s)).leaves
  exact ⟨⟨hh.trans hl, rfl, rfl⟩, rfl, rfl, hpd⟩

theorem issue_txnBegin {s : State} (hl : s.Live) (ho : s.txnOpen = false) :
    ∃ t, issue (plain .txnBegin) s = (t.response, t) ∧ t.Answers false .startSent .dirNone :=
  ⟨_, issue_plain rfl (exec_txnBegin_opens hl ho), beginTxn_answers (s := present (plain .txnBegin) s) hl⟩

/-- TXN.END answers the first failure, else the stop's own, without a fault, and closes the transaction. -/
theorem issue_txnEnd {s : State} (hl : s.Live) (ho : s.txnOpen = true) :
    ∃ t f, issue (plain .txnEnd) s = (.failed (firstOf s.firstFail f), t) ∧ t.txnOpen = false ∧
      t.firstFail = .none :=
  ⟨_, _, issue_plain rfl (exec_txnEnd_closes hl ho), rfl, rfl⟩

/-! ## A transaction returns its first failure (R156) -/

/-- A body of skippable commands: the first failure is the one recorded before it, or else the first of its
responses. -/
theorem issueAll_skippable {body : List Instr} (hb : ∀ i ∈ body, Skippable i = true ∧ WellFormed i = true)
    {s : State} (hs : s.Recorded) :
    ∃ rs t, issueAll (body.map plain) s = (rs, t) ∧ rs.length = body.length ∧ t.Recorded ∧
      t.firstFail = firstOf s.firstFail (firstFailureOf rs) := by
  induction body generalizing s with
  | nil => exact ⟨[], s, rfl, rfl, hs, (firstOf_none_right _).symm⟩
  | cons i body ih =>
    rw [List.forall_mem_cons] at hb
    obtain ⟨⟨hi, hw⟩, hbody⟩ := hb
    obtain ⟨t, hissue, ht, hskip⟩ := issue_skippable hi hw hs
    obtain ⟨rs, u, hall, hlen, hu, hfail⟩ := ih hbody ht
    refine ⟨t.response :: rs, u, ?_, congrArg Nat.succ hlen, hu, ?_⟩
    · rw [List.map_cons, issueAll_cons, hissue, hall]
    · rw [hfail, firstFailureOf_cons, ht.firstFail_eq]
      by_cases hf : s.firstFail = .none
      · rw [hf, firstOf_none_left]
      · rw [hskip hf]
        exact (firstOf_self_left _ _).symm

/-- Settles O55: TXN.BEGIN records the start's failure, the body keeps the first one, and TXN.END answers it. -/
theorem transactionReturnsItsFirstFailure : Obligations.TransactionReturnsItsFirstFailure := by
  intro s body hl ho hb
  obtain ⟨t, hbegin, ht, -⟩ := issue_txnBegin hl ho
  obtain ⟨rs, u, hall, hlen, ⟨hul, huo, -⟩, hfail⟩ := issueAll_skippable hb ht
  obtain ⟨v, f, hend, hvo, hvf⟩ := issue_txnEnd hul huo
  refine ⟨t.response :: rs, .failed (firstOf u.firstFail f), v, ?_, congrArg Nat.succ hlen, rfl, ?_, hvo, hvf⟩
  · rw [issueAll_cons, hbegin, issueAll_append, hall, issueAll_cons, hend]
    rfl
  · rw [firstFailureOf_append, firstFailureOf_cons, ← ht.firstFail_eq, ← hfail, firstFailureOf_singleton]
    exact (firstOf_self_left u.firstFail f).symm

end Sys2Proof.Machine
end

section
/-! The register helpers (43_twi_transaction.md R160 to R168): why the expansion of a helper never faults. An expansion
passes through stages, and the stage before each command gives its precondition unless the transaction has failed. -/

namespace Sys2Proof.Machine

/-! ## The stages of an expansion -/

/-- What is known of `phase`, `dir` and `txnStarted` at a point of an expansion. -/
abbrev Stage := Phase → Dir → Bool → Prop

/-- After TXN.BEGIN. -/
def Stage.opened : Stage := fun p _ _ => p = .startSent

/-- After TXN.XMIT. -/
def Stage.addressed : Stage := fun p _ st => afterAddress p = true ∧ st = true

/-- After TXN.RECV. -/
def Stage.receiving : Stage := fun p d _ => afterAddress p = true ∧ d = .dirR

/-- A transaction is open; unless it has failed, the expansion is at the stage `P`. -/
def State.At (s : State) (P : Stage) : Prop := s.Recorded ∧ (s.firstFail = .none → P s.phase s.dir s.txnStarted)

/-- Presented at the stage `P`, the commands answer without a fault and lead to the stage `Q`. -/
def Leads (P : Stage) (cs : List Command) (Q : Stage) : Prop :=
  ∀ s : State, s.At P → (∀ r ∈ (issueAll cs s).1, r.fault = .noFault) ∧ (issueAll cs s).2.At Q

section Leads

variable {P Q R : Stage}

theorem State.Answers.at_stage {t : State} {st : Bool} {p : Phase} {d : Dir} (h : t.Answers st p d) (hQ : Q p d st) :
    t.At Q := by
  obtain ⟨hrec, -, rfl, hpd⟩ := h
  refine ⟨hrec, fun hf => ?_⟩
  obtain ⟨rfl, rfl⟩ := hpd hf
  exact hQ

theorem Leads.append {cs ds : List Command} (h : Leads P cs Q) (h' : Leads Q ds R) : Leads P (cs ++ ds) R := by
  intro s hs
  obtain ⟨hcs, hQ⟩ := h s hs
  obtain ⟨hds, hR⟩ := h' _ hQ
  rw [issueAll_append]
  exact ⟨List.forall_mem_append.2 ⟨hcs, hds⟩, hR⟩

/-- Commands that each keep the stage. -/
theorem Leads.all {cs : List Command} (h : ∀ c ∈ cs, Leads P [c] P) : Leads P cs P := by
  induction cs with
  | nil => exact fun s hs => ⟨by simp [issueAll], hs⟩
  | cons c cs ih =>
    rw [List.forall_mem_cons] at h
    exact h.1.append (ih h.2)

/-- A skippable command whose precondition the stage gives: either it executes, or a failure before it skips it. -/
theorem leads_of_exec {i : Instr} (hi : Skippable i = true) (hw : WellFormed i = true)
    (h : ∀ s : State, s.Unfailed → P s.phase s.dir s.txnStarted →
      ∃ t st p d, exec i s = .next t ∧ t.Answers st p d ∧ Q p d st) : Leads P [plain i] Q := by
  intro s ⟨hs, hP⟩
  suffices hgoal : ∃ t, issue (plain i) s = (t.response, t) ∧ t.response.fault = .noFault ∧ t.At Q by
    obtain ⟨t, hissue, hfault, ht⟩ := hgoal
    rw [issueAll_cons, hissue]
    exact ⟨by simpa [issueAll] using hfault, ht⟩
  by_cases hf : s.firstFail = .none
  · obtain ⟨t, st, p, d, he, hans, hQ⟩ := h (present (plain i) s) ⟨hs.live, hs.isOpen, hf⟩ (hP hf)
    exact ⟨t, issue_plain hw he, hans.faultless, hans.at_stage hQ⟩
  · obtain ⟨t, hissue, ht, hskip⟩ := issue_skippable hi hw hs
    refine ⟨t, hissue, by rw [hskip hf]; rfl, ht, fun hnone => absurd ?_ hf⟩
    rw [← hnone, ht.firstFail_eq, hskip hf]
    rfl

end Leads

/-! ## The commands of an expansion -/

theorem linkLegal_of_startSent {s : State} (ho : s.txnOpen = true) (hp : s.phase = .startSent) :
    s.linkLegal = true := by
  cases hst : s.txnStarted with
  | false => exact linkLegal_first ho hst hp
  | true => exact linkLegal_later ho hst (midTransaction_iff.2 (.inl hp))

theorem txnXmit_leads (a : BitVec 7) : Leads .opened [plain (.txnXmit a)] .addressed :=
  leads_of_exec rfl rfl fun s hs hp =>
    ⟨_, _, _, _, guarded_holds hs.ready (linkLegal_of_startSent hs.isOpen hp) _,
      runProc_answers hs (linkProc_leaves (slawProc_ends a) s), rfl, rfl⟩

theorem twSendb_leads (b : Byte) : Leads .addressed [plain (.twSendb b)] .addressed :=
  leads_of_exec rfl rfl fun s hs hp =>
    ⟨_, _, _, _, guarded_holds hs.ready (g := fun s => afterAddress s.phase) hp.1 _,
      runProc_answers hs (sendbProc_ends b s).leaves, rfl, hp.2⟩

theorem txnRecv_leads (a : BitVec 7) : Leads .addressed [plain (.txnRecv a)] .receiving :=
  leads_of_exec rfl rfl fun s hs hp =>
    ⟨_, _, _, _, guarded_holds hs.ready
      (linkLegal_later hs.isOpen hp.2 (midTransaction_iff.2 (.inr (afterAddress_iff.1 hp.1)))) _,
      runProc_answers hs (linkProc_leaves (slarProc_ends a) s), rfl, rfl⟩

theorem twRecvb_leads (ack : Bool) : Leads .receiving [plain (.twRecvb ack)] .receiving :=
  leads_of_exec rfl rfl fun _ hs hp =>
    ⟨_, _, _, _, guarded_holds hs.ready (g := fun s => afterAddress s.phase && s.dir == .dirR)
      (receiver_iff.2 ⟨afterAddress_iff.1 hp.1, hp.2⟩) _, receiveByte_answers hs ack, rfl, hp.2⟩

/-- The commands between TXN.BEGIN and TXN.END of a write (R160). -/
theorem writeBody_leads (a : BitVec 7) (r : Byte) (bytes : List Byte) :
    Leads .opened ([plain (.txnXmit a), plain (.twSendb r)] ++ bytes.map fun b => plain (.twSendb b)) .addressed :=
  ((txnXmit_leads a).append (twSendb_leads r)).append <| .all <|
    List.forall_mem_map.2 fun b _ => twSendb_leads b

/-- The commands between TXN.BEGIN and TXN.END of a read (R163). -/
theorem readBody_leads (a : BitVec 7) (r : Byte) (n : Nat) :
    Leads .opened ([plain (.txnXmit a), plain (.twSendb r), plain (.txnRecv a)] ++
      List.replicate (n - 1) (plain (.twRecvb true)) ++ [plain (.twRecvb false)]) .receiving := by
  have hreceives : Leads .receiving (List.replicate (n - 1) (plain (.twRecvb true))) .receiving :=
    .all fun c hc => List.eq_of_mem_replicate hc ▸ twRecvb_leads true
  exact ((((txnXmit_leads a).append (twSendb_leads r)).append (txnRecv_leads a)).append hreceives).append
    (twRecvb_leads false)

/-! ## A whole expansion (R160 to R168) -/

/-- A complete transaction (R156) around a body that leads somewhere from the start condition. -/
theorem transaction_never_faults {body : List Command} {Q : Stage} (hb : Leads .opened body Q) {s : State}
    (hl : s.Live) (ho : s.txnOpen = false) :
    (∀ r ∈ (issueAll (plain .txnBegin :: (body ++ [plain .txnEnd])) s).1, r.fault = .noFault) ∧
      (issueAll (plain .txnBegin :: (body ++ [plain .txnEnd])) s).2.txnOpen = false := by
  obtain ⟨t, hbegin, ht⟩ := issue_txnBegin hl ho
  obtain ⟨hbody, ⟨hul, huo, -⟩, -⟩ := hb t (ht.at_stage rfl)
  obtain ⟨v, f, hend, hvo, -⟩ := issue_txnEnd hul huo
  rw [issueAll_cons, hbegin, issueAll_append, issueAll_cons, hend]
  refine ⟨List.forall_mem_cons.2 ⟨ht.faultless, List.forall_mem_append.2 ⟨hbody, ?_⟩⟩, hvo⟩
  simp [issueAll]

/-- Every expansion is a write or a read (R160 to R167). -/
theorem expand_writes_or_reads {h : Helper} {cs : List Command} (he : h.expand = some cs) :
    (∃ a r bytes, cs = writeExpansion a r bytes) ∨ ∃ a r n, cs = readExpansion a r n := by
  cases h with
  | wrreg a r n v =>
    obtain ⟨-, hcs⟩ := Option.ite_none_left_eq_some.1 he
    exact .inl ⟨_, _, _, (Option.some.inj hcs).symm⟩
  | wrrange a rlo rhi v =>
    obtain ⟨-, hcs⟩ := Option.ite_none_right_eq_some.1 he
    exact .inl ⟨_, _, _, (Option.some.inj hcs).symm⟩
  | rdreg a r n =>
    obtain ⟨-, hcs⟩ := Option.ite_none_left_eq_some.1 he
    exact .inr ⟨_, _, _, (Option.some.inj hcs).symm⟩
  | rdrange a rlo rhi =>
    obtain ⟨-, hcs⟩ := Option.ite_none_right_eq_some.1 he
    exact .inr ⟨_, _, _, (Option.some.inj hcs).symm⟩
  | rdbuf a rlo rhi cap =>
    obtain ⟨-, hcs⟩ := Option.ite_none_right_eq_some.1 he
    exact .inr ⟨_, _, _, (Option.some.inj hcs).symm⟩
  | wrbuf a rlo rhi bytes =>
    obtain ⟨-, hcs⟩ := Option.ite_none_right_eq_some.1 he
    exact .inl ⟨_, _, _, (Option.some.inj hcs).symm⟩

/-- Settles O56: at each command of a write or a read the stage gives its precondition. -/
theorem helpersNeverFault : Obligations.HelpersNeverFault := by
  intro s h cs hl ho he
  rcases expand_writes_or_reads he with ⟨a, r, bytes, rfl⟩ | ⟨a, r, n, rfl⟩
  · exact transaction_never_faults (writeBody_leads a r bytes) hl ho
  · have hread := transaction_never_faults (readBody_leads a r n) hl ho
    rwa [List.append_assoc] at hread

end Sys2Proof.Machine
end

section
/-! Byte split and join (43_twi_transaction.md R162, 20_memory.md R58): the bytes of a value are its base-256
digits, the most significant first, and joining bytes adds each at its place. -/

namespace Sys2Proof.Machine

/-- The most significant byte, and the bytes of the rest. -/
theorem splitBytes_succ (v n : Nat) : splitBytes v (n + 1) = BitVec.ofNat 8 (v >>> (8 * n)) :: splitBytes v n := by
  rw [splitBytes, List.range_succ_eq_map, List.map_cons, List.map_map]
  refine congrArg₂ _ rfl (List.map_congr_left fun k _ => ?_)
  simp only [Function.comp, byteOf, Nat.add_sub_cancel, Nat.sub_sub, Nat.add_comm]

theorem splitBytes_length (v n : Nat) : (splitBytes v n).length = n := by
  rw [splitBytes, List.length_map, List.length_range]

theorem splitBytes_getD (v : Nat) {n k : Nat} (h : k < n) : (splitBytes v n).getD k 0 = byteOf v n k := by
  simp [splitBytes, h]

theorem byteOf_bit (v n k : Nat) {j : Nat} (h : j < 8) :
    (byteOf v n k).getLsbD j = v.testBit (8 * (n - 1 - k) + j) := by
  rw [byteOf, BitVec.getLsbD_ofNat, decide_eq_true h, Bool.true_and, Nat.testBit_shiftRight]

/-- Bytes joined after others stand below them. -/
theorem joinBytes_from (bs : List Byte) (acc : Nat) :
    bs.foldl (fun acc b => acc * 256 + b.toNat) acc = acc * 256 ^ bs.length + joinBytes bs := by
  induction bs generalizing acc with
  | nil => simp [joinBytes]
  | cons b bs ih =>
    rw [joinBytes, List.foldl_cons, List.foldl_cons, ih, ih (0 * 256 + _), List.length_cons]
    ring

theorem joinBytes_cons (b : Byte) (bs : List Byte) :
    joinBytes (b :: bs) = b.toNat <<< (8 * bs.length) + joinBytes bs := by
  rw [joinBytes, List.foldl_cons, joinBytes_from, Nat.zero_mul, Nat.zero_add, Nat.shiftLeft_eq, Nat.pow_mul]

/-- Joining the `n` bytes of a value gives its `8 * n` low bits. -/
theorem joinBytes_splitBytes (v n : Nat) : joinBytes (splitBytes v n) = v % 2 ^ (8 * n) := by
  induction n with
  | zero => simp [splitBytes, joinBytes, Nat.mod_one]
  | succ n ih =>
    rw [splitBytes_succ, joinBytes_cons, splitBytes_length, ih, BitVec.toNat_ofNat, Nat.shiftLeft_eq,
      Nat.shiftRight_eq_div_pow, Nat.mul_succ, Nat.pow_add, Nat.mod_mul, Nat.add_comm,
      Nat.mul_comm (2 ^ (8 * n))]

/-- Settles O57: by induction on the number of bytes. -/
theorem splitThenJoinIsTheValue : Obligations.SplitThenJoinIsTheValue := by
  refine ⟨fun n v _ hv => ⟨splitBytes_length v n, ?_, fun k j hk hj => ?_⟩, rfl, joinBytes_cons⟩
  · rw [joinBytes_splitBytes, Nat.mod_eq_of_lt hv]
  · rw [splitBytes_getD v hk, byteOf_bit v n k hj]

end Sys2Proof.Machine
end

section
/-! The faults (60_exceptions.md R193 to R198): a halted block refuses every word, and a fault records its cause and
changes nothing else. -/

namespace Sys2Proof.Machine

/-! ## A word on the command port (30_encoding.md R79, R80) -/

section

variable {w : CmdWord}

theorem runWord_legal {i : Instr} (hd : decode w = .ok i) (s : State) : runWord w s = exec i s := by
  simp only [runWord, hd]

theorem runWord_illegal {e : DecodeReject} (hd : decode w = .error e) (s : State) :
    runWord w s = command (raiseFault .illegalCommand) s := by
  simp only [runWord, hd, rejectWord]

/-- Legal or not, every word meets the check for the halt before anything else (60_exceptions.md R198). -/
theorem runWord_is_command (w : CmdWord) : ∃ body, ∀ s, runWord w s = command body s := by
  cases hd : decode w with
  | ok i =>
    obtain ⟨body, hexec⟩ := exec_is_command i
    exact ⟨body, fun s => (runWord_legal hd s).trans (hexec s)⟩
  | error e => exact ⟨raiseFault .illegalCommand, runWord_illegal hd⟩

theorem step_presented {s : State} {c : Command} {rest : List Input} (hs : s.inputs = .command c :: rest) :
    step s = runWord c.word (present c (withInputs rest s)) := by
  simp only [step, takeInput, hs, runCommand]

end

/-! ## The halt (R196) -/

section

variable {s : State}

theorem exec_halted (hh : s.halted = true) (i : Instr) : exec i s = .next (s.rejected 6 .halted) := by
  obtain ⟨body, hexec⟩ := exec_is_command i
  rw [hexec, command_halted hh]

theorem runWord_halted (hh : s.halted = true) (w : CmdWord) : runWord w s = .next (s.rejected 6 .halted) := by
  obtain ⟨body, hrun⟩ := runWord_is_command w
  rw [hrun, command_halted hh]

end

/-- Settles O7: presenting a word leaves the halt, and the word's first check is for it. -/
theorem haltedBlockAnswersHalted : Obligations.HaltedBlockAnswersHalted := by
  refine ⟨fun s c rest hs hh => ?_, fun s i hh => exec_halted hh i⟩
  have hhalted : (present c (withInputs rest s)).halted = true := hh
  exact ⟨_, _, _, fun v hv => latchValue_given hv s.latchDraws, fun v hv => latchValue_given hv (s.latchDraws + 1),
    (step_presented hs).trans (runWord_halted hhalted c.word)⟩

/-! ## Faults are precise (R193, R194) -/

section

variable {s t : State}

/-- The cause with code `n` has bit `n - 1` of `FLT` (10_state.md R26). -/
theorem faultBit_eq_shift {c : FaultCause} (hc : c ≠ .noFault) : faultBit c = 1#6 <<< ((faultCode c).toNat - 1) := by
  cases c
  case noFault => exact absurd rfl hc
  all_goals rfl

theorem raiseFault_precise (c : FaultCause) (s : State) : PreciseFault s (raiseFault c s) := by
  intro hc
  have hbit := faultBit_eq_shift (c := c) hc
  rw [raiseFault_response, raiseFault, hbit]
  rfl

theorem preciseFault_of_faultless (h : t.response.fault = .noFault) : PreciseFault s t :=
  fun hc => absurd h hc

theorem Executed.faultless (h : Executed s t) : t.response.fault = .noFault := by
  obtain ⟨-, -, ⟨f, v, hresp, -⟩, -⟩ := h
  rw [hresp]

/-- Rejected, skipped or executed: only a rejected command is answered with a fault. -/
theorem exec_precise {i : Instr} (h : exec i s = .next t) : PreciseFault s t := by
  rcases exec_ends h with ⟨c, -, rfl, -⟩ | ⟨-, -, rfl⟩ | ⟨-, hx⟩
  · exact raiseFault_precise c s
  · exact preciseFault_of_faultless rfl
  · exact preciseFault_of_faultless hx.faultless

theorem command_precise {body : State → State} (hb : PreciseFault s (body s)) (h : command body s = .next t) :
    PreciseFault s t := by
  cases h
  split
  · exact raiseFault_precise .halted s
  · exact hb

theorem runWord_precise {w : CmdWord} (h : runWord w s = .next t) : PreciseFault s t := by
  cases hd : decode w with
  | ok i => exact exec_precise ((runWord_legal hd s).symm.trans h)
  | error e =>
    exact command_precise (raiseFault_precise .illegalCommand s) ((runWord_illegal hd s).symm.trans h)

end

/-- Settles O17: a word is a command, or rejected, and both raise their faults by `raiseFault`. -/
theorem faultsArePrecise : Obligations.FaultsArePrecise :=
  ⟨fun _ _ _ => exec_precise, fun _ _ _ => runWord_precise⟩

end Sys2Proof.Machine
end

section
/-! The reset input and termination (70_reset_and_hazards.md R210 to R212, R225): what the reset input leaves, that every
step answers, and how many accesses a command adds to the trace. -/

namespace Sys2Proof.Machine

/-! ## The accesses of a command (R225) -/

theorem accessBound_le_two_primitives (i : Instr) (n : Nat) : accessBound i n ≤ 2 * (3 + n) := by
  cases i <;> simp only [accessBound] <;> omega

/-- TXN.XMIT and TXN.RECV alone may call two primitives. -/
theorem accessBound_eq_of_not_link {i : Instr} (hx : ∀ a, i ≠ .txnXmit a) (hr : ∀ a, i ≠ .txnRecv a) (n : Nat) :
    accessBound i n = 3 + n := by
  cases i
  case txnXmit a => exact absurd rfl (hx a)
  case txnRecv a => exact absurd rfl (hr a)
  all_goals rfl

/-- The accesses added to the trace are at most as many as the bound given. -/
theorem Accessed.trace_bounded {rs ws : List Addr} {n : Nat} {s t : State} (h : Accessed rs ws n s t) :
    ∃ l, t.trace = s.trace ++ l ∧ l.length ≤ n := by
  obtain ⟨l, ⟨hl, -⟩, htrace, -⟩ := h
  exact ⟨l, htrace, hl⟩

/-- Settles O20: the accesses are those of `exec_accessed`, and its bound is one primitive's for all but two commands. -/
theorem accessesAreAddedAndBounded : Obligations.AccessesAreAddedAndBounded := by
  intro i s t h
  obtain ⟨l, htrace, hl⟩ := (exec_accessed h).trace_bounded
  exact ⟨l, htrace, hl.trans (accessBound_le_two_primitives i _),
    fun hx hr => hl.trans (accessBound_eq_of_not_link hx hr _).le⟩

/-! ## The reset input (R210 to R212) -/

theorem step_wait {s : State} (hs : s.inputs = []) : step s = .next s := by
  simp only [step, takeInput, hs]

theorem step_reset {s : State} {rest : List Input} (hs : s.inputs = .reset :: rest) :
    step s = .next (resetEngine (withInputs rest s)) := by
  simp only [step, takeInput, hs]

/-- Settles O8: the step is `resetEngine`, whose latches are the two that the statement leaves open. -/
theorem resetInputRestoresTheEngine : Obligations.ResetInputRestoresTheEngine :=
  fun _ _ hs => ⟨_, _, step_reset hs⟩

/-! ## Every step answers (R225) -/

theorem runWord_answers (w : CmdWord) (s : State) : ∃ t, runWord w s = .next t := by
  obtain ⟨body, hrun⟩ := runWord_is_command w
  exact ⟨_, hrun s⟩

/-- Settles O10: by what the host's next input is, if there is one. -/
theorem everyStepAnswers : Obligations.EveryStepAnswers := by
  intro s
  match hs : s.inputs with
  | [] => exact ⟨s, step_wait hs⟩
  | .reset :: rest => exact ⟨_, step_reset hs⟩
  | .command c :: rest =>
    rw [step_presented hs]
    exact runWord_answers c.word _

end Sys2Proof.Machine
end
